-- ==== Sys2Proof/Word.lean ====
section
/-! DEFINITION. The widths and the time type of the block (spec/00_scope.md R5 to R8, spec/30_encoding.md R65). -/

namespace Sys2Proof

/-- A 16-bit operation word: `op` in bits 15:8, the operand byte in bits 7:0 (R65). -/
abbrev Word := BitVec 16

/-- A `u8` of the spec: the operand byte, the write-data byte, the codec output. -/
abbrev Byte := BitVec 8

/-- The codec input, a `u11` (R60). -/
abbrev CodecIndex := BitVec 11

/-- A drive number, `0..1` (R16). -/
abbrev DriveId := Fin 2

/-- A side number, `0..NUM_SIDES-1` with `NUM_SIDES = 2` (R5, D20). -/
abbrev Side := Fin 2

/-- The `Time` of R5 and R8: an unbounded natural number of ticks, or `never` (`none`). -/
abbrev Time := Option Nat

end Sys2Proof
end

