-- ==== Sys2Proof/Syntax.lean ====
section
/-! DEFINITION. The operations of the block (spec/30_encoding.md R66): one constructor per row of the opcode table. -/

namespace Sys2Proof

/-- Who issues an operation (R66): the host, the scheduler, the engine itself, or the reset signal. -/
inductive OpClass where
  | host
  | scheduler
  | internal
  | resetSignal
  deriving DecidableEq, Repr

/-- The 25 operations. An operand stands here exactly when the operation word carries it (R66, R67); the operands of
the micro-operations (`now`, `limit`, the lookup index) are not in their words and come from the state. -/
inductive Instr where
  /-- R173: latch the write-data byte. -/
  | wrdata (b : Byte)
  /-- R174: select the drive. -/
  | drvsel (d : DriveId)
  /-- R175: select the side. -/
  | sidesel (side : Side)
  /-- R176: open or close the write gate. -/
  | wrgate (g : Bool)
  /-- R177: set the erase gate. -/
  | ergate (g : Bool)
  /-- R178: set the write-sync gate. -/
  | wrsync (g : Bool)
  /-- R179: set the stepper-enable line. -/
  | stpen (g : Bool)
  /-- R180: give a drive a phase code. -/
  | stpph (d : DriveId) (code : BitVec 4)
  /-- R181: give a drive a spindle command (0 Stop, 1 Start, 2 Select; 3 is not a command, R70). -/
  | motor (d : DriveId) (cmd : BitVec 2)
  /-- R182: read the codec output. -/
  | rddata
  /-- R183: read the status byte. -/
  | rdstat
  /-- R184: the scheduler's wake-up. -/
  | timer
  /-- R185: run ahead by up to `n` cells. -/
  | spec (n : Byte)
  /-- R80: one lookup in the codec table. -/
  | lookup
  /-- R83: make the cached codec pair follow the latches. -/
  | refresh
  /-- R90: process one bit cell. -/
  | step
  /-- R140: deliver the pending edge events. -/
  | fire
  /-- R139: the stepping loop. -/
  | run
  /-- R135: leave `Idle`. -/
  | start
  /-- R136: return to `Idle`. -/
  | stop
  /-- R124: commit the queued transitions. -/
  | commit
  /-- R156: settle, commit and copy the live state. -/
  | checkpoint
  /-- R157: restore the live state from its copy. -/
  | rollback
  /-- R158: land exactly at real time. -/
  | sync
  /-- R240: reset. -/
  | reset
  deriving DecidableEq, Repr

/-- The class of an operation, the third column of R66. -/
def Instr.opClass : Instr → OpClass
  | .wrdata _ | .drvsel _ | .sidesel _ | .wrgate _ | .ergate _ | .wrsync _ | .stpen _ | .stpph _ _ | .motor _ _
  | .rddata | .rdstat => .host
  | .timer | .spec _ => .scheduler
  | .lookup | .refresh | .step | .fire | .run | .start | .stop | .commit | .checkpoint | .rollback | .sync => .internal
  | .reset => .resetSignal

end Sys2Proof
end

