-- ==== Sys2Proof/WellFormed.lean ====
section
/-! DEFINITION. Which instructions are well formed. The operand types admit exactly what the operand fields of
spec/30_encoding.md R66 hold, with one exception: the two command bits of `MOTOR` have a value that is no command (R70). -/

namespace Sys2Proof

/-- R70, U13: command value 3 of `MOTOR` is not one of `Stop`, `Start`, `Select`. -/
def motorCommandLegal (cmd : BitVec 2) : Bool := cmd != 3#2

/-- The static checks of an instruction. -/
def Instr.wellFormed : Instr → Bool
  | .motor _ cmd => motorCommandLegal cmd
  | .wrdata _ | .drvsel _ | .sidesel _ | .wrgate _ | .ergate _ | .wrsync _ | .stpen _ | .stpph _ _
  | .rddata | .rdstat | .timer | .spec _ | .lookup | .refresh | .step | .fire | .run | .start | .stop
  | .commit | .checkpoint | .rollback | .sync | .reset => true

end Sys2Proof
end

