-- ==== Sys2Proof/Decode.lean ====
section
/-! DEFINITION. Decoding an operation word, and after it encoding one (spec/30_encoding.md R65 to R67, R70). -/

namespace Sys2Proof

/-- Why a word is no operation (R70). -/
inductive DecodeError where
  /-- The operation identifier is none of R66's. -/
  | unknownOp
  /-- An operand bit that R66 shows as 0 is set. -/
  | reservedOperandBits
  /-- `MOTOR` with command value 3. -/
  | reservedMotorCommand
  deriving DecidableEq, Repr

/-- `word[15:8]`, the operation identifier (R65). -/
def opField (w : Word) : BitVec 8 := w.extractLsb' 8 8

/-- `word[7:0]`, the operand byte (R65). -/
def operandField (w : Word) : Byte := w.extractLsb' 0 8

/-- A drive or side number from its bit. -/
def numberOfBit (b : Bool) : Fin 2 := if b then 1 else 0

/-- An operand byte whose only operand bit is `v[0]` (R66: `v[7:1]` = 0). -/
def decodeBitOperand (v : Byte) (k : Bool → Instr) : Except DecodeError Instr :=
  if v.extractLsb' 1 7 = 0#7 then .ok (k (v.getLsbD 0)) else .error .reservedOperandBits

/-- An operand byte that must be 0: R66 for the classes `H`, `S` and `X`, and the rows of spec/opcode_table.json for class `I`
(all sixteen bits fixed, mask 0xFFFF). -/
def decodeNoOperand (v : Byte) (i : Instr) : Except DecodeError Instr :=
  if v = 0#8 then .ok i else .error .reservedOperandBits

/-- `STPPH`: `v[4]` = drive, `v[3:0]` = phase code, `v[7:5]` = 0 (R66). -/
def decodeStpph (v : Byte) : Except DecodeError Instr :=
  if v.extractLsb' 5 3 = 0#3 then .ok (.stpph (numberOfBit (v.getLsbD 4)) (v.extractLsb' 0 4))
  else .error .reservedOperandBits

/-- `MOTOR`: `v[4]` = drive, `v[1:0]` = command, `v[7:5]` and `v[3:2]` = 0, command 3 illegal (R66, R70). -/
def decodeMotor (v : Byte) : Except DecodeError Instr :=
  if v.extractLsb' 5 3 = 0#3 ∧ v.extractLsb' 2 2 = 0#2 then
    if motorCommandLegal (v.extractLsb' 0 2) then .ok (.motor (numberOfBit (v.getLsbD 4)) (v.extractLsb' 0 2))
    else .error .reservedMotorCommand
  else .error .reservedOperandBits

/-- The operation a word stands for (R66), or the name of what is wrong with it. Total on every 16-bit word. -/
def decode (w : Word) : Except DecodeError Instr :=
  match (opField w).toNat with
  | 0x01 => .ok (.wrdata (operandField w))
  | 0x02 => decodeBitOperand (operandField w) (fun b => .drvsel (numberOfBit b))
  | 0x03 => decodeBitOperand (operandField w) (fun b => .sidesel (numberOfBit b))
  | 0x04 => decodeBitOperand (operandField w) .wrgate
  | 0x05 => decodeBitOperand (operandField w) .ergate
  | 0x06 => decodeBitOperand (operandField w) .wrsync
  | 0x07 => decodeBitOperand (operandField w) .stpen
  | 0x08 => decodeStpph (operandField w)
  | 0x09 => decodeMotor (operandField w)
  | 0x10 => decodeNoOperand (operandField w) .rddata
  | 0x11 => decodeNoOperand (operandField w) .rdstat
  | 0x20 => decodeNoOperand (operandField w) .timer
  | 0x21 => .ok (.spec (operandField w))
  | 0xC0 => decodeNoOperand (operandField w) .lookup
  | 0xC1 => decodeNoOperand (operandField w) .refresh
  | 0xC2 => decodeNoOperand (operandField w) .step
  | 0xC3 => decodeNoOperand (operandField w) .fire
  | 0xC4 => decodeNoOperand (operandField w) .run
  | 0xC5 => decodeNoOperand (operandField w) .start
  | 0xC6 => decodeNoOperand (operandField w) .stop
  | 0xC7 => decodeNoOperand (operandField w) .commit
  | 0xC8 => decodeNoOperand (operandField w) .checkpoint
  | 0xC9 => decodeNoOperand (operandField w) .rollback
  | 0xCA => decodeNoOperand (operandField w) .sync
  | 0xFF => decodeNoOperand (operandField w) .reset
  | _ => .error .unknownOp

/-- R70: the words the outside may issue: those of the classes `H`, `S` and `X` with every reserved bit 0. -/
def legalOutside (w : Word) : Bool :=
  match decode w with
  | .ok i => i.opClass != .internal
  | .error _ => false

/-- What the decoder reads from an instruction of `nbits` bits `w`, every higher bit being 0. -/
def tableWord (nbits w : Nat) : Nat := w % 2 ^ nbits

/-- The instruction the decoder reads from the table's numbering of a word; an instruction is one 16-bit word, so a
value with a bit above bit 15 is none. -/
def decodeTableWord (nbits w : Nat) : Option Instr :=
  if tableWord nbits w < 2 ^ 16 then (decode (BitVec.ofNat 16 (tableWord nbits w))).toOption else none

/-! ## The encoder -/

/-- The operation identifiers of R66. -/
def Instr.op : Instr → BitVec 8
  | .wrdata _ => 0x01
  | .drvsel _ => 0x02
  | .sidesel _ => 0x03
  | .wrgate _ => 0x04
  | .ergate _ => 0x05
  | .wrsync _ => 0x06
  | .stpen _ => 0x07
  | .stpph _ _ => 0x08
  | .motor _ _ => 0x09
  | .rddata => 0x10
  | .rdstat => 0x11
  | .timer => 0x20
  | .spec _ => 0x21
  | .lookup => 0xC0
  | .refresh => 0xC1
  | .step => 0xC2
  | .fire => 0xC3
  | .run => 0xC4
  | .start => 0xC5
  | .stop => 0xC6
  | .commit => 0xC7
  | .checkpoint => 0xC8
  | .rollback => 0xC9
  | .sync => 0xCA
  | .reset => 0xFF

/-- The bit of a drive or side number. -/
def bitOfNumber (d : Fin 2) : Bool := d == 1

/-- An operand byte with its operand in `v[0]`. -/
def bitOperand (b : Bool) : Byte := 0#7 ++ BitVec.ofBool b

/-- The operand byte of an instruction (R66). -/
def Instr.operand : Instr → Byte
  | .wrdata b => b
  | .drvsel d => bitOperand (bitOfNumber d)
  | .sidesel s => bitOperand (bitOfNumber s)
  | .wrgate g | .ergate g | .wrsync g | .stpen g => bitOperand g
  | .stpph d code => 0#3 ++ BitVec.ofBool (bitOfNumber d) ++ code
  | .motor d cmd => 0#3 ++ BitVec.ofBool (bitOfNumber d) ++ 0#2 ++ cmd
  | .spec n => n
  | .rddata | .rdstat | .timer | .lookup | .refresh | .step | .fire | .run | .start | .stop | .commit | .checkpoint
  | .rollback | .sync | .reset => 0#8

/-- The word of an instruction: the identifier above the operand byte (R65). -/
def encode (i : Instr) : Word := i.op ++ i.operand

end Sys2Proof
end

