-- ==== Sys2Proof/Config.lean ====
section
/-! DEFINITION. The parameters of the model (spec/00_scope.md R5, spec/10_state.md R31): what the spec leaves open. -/

namespace Sys2Proof

/-- R5: a list of four 4-bit phase codes, in forward order. -/
structure PhaseSeq where
  phase0 : BitVec 4
  phase1 : BitVec 4
  phase2 : BitVec 4
  phase3 : BitVec 4
  deriving DecidableEq, Repr, Inhabited

/-- The codes in their order. -/
def PhaseSeq.codes (p : PhaseSeq) : List (BitVec 4) := [p.phase0, p.phase1, p.phase2, p.phase3]

/-- R5: the default of `PHASE_SEQ` (D22). -/
def PhaseSeq.standard : PhaseSeq := { phase0 := 0b0000, phase1 := 0b0001, phase2 := 0b0011, phase3 := 0b0010 }

/-- The parameters of R5 that the spec leaves open, and the inputs R241 calls unspecified. Every definition of the
model takes them as an argument. -/
structure Config where
  /-- `GCR_ROM` (R82, D1): the codec table, total. -/
  gcrRom : CodecIndex → Byte
  /-- `GCR_ERROR` (R85, D2). -/
  gcrError : CodecIndex → Byte → Bool
  /-- `CELL_PERIOD` less one: R5 asks for `P > 0`. -/
  cellPeriodLessOne : Nat
  /-- `TRANSITION_BIT` (D4): the bit value of a cell that holds a transition. -/
  transitionBit : Bool
  /-- `MAX_CYL` (D21). -/
  maxCylinder : Nat
  /-- `INIT_CYL[d]` (D21), before it is held to `0..MAX_CYL`. -/
  initCylinder : DriveId → Nat
  /-- `PHASE_SEQ` (D22), before it is held to four distinct codes. -/
  phaseCodes : PhaseSeq
  /-- `ZONE_SPEED` (D23, R204): read by no rule. -/
  zoneSpeed : Nat → Nat
  /-- `T_reset` (U26, D30): the time of construction. -/
  resetTime : Nat
  /-- The write-protect inputs at construction (R241: environment inputs, unspecified). -/
  initWriteProtect : DriveId → Bool
  /-- Whether a medium is inserted at construction (R241: environment inputs, unspecified). -/
  initMedium : DriveId → Bool
  deriving Inhabited

/-- `P`, the bit-cell period: at least one tick (R5). -/
def Config.period (c : Config) : Nat := c.cellPeriodLessOne + 1

/-- The cylinder a drive stands at when it is constructed: R5 gives `INIT_CYL[d]` the range `0..MAX_CYL`. -/
def Config.initialCylinder (c : Config) (d : DriveId) : Nat := min (c.initCylinder d) c.maxCylinder

/-- `PHASE_SEQ`: R5 types it as four distinct codes, so codes that coincide give its default (log 1). -/
def Config.phaseSeq (c : Config) : PhaseSeq := if c.phaseCodes.codes.Nodup then c.phaseCodes else .standard

/-- The parameters of the machine at hand. Nothing can be proved about their values (R82: a model must not prove
anything that depends on a table entry; D1 to D4, D21 to D23, U1 to U26). -/
opaque Config.machine : Config

/-- `SYNC_PATTERN` (R93, D5): ten bits, all one. -/
def syncPattern : BitVec 10 := 0x3FF

/-- The round-trip property of R86, a property required of a table and named so that a claim can assume it: for every
byte, the two write lookups give ten code bits that the read lookup decodes to the byte. -/
def Config.HasRoundTrip (c : Config) : Prop :=
  ∀ b : Byte,
    c.gcrRom (0#1 ++ ((c.gcrRom (0b1000000#7 ++ b.extractLsb' 4 4)).extractLsb' 0 5 ++
      (c.gcrRom (0b1000001#7 ++ b.extractLsb' 0 4)).extractLsb' 0 5)) = b

end Sys2Proof
end

