-- ==== Sys2Proof/Machine/State.lean ====
section
/-! DEFINITION. The state of the block as plain data (spec/10_state.md R10 to R30, spec/20_memory.md R41), the reasons a
step can stop, and the state after reset (spec/70_reset_and_hazards.md R241). -/

namespace Sys2Proof.Machine

/-- R11: the states of the live engine. -/
inductive EngineState where
  | idle
  | running
  | runningSyncpoint
  deriving DecidableEq, Repr

/-- R19: the five status flags; R20: with the same five names, the change flags. -/
structure StatusFlags where
  byteReady : Bool
  latchedByteReady : Bool
  syncDetected : Bool
  synMarker : Bool
  gcrError : Bool
  deriving DecidableEq, Repr

/-- All five flags 0. -/
def StatusFlags.clear : StatusFlags :=
  { byteReady := false, latchedByteReady := false, syncDetected := false, synMarker := false, gcrError := false }

/-- R11 to R21: the record the engine holds twice, as the live copy and as the checkpoint. -/
structure LiveState where
  /-- R11. -/
  state : EngineState
  /-- R12: the next pending bit-cell boundary. -/
  time : Time
  /-- R13: the deferred transition; it is due at `time`. -/
  nextState : Option EngineState
  /-- R14: bit 0 is the newest bit. -/
  shiftRegister : BitVec 10
  /-- R15. -/
  bitCounter : Fin 10
  /-- R15. -/
  syncBitCounter : Fin 10
  /-- R15. -/
  syncByteCounter : Fin 16
  /-- R16. -/
  drive : DriveId
  /-- R16. -/
  side : Side
  /-- R17 (alias `drw`): 1 = write mode. -/
  writeGate : Bool
  /-- R17 (alias `wd`). -/
  writeData : Byte
  /-- R17 (alias `wrsync`). -/
  writeSyncGate : Bool
  /-- R17. -/
  eraseGate : Bool
  /-- R18 (alias `i`). -/
  gcrInput : CodecIndex
  /-- R18 (alias `e`). -/
  gcrOutput : Byte
  /-- R19. -/
  flags : StatusFlags
  /-- R20: which flags have changed since the last delivery. -/
  changed : StatusFlags
  /-- R21. -/
  writeStartTime : Time
  /-- R21. -/
  writePosition : Nat
  /-- R21: transition times not yet committed. -/
  writeBuffer : List Nat
  deriving DecidableEq, Repr

/-- R25: one drive. `track_zero` is derived from the cylinder. -/
structure Drive where
  side : Side
  cylinder : Nat
  motorEnabled : Bool
  /-- R205: an input from the drive. -/
  writeProtect : Bool
  phase : BitVec 4
  /-- R205: whether a medium is inserted, an input from the drive. -/
  medium : Bool
  deriving DecidableEq, Repr

/-- R27: the spindle commands. -/
inductive SpindleCommand where
  | stop
  | start
  | select
  deriving DecidableEq, Repr

/-- One thing for each of the two drives (`NUM_DRIVES` = 2, R5). -/
structure PerDrive (α : Type) where
  d0 : α
  d1 : α
  deriving DecidableEq, Repr

/-- R40: a track of the flux medium. -/
structure Track where
  drive : DriveId
  cylinder : Nat
  side : Side
  deriving DecidableEq, Repr

/-- One flux transition: the track and the instant it stands at (R41). -/
structure Mark where
  track : Track
  time : Nat
  deriving DecidableEq, Repr

/-- The flux media of all tracks: the marks that are present, strictly rising in the order of `Mark.before`
(Machine/Medium.lean). An instant that is not listed holds no transition. A list is finite, so a track holds finitely many
transitions: the model's choice (log 3). -/
abbrev Medium := List Mark

/-- R215: the contract violations. Taking one is a NEXT state with `fault` set (R216), so they are no outcome of a step. -/
inductive Violation where
  /-- Code 1, raised by `FluxCommit`: a commit to a drive with no medium. -/
  | commitNoMedium (d : DriveId)
  /-- Code 2: a mutation without `SYNC`; R162: it cannot be expressed by the operations of the spec. -/
  | mutateWithoutSync
  /-- Code 3, raised by the wrapper: a word R70 does not admit. -/
  | illegalOp (word : Word)
  /-- Code 4, raised by the wrapper: `now` less than that of an earlier operation. -/
  | timeRegression (now : Nat)
  deriving DecidableEq, Repr

/-- R219: the output events. -/
inductive Event where
  | lbrdy (t : Nat) (level : Bool)
  | syn (t : Nat) (level : Bool)
  | brdyPulse (t : Nat)
  | syncEdge (t : Nat) (level : Bool)
  | errorEdge (t : Nat) (level : Bool)
  | commit (track : Track) (start stop : Nat) (transitions : List Nat)
  deriving DecidableEq, Repr

/-- R227: who issues an operation. -/
inductive Agent where
  | host
  | scheduler
  | engine
  deriving DecidableEq, Repr

/-- One operation issued: its word and the real time that goes with it (R65), and the operands of the micro-operations
that no word carries (`RUN`'s limit, R139; `LOOKUP`'s input, R80). -/
structure Issue where
  agent : Agent
  now : Nat
  word : Word
  limit : Nat
  index : CodecIndex
  deriving DecidableEq, Repr

/-- The whole state: the record `Controller` of R10, the flux media (R41), and the model's own input and output ports. -/
structure State where
  /-- R11 to R22: the live copy. -/
  cur : LiveState
  /-- R23: the checkpoint copy. -/
  chk : LiveState
  /-- R24: cached next flux transition of the selected track. -/
  nextEdge : Time
  /-- R25. -/
  drives : PerDrive Drive
  /-- R26. -/
  stepperEnable : Bool
  /-- R27. -/
  spindleCtl : PerDrive SpindleCommand
  /-- R28. -/
  lastNow : Nat
  /-- R29: sticky. -/
  fault : Option Violation
  /-- R30: the output events so far, in order. -/
  events : List Event
  /-- R41: the flux media. -/
  medium : Medium
  /-- The operations issued and not yet executed, oldest first (R71; the model's own field). -/
  queue : List Issue
  /-- R31: the real time of the operation being executed (an input; the model's own field). -/
  now : Nat
  /-- R139: the limit given to a `RUN` micro-operation (an input; the model's own field). -/
  limit : Nat
  /-- R80: the input given to a `LOOKUP` micro-operation (an input; the model's own field). -/
  index : CodecIndex
  /-- R80, R182, R183: the byte the last operation returned, if it returned one (an output; the model's own field). -/
  result : Option Byte
  deriving DecidableEq, Repr

/-- Why the machine stops: a micro-operation was issued outside the precondition its rule states. The spec says the
engine never does that, and gives no effect (log 6). Each is safe: the model stops where the spec says nothing. -/
inductive Fault where
  /-- R90: `STEP` when not `Running`, with a deferred transition, or with `time` = never ("`never + P` is not defined", R8).
  Raised by `execStep`; safe. -/
  | stepPrecondition
  /-- R140: `FIRE` when not at a syncpoint, or with `time` = never, which no event can be stamped with. Raised by `execFire`;
  safe. -/
  | firePrecondition
  /-- R135: `START` when not `Idle`. Raised by `execStart`; safe. -/
  | startPrecondition
  /-- R136: `STOP` when not `Running` and settled. Raised by `execStop`; safe. -/
  | stopPrecondition
  /-- R156: `CHECKPOINT` when the live copy is ahead of real time. Raised by `execCheckpoint`; safe. -/
  | checkpointPrecondition
  deriving DecidableEq, Repr

/-- Why a step is refused. -/
inductive Refusal where
  /-- An instruction with no meaning in this model yet; raised by no arm of `exec`. Safe. -/
  | notModelled (mnemonic : String)
  /-- The engine was made to issue a word that is no operation (log 7). Raised by the step; safe. -/
  | noMicroOperation (word : Word)
  deriving DecidableEq, Repr

/-- R241: the live state after reset. -/
def LiveState.reset (c : Config) : LiveState :=
  { state := .idle
    time := none
    nextState := none
    shiftRegister := 0
    bitCounter := 0
    syncBitCounter := 0
    syncByteCounter := 0
    drive := 0
    side := 0
    writeGate := false
    writeData := 0
    writeSyncGate := false
    eraseGate := false
    gcrInput := 0
    gcrOutput := c.gcrRom 0
    flags := .clear
    changed := .clear
    writeStartTime := none
    writePosition := 0
    writeBuffer := [] }

/-- R241: a drive at construction. -/
def Drive.construct (c : Config) (d : DriveId) : Drive :=
  { side := 0
    cylinder := c.initialCylinder d
    motorEnabled := false
    writeProtect := c.initWriteProtect d
    phase := 0
    medium := c.initMedium d }

/-- R241 (construction, R240), with the model's own ports: nothing issued, nothing returned, no transition on any medium. -/
def State.construct (c : Config) : State :=
  { cur := .reset c
    chk := .reset c
    nextEdge := none
    drives := { d0 := .construct c 0, d1 := .construct c 1 }
    stepperEnable := false
    spindleCtl := { d0 := .stop, d1 := .stop }
    lastNow := c.resetTime
    fault := none
    events := []
    medium := []
    queue := []
    now := c.resetTime
    limit := c.resetTime
    index := 0
    result := none }

/-- The machine right after reset. -/
def State.reset : State := State.construct Config.machine

/-- The three outcomes of an operation. -/
abbrev StepResult := Host.Outcome State Fault Refusal

end Sys2Proof.Machine
end

