-- ==== Sys2Proof/Machine/Medium.lean ====
section
/-! DEFINITION. The flux media as data: one list of marks in one canonical form, the read of one instant, and the two
operations of spec/20_memory.md R42 and R43 over it. -/

namespace Sys2Proof.Machine

/-- The order of the canonical form: by drive, cylinder, side, then time. -/
def Mark.before (x y : Mark) : Bool :=
  decide (x.track.drive < y.track.drive) || (x.track.drive == y.track.drive &&
    (decide (x.track.cylinder < y.track.cylinder) || (x.track.cylinder == y.track.cylinder &&
      (decide (x.track.side < y.track.side) || (x.track.side == y.track.side && decide (x.time < y.time))))))

/-- The canonical form of the media: strictly rising, so that equal media are equal data. -/
abbrev Medium.wf (m : Medium) : Prop := m.Pairwise (fun x y => x.before y = true)

/-- The read of one cell of the medium: whether a transition stands at that instant of that track (R40, R41). -/
def mediumHas (m : Medium) (tr : Track) (t : Nat) : Bool := m.contains { track := tr, time := t }

/-- One transition added. -/
def mediumInsert (x : Mark) : Medium → Medium
  | [] => [x]
  | y :: ys => if x.before y then x :: y :: ys else if x = y then y :: ys else y :: mediumInsert x ys

/-- Several transitions of one track added. -/
def mediumInsertAll (m : Medium) (tr : Track) : List Nat → Medium
  | [] => m
  | t :: ts => mediumInsert { track := tr, time := t } (mediumInsertAll m tr ts)

/-- R43: whether a mark lies on the track and in `[start, stop)`. -/
def markInInterval (tr : Track) (start stop : Nat) (x : Mark) : Bool :=
  x.track == tr && decide (start ≤ x.time) && decide (x.time < stop)

/-- R43: the interval is overwritten, old transitions inside it are erased. -/
def mediumReplace (m : Medium) (tr : Track) (start stop : Nat) (ts : List Nat) : Medium :=
  mediumInsertAll (m.filter (fun x => !markInInterval tr start stop x)) tr ts

/-- R42: the least transition of the track at or after `t`. -/
def mediumNext (m : Medium) (tr : Track) (t : Nat) : Time :=
  (m.find? (fun x => x.track == tr && decide (t ≤ x.time))).map Mark.time

end Sys2Proof.Machine
end

