-- ==== Sys2Proof/Machine/Operands.lean ====
section
/-! DEFINITION. What operations read and write: comparisons of `Time` (spec/00_scope.md R8), the accessors of the two
drives and of the live copy, the selected track, the codec input (spec/30_encoding.md R62), the code bit to send
(spec/43_write_path.md R120), the status byte (spec/30_encoding.md R68). -/

namespace Sys2Proof.Machine

/-! ## Time -/

/-- `x <= n` for a `Time`; false for `never`, with which R8 makes no comparison (log 8). -/
def timeAtOrBefore (x : Time) (n : Nat) : Bool :=
  match x with
  | some t => decide (t ≤ n)
  | none => false

/-- `x > n` for a `Time`; false for `never` (log 8). -/
def timeAfter (x : Time) (n : Nat) : Bool :=
  match x with
  | some t => decide (n < t)
  | none => false

/-! ## The two drives -/

/-- The entry of drive `d`. -/
def PerDrive.get {α : Type} (p : PerDrive α) (d : DriveId) : α := if d = 0 then p.d0 else p.d1

/-- `p` with the entry of drive `d` replaced. -/
def PerDrive.set {α : Type} (p : PerDrive α) (d : DriveId) (x : α) : PerDrive α :=
  if d = 0 then { p with d0 := x } else { p with d1 := x }

/-- `drv[d]`. -/
def State.drv (s : State) (d : DriveId) : Drive := s.drives.get d

/-- `drv[d] <- x`. -/
def State.setDrv (s : State) (d : DriveId) (x : Drive) : State := { s with drives := s.drives.set d x }

/-- R25, R201: `track_zero` is 1 exactly when the cylinder is 0. -/
def Drive.trackZero (x : Drive) : Bool := x.cylinder == 0

/-! ## The live copy and its track -/

/-- `cur <- x`. -/
def State.setCur (s : State) (x : LiveState) : State := { s with cur := x }

/-- The result port of a read operation. -/
def State.setResult (s : State) (b : Byte) : State := { s with result := some b }

/-- The track the engine reads and writes: the selected drive at its own cylinder, on `cur.side` (R110, R124, R172). -/
def State.track (s : State) : Track :=
  { drive := s.cur.drive, cylinder := (s.drv s.cur.drive).cylinder, side := s.cur.side }

/-! ## Codec words -/

/-- R62: the second half of a byte. -/
def secondHalf (x : LiveState) : Bool := decide (5 ≤ x.bitCounter.val)

/-- R62: the nibble of the write-data byte that the bit counter selects. -/
def writeNibble (x : LiveState) : BitVec 4 :=
  if secondHalf x then x.writeData.extractLsb' 0 4 else x.writeData.extractLsb' 4 4

/-- R62: the codec input of a live state, format `CI-R` in read mode and `CI-W` in write mode. -/
def codecInput (x : LiveState) : CodecIndex :=
  if x.writeGate then
    1#1 ++ BitVec.ofBool x.writeSyncGate ++ BitVec.ofBool x.eraseGate ++ 0#3 ++ BitVec.ofBool (secondHalf x) ++ writeNibble x
  else 0#1 ++ x.shiftRegister

/-- R18, R83: the live state with the codec pair equal to the lookup of its latches. -/
def refreshLive (c : Config) (x : LiveState) : LiveState :=
  { x with gcrInput := codecInput x, gcrOutput := c.gcrRom (codecInput x) }

/-- R120, R121: bit `4 - (bit_counter mod 5)` of the codec output. -/
def codeBit (x : LiveState) : Bool := x.gcrOutput.getLsbD (4 - x.bitCounter.val % 5)

/-- R68: the status byte, format `ST`. -/
def statusByte (x : LiveState) (d : Drive) : Byte :=
  0#1 ++ BitVec.ofBool d.trackZero ++ BitVec.ofBool d.writeProtect ++ BitVec.ofBool x.flags.gcrError ++
    BitVec.ofBool x.flags.synMarker ++ BitVec.ofBool x.flags.syncDetected ++ BitVec.ofBool x.flags.latchedByteReady ++
    BitVec.ofBool x.flags.byteReady

end Sys2Proof.Machine
end

