-- ==== Sys2Proof/Machine/Flags.lean ====
section
/-! DEFINITION. The computations of one bit cell on counters and flags (spec/41_shift_framing.md R92 to R102). -/

namespace Sys2Proof.Machine

/-- R92: every bit moves up one place, the new bit enters at bit 0, the old bit 9 is lost. -/
def shiftIn (sr : BitVec 10) (b : Bool) : BitVec 10 := sr.extractLsb' 0 9 ++ BitVec.ofBool b

/-- R93: the ten newest bits equal the pattern, and the engine is in read mode. -/
def isMark (writeGate : Bool) (sr : BitVec 10) : Bool := sr == syncPattern && !writeGate

/-- R97: the step shifts in the tenth bit of a byte and sees no mark. -/
def byteDone (mark : Bool) (bitCounter : Fin 10) : Bool := !mark && decide (bitCounter.val = 9)

/-- R94, R95: a mark zeroes the counter, any other step adds one modulo 10. -/
def nextBitCount (mark : Bool) (n : Fin 10) : Fin 10 :=
  if mark then 0 else ⟨(n.val + 1) % 10, Nat.mod_lt _ (by decide)⟩

/-- R96: a mark zeroes the counter, the tenth bit of a byte adds one modulo 16, other steps leave it. -/
def nextByteCount (mark : Bool) (syncBitCounter : Fin 10) (n : Fin 16) : Fin 16 :=
  if mark then 0
  else if syncBitCounter.val = 9 then ⟨(n.val + 1) % 16, Nat.mod_lt _ (by decide)⟩
  else n

/-- R97 to R101: the flags' new values. -/
def nextFlags (done mark error : Bool) (syncByteCounter : Fin 16) : StatusFlags :=
  { byteReady := done
    latchedByteReady := done
    syncDetected := mark
    synMarker := decide (syncByteCounter.val = 15)
    gcrError := error }

/-- R102: a change flag becomes 1 when its flag gets a different value, and otherwise keeps its own. -/
def markChanges (old new changed : StatusFlags) : StatusFlags :=
  { byteReady := changed.byteReady || old.byteReady != new.byteReady
    latchedByteReady := changed.latchedByteReady || old.latchedByteReady != new.latchedByteReady
    syncDetected := changed.syncDetected || old.syncDetected != new.syncDetected
    synMarker := changed.synMarker || old.synMarker != new.synMarker
    gcrError := changed.gcrError || old.gcrError != new.gcrError }

/-- R103: any of the five flags is 1. -/
def StatusFlags.any (f : StatusFlags) : Bool :=
  f.byteReady || f.latchedByteReady || f.syncDetected || f.synMarker || f.gcrError

end Sys2Proof.Machine
end

