-- ==== Sys2Proof/Machine/Ops.lean ====
section
/-! DEFINITION. The shared operations: taking a violation (spec/60_exceptions.md R216), the two primitives of the medium
(spec/20_memory.md R42, R43), one bit cell (spec/41_shift_framing.md R90), the deferred transition and its return
(spec/60_exceptions.md R222, R223), the stepping loop (spec/44_engine_control.md R139), commit, checkpoint, rollback and
sync (spec/43_write_path.md R124, spec/45_checkpoint_rollback.md R156 to R158), and the wrapper of every external
operation (spec/46_frontend_ops.md R170). -/

namespace Sys2Proof.Machine

/-! ## Violations -/

/-- R215: the code of a violation. -/
def Violation.code : Violation → Nat
  | .commitNoMedium _ => 1
  | .mutateWithoutSync => 2
  | .illegalOp _ => 3
  | .timeRegression _ => 4

/-- R216: take a violation. The first one wins; nothing else changes. There is no handler and no return but `RESET`. -/
def raise (v : Violation) (s : State) : State :=
  match s.fault with
  | none => { s with fault := some v }
  | some _ => s

/-- R216: the rest of an operation is abandoned once a violation has been taken. -/
def State.andThen (s : State) (f : State → State) : State :=
  match s.fault with
  | none => f s
  | some _ => s

/-- R7: append an output event. -/
def emit (e : Event) (s : State) : State := { s with events := s.events ++ [e] }

/-! ## The medium -/

/-- R42: the source's `next_transition`; `never` when the drive has no medium. -/
def fluxNext (s : State) (tr : Track) (t : Nat) : Time :=
  if (s.drv tr.drive).medium then mediumNext s.medium tr t else none

/-- R43: the source's `commit`. -/
def fluxCommit (tr : Track) (start stop : Nat) (ts : List Nat) (s : State) : State :=
  if (s.drv tr.drive).medium then
    emit (.commit tr start stop ts) { s with medium := mediumReplace s.medium tr start stop ts }
  else raise (.commitNoMedium tr.drive) s

/-- R24, R156, R157: recompute the cached flux edge for the live copy. -/
def precomputeEdge (s : State) : State :=
  { s with nextEdge :=
      if s.cur.state = .idle then none
      else match s.cur.time with
        | some t => fluxNext s s.track t
        | none => none }

/-! ## One bit cell -/

/-- R110: the bit of the cell that starts at `t`, from the cached edge. R111 gives the same bit as a statement about the track,
equal to this one "whenever the cache invariant" of R24 holds. Where it does not hold, after
a `START` issued on its own for one, that the cached edge decides is the model's choice (log 18). -/
def readBit (c : Config) (t : Nat) (s : State) : Bool :=
  match s.nextEdge with
  | some x => if x < t + c.period then c.transitionBit else !c.transitionBit
  | none => !c.transitionBit

/-- R110: the cached edge after the cell that starts at `t` has been read (log 18, as for `readBit`). -/
def edgeAfterRead (c : Config) (t : Nat) (s : State) : Time :=
  match s.nextEdge with
  | some x => if x < t + c.period then fluxNext s s.track (t + c.period) else s.nextEdge
  | none => s.nextEdge

/-- R120: the write buffer after the bit of the cell that starts at `t` has been emitted. -/
def queueBit (c : Config) (t : Nat) (x : LiveState) : LiveState :=
  if codeBit x = c.transitionBit then
    { x with writeBuffer := x.writeBuffer ++ [t], writePosition := x.writePosition + 1 }
  else x

/-- R90 (a), R91: the bit of the cell, read or written as the write gate says. -/
def cellBit (c : Config) (t : Nat) (s : State) : Bool :=
  if s.cur.writeGate then codeBit s.cur else readBit c t s

/-- R90 (b), (d), (e): shift register, counters and codec pair after a cell with bit `b`. -/
def shiftCell (c : Config) (b : Bool) (x : LiveState) : LiveState :=
  refreshLive c
    { x with
      shiftRegister := shiftIn x.shiftRegister b
      bitCounter := nextBitCount (isMark x.writeGate (shiftIn x.shiftRegister b)) x.bitCounter
      syncBitCounter := nextBitCount (isMark x.writeGate (shiftIn x.shiftRegister b)) x.syncBitCounter
      syncByteCounter :=
        nextByteCount (isMark x.writeGate (shiftIn x.shiftRegister b)) x.syncBitCounter x.syncByteCounter }

/-- R90 (c), (f), R97 to R101: the flags after a cell that took `x` to `y`. -/
def cellFlags (c : Config) (x y : LiveState) : StatusFlags :=
  nextFlags (byteDone (isMark x.writeGate y.shiftRegister) x.bitCounter) (isMark x.writeGate y.shiftRegister)
    (c.gcrError y.gcrInput y.gcrOutput) y.syncByteCounter

/-- R90 (f) and the advance: flags, change flags, `time`, and the deferral of R103. -/
def finishCell (c : Config) (t : Nat) (x y : LiveState) : LiveState :=
  { y with
    flags := cellFlags c x y
    changed := markChanges x.flags (cellFlags c x y) x.changed
    time := some (t + c.period)
    nextState :=
      if (markChanges x.flags (cellFlags c x y) x.changed).any then some .runningSyncpoint else x.nextState }

/-- R90: the live copy after the cell that starts at `t` and has bit `b`. -/
def advanceLive (c : Config) (t : Nat) (b : Bool) (x : LiveState) : LiveState :=
  finishCell c t x (shiftCell c b (if x.writeGate then queueBit c t x else x))

/-- R90: one bit cell. With `time` = never there is no cell (R8), and `execStep` does not come here. -/
def stepCell (c : Config) (s : State) : State :=
  match s.cur.time with
  | none => s
  | some t =>
    { s with
      cur := advanceLive c t (cellBit c t s) s.cur
      nextEdge := if s.cur.writeGate then s.nextEdge else edgeAfterRead c t s }

/-! ## The deferred transition: entry and return -/

/-- R139, R222: the deferred transition is taken. -/
def promote (target : EngineState) (s : State) : State :=
  s.setCur { s.cur with state := target, nextState := none }

/-- R140: the events of one syncpoint at `t`, in their fixed order. -/
def fireEvents (t : Nat) (x : LiveState) : List Event :=
  (if x.changed.latchedByteReady then [.lbrdy t x.flags.latchedByteReady] else []) ++
  (if x.changed.synMarker then [.syn t x.flags.synMarker] else []) ++
  (if x.changed.byteReady && x.flags.byteReady then [.brdyPulse t] else []) ++
  (if x.changed.syncDetected then [.syncEdge t x.flags.syncDetected] else []) ++
  (if x.changed.gcrError then [.errorEdge t x.flags.gcrError] else [])

/-- R140, R223: deliver the events, clear the change flags, resume. Without a time (log 8) no event can be stamped. -/
def fireSyncpoint (s : State) : State :=
  { s with
    events := s.events ++ (match s.cur.time with | some t => fireEvents t s.cur | none => [])
    cur := { s.cur with changed := .clear, state := .running } }

/-! ## The stepping loop -/

/-- R139: the pending cell has ended at `limit`. -/
def cellEnded (c : Config) (limit : Nat) (x : LiveState) : Bool :=
  match x.time with
  | some t => decide (t + c.period ≤ limit)
  | none => false

/-- R139, the first half of a pass: take the deferred transition if it is due and deliver its events. `none`: the engine
is `Idle`, or a deferred transition is not due, and the loop returns. -/
def settlePass (now : Nat) (s : State) : Option State :=
  if s.cur.state = .idle then none
  else match s.cur.nextState with
    | some target =>
      if timeAtOrBefore s.cur.time now then
        if target = .runningSyncpoint then some (fireSyncpoint (promote target s)) else some (promote target s)
      else none
    | none => if s.cur.state = .runningSyncpoint then some (fireSyncpoint s) else some s

/-- R139: the loop; each pass returns or processes one cell. `fuel` bounds the passes. -/
def runLoop (c : Config) (limit now : Nat) : Nat → State → State
  | 0, s => s
  | fuel + 1, s =>
    match settlePass now s with
    | none => s
    | some s' => if cellEnded c limit s'.cur then runLoop c limit now fuel (stepCell c s') else s'

/-- How many cells end by `limit`, counted from the pending boundary: the loop cannot process more. -/
def cellsEnding (c : Config) (limit : Nat) (x : LiveState) : Nat :=
  match x.time with
  | some t => (limit - t) / c.period
  | none => 0

/-- R139: `RUN(limit, now)`. -/
def runEngine (c : Config) (limit now : Nat) (s : State) : State :=
  runLoop c limit now (cellsEnding c limit s.cur + 1) s

/-- R139: `Idle`, or `Running` with nothing deferred, no change flag set, and `time <= now < time + P`. -/
def settled (c : Config) (now : Nat) (x : LiveState) : Bool :=
  x.state == .idle ||
    (x.state == .running && x.nextState == none && x.changed == .clear && timeAtOrBefore x.time now && !cellEnded c now x)

/-! ## Commit, checkpoint, rollback, sync -/

/-- R124: `write_start_time`, `write_position` and `write_buffer` after a commit up to `t`. -/
def closeInterval (t : Nat) (s : State) : State :=
  s.setCur { s.cur with writeStartTime := some t, writeBuffer := [], writePosition := 0 }

/-- R124: commit the queued transitions over `[write_start_time, time)`; nothing when the interval is empty or not open. -/
def commitWrites (s : State) : State :=
  match s.cur.writeStartTime, s.cur.time with
  | some w, some t =>
    if w < t then (fluxCommit s.track w t s.cur.writeBuffer s).andThen (closeInterval t) else s
  | _, _ => s

/-- R156: `chk <- cur`, every field, and the cached edge. -/
def copyToCheckpoint (s : State) : State := precomputeEdge { s with chk := s.cur }

/-- R156: `CHECKPOINT(now)`. -/
def checkpointEngine (c : Config) (now : Nat) (s : State) : State :=
  (commitWrites (runEngine c now now s)).andThen copyToCheckpoint

/-- R157, R138: `ROLLBACK`. The live copy becomes the checkpoint, and in `Idle` it stays as it is: R138 says so of `Idle`, and
R157's `cur <- chk` names no state; that R138 prevails there is the model's choice (log 16). -/
def rollbackEngine (s : State) : State :=
  precomputeEdge { s with cur := if s.cur.state = .idle then s.cur else s.chk }

/-- R158: discard the speculative cells, if there are any. -/
def discardSpeculation (now : Nat) (s : State) : State :=
  if timeAfter s.cur.time now then rollbackEngine s else s

/-- R158: `SYNC(now)`. -/
def syncEngine (c : Config) (now : Nat) (s : State) : State :=
  if s.cur.state = .idle then s else commitWrites (runEngine c now now (discardSpeculation now s))

/-- R83: `REFRESH`. -/
def refreshCodec (c : Config) (s : State) : State := s.setCur (refreshLive c s.cur)

/-! ## Start and stop -/

/-- R135: `START(now)`. -/
def startEngine (c : Config) (now : Nat) (s : State) : State :=
  refreshCodec c (s.setCur
    { s.cur with
      state := .running
      time := some now
      nextState := none
      bitCounter := 0
      syncBitCounter := 0
      syncByteCounter := 0
      writeStartTime := if s.cur.writeGate then some now else s.cur.writeStartTime })

/-- R136, after its commit. -/
def haltEngine (s : State) : State :=
  s.setCur { s.cur with writeStartTime := none, state := .idle, time := none, nextState := none }

/-- R136: `STOP`. -/
def stopEngine (s : State) : State := (commitWrites s).andThen haltEngine

/-! ## The wrapper -/

/-- R142: what the engine asks of the scheduler. Outside `Idle` with no `time` it is `never`, the model's choice: R8 leaves
`never + P` undefined (log 8). -/
def State.wakeAt (c : Config) (s : State) : Time :=
  if s.cur.state = .idle then none
  else if s.cur.nextState = none then s.cur.time.map (· + c.period)
  else s.cur.time

/-- R170: an external operation with the given body and tail, at the real time `now`. The word's legality has been
checked (`issueNext`, and `MOTOR`'s command in its own meaning). -/
def externalOp (c : Config) (body tail : State → State) (s : State) : State :=
  match s.fault with
  | some _ => s
  | none =>
    if s.now < s.lastNow then raise (.timeRegression s.now) s
    else
      ((((syncEngine c s.now { s with lastNow := s.now }).andThen body).andThen (refreshCodec c)).andThen
        (checkpointEngine c s.now)).andThen tail

/-- R29, R216: a micro-operation in a faulted state is a no-op. -/
def microOp (f : State → State) (s : State) : StepResult := .next (s.andThen f)

/-- A micro-operation whose rule states a precondition: outside it the model stops (log 6). -/
def guardedOp (precondition : Bool) (why : Fault) (f : State → State) (s : State) : StepResult :=
  match s.fault with
  | some _ => .next s
  | none => if precondition then .next (f s) else .fault why

end Sys2Proof.Machine
end

