-- ==== Sys2Proof/Machine/Cell.lean ====
section
/-! DEFINITION. The bit-cell operation `STEP` (spec/41_shift_framing.md R90). -/

namespace Sys2Proof.Machine

/-- R90: the precondition of `STEP`. -/
def stepReady (s : State) : Bool :=
  s.cur.state == .running && s.cur.nextState == none && s.cur.time != none

/-- R90: `STEP`. -/
def execStep (s : State) : StepResult := guardedOp (stepReady s) .stepPrecondition (stepCell Config.machine) s

end Sys2Proof.Machine
end

