-- ==== Sys2Proof/Machine/Codec.lean ====
section
/-! DEFINITION. The codec operations `LOOKUP` and `REFRESH` (spec/40_codec.md R80, R83). -/

namespace Sys2Proof.Machine

/-- R80: the lookup of the input port, on the result port. -/
def lookupCodec (c : Config) (s : State) : State := s.setResult (c.gcrRom s.index)

/-- R80: `LOOKUP(i)`; no state is read or written. -/
def execLookup (s : State) : StepResult := microOp (lookupCodec Config.machine) s

/-- R83: `REFRESH`. -/
def execRefresh (s : State) : StepResult := microOp (refreshCodec Config.machine) s

end Sys2Proof.Machine
end

