-- ==== Sys2Proof/Machine/EngineControl.lean ====
section
/-! DEFINITION. The engine-control operations `START`, `STOP`, `RUN`, `FIRE` (spec/44_engine_control.md R135 to R140). As
micro-operations they run inside an external operation whose `now` is `last_now` (log 5). -/

namespace Sys2Proof.Machine

/-- R135: the precondition of `START`. -/
def startReady (s : State) : Bool := s.cur.state == .idle

/-- R135: `START(now)`. -/
def execStart (s : State) : StepResult :=
  guardedOp (startReady s) .startPrecondition (startEngine Config.machine s.lastNow) s

/-- R136: the precondition of `STOP`. -/
def stopReady (c : Config) (s : State) : Bool :=
  s.cur.state == .running && s.cur.nextState == none && settled c s.lastNow s.cur

/-- R136: `STOP`. -/
def execStop (s : State) : StepResult := guardedOp (stopReady Config.machine s) .stopPrecondition stopEngine s

/-- R139: `RUN(limit, now)`. R139 has `limit = now`, and `limit >= now` under `SPEC`; that a `RUN` issued on its own with any
other limit runs R139's loop with that limit all the same is the model's choice (log 19). -/
def execRun (s : State) : StepResult := microOp (runEngine Config.machine s.limit s.lastNow) s

/-- R140: the precondition of `FIRE`; its time stamp is `cur.time`, so there must be one (R8). -/
def fireReady (s : State) : Bool := s.cur.state == .runningSyncpoint && s.cur.time != none

/-- R140: `FIRE`. -/
def execFire (s : State) : StepResult := guardedOp (fireReady s) .firePrecondition fireSyncpoint s

end Sys2Proof.Machine
end

