-- ==== Sys2Proof/Machine/Mechanics.lean ====
section
/-! DEFINITION. The drive mechanics: stepper and spindle decoding (spec/47_drive_mechanics.md R200 to R203). -/

namespace Sys2Proof.Machine

/-- R200: the position of a code in `PHASE_SEQ`, if it has one. -/
def phaseIndex (c : Config) (code : BitVec 4) : Option Nat :=
  if code = c.phaseSeq.phase0 then some 0
  else if code = c.phaseSeq.phase1 then some 1
  else if code = c.phaseSeq.phase2 then some 2
  else if code = c.phaseSeq.phase3 then some 3
  else none

/-- R200: the direction of a phase transition, `+1`, `-1` or `0` cylinders. -/
def stepDecode (c : Config) (old new : BitVec 4) (enabled : Bool) : Int :=
  if !enabled then 0
  else match phaseIndex c old, phaseIndex c new with
    | some i, some j => if j = (i + 1) % 4 then 1 else if j = (i + 3) % 4 then -1 else 0
    | _, _ => 0

/-- R201: the cylinder after a step, held to `0..MAX_CYL`. -/
def moveCylinder (c : Config) (cylinder : Nat) (delta : Int) : Nat :=
  (min (max ((cylinder : Int) + delta) 0) (c.maxCylinder : Int)).toNat

/-- R66: the command values of `MOTOR`; value 3 is none (R70). -/
def spindleCommand (cmd : BitVec 2) : Option SpindleCommand :=
  match cmd.toNat with
  | 0 => some .stop
  | 1 => some .start
  | 2 => some .select
  | _ => none

/-- R203: the motor after a spindle command. -/
def motorDecode (on : Bool) (cmd : SpindleCommand) : Bool :=
  match cmd with
  | .start => true
  | .stop => false
  | .select => on

end Sys2Proof.Machine
end

