-- ==== Sys2Proof/Machine/FrontEnd.lean ====
section
/-! DEFINITION. The host operations (spec/46_frontend_ops.md R173 to R183): a body for each, and its meaning, the body in
the wrapper of R170. -/

namespace Sys2Proof.Machine

/-! ## Bodies -/

/-- R173. -/
def wrdataBody (b : Byte) (s : State) : State := s.setCur { s.cur with writeData := b }

/-- R174, R172. -/
def drvselBody (d : DriveId) (s : State) : State :=
  (s.setCur { s.cur with drive := d }).setDrv d { s.drv d with side := s.cur.side }

/-- R175, R172. -/
def sideselBody (side : Side) (s : State) : State :=
  (s.setCur { s.cur with side := side }).setDrv s.cur.drive { s.drv s.cur.drive with side := side }

/-- R176, R125: where the write interval stands after the write gate goes from its old value to `g`. -/
def gateInterval (g : Bool) (x : LiveState) : Time :=
  if x.writeGate && !g then none
  else if !x.writeGate && g && x.state != .idle then x.time
  else x.writeStartTime

/-- R176. -/
def wrgateBody (g : Bool) (s : State) : State :=
  s.setCur { s.cur with writeGate := g, writeStartTime := gateInterval g s.cur }

/-- R177. -/
def ergateBody (g : Bool) (s : State) : State := s.setCur { s.cur with eraseGate := g }

/-- R178. -/
def wrsyncBody (g : Bool) (s : State) : State := s.setCur { s.cur with writeSyncGate := g }

/-- R179. -/
def stpenBody (g : Bool) (s : State) : State := { s with stepperEnable := g }

/-- R180. -/
def stpphBody (c : Config) (d : DriveId) (code : BitVec 4) (s : State) : State :=
  s.setDrv d
    { s.drv d with
      cylinder := moveCylinder c (s.drv d).cylinder (stepDecode c (s.drv d).phase code s.stepperEnable)
      phase := code }

/-- R181: the command and the motor. -/
def spindleBody (d : DriveId) (cmd : SpindleCommand) (s : State) : State :=
  { s.setDrv d { s.drv d with motorEnabled := motorDecode (s.drv d).motorEnabled cmd } with
    spindleCtl := s.spindleCtl.set d cmd }

/-- R137: one of the two motors is on. -/
def anyMotor (s : State) : Bool := (s.drv 0).motorEnabled || (s.drv 1).motorEnabled

/-- R137, R181: start or stop the engine as the motors say. -/
def followMotors (c : Config) (now : Nat) (s : State) : State :=
  if anyMotor s && s.cur.state == .idle then startEngine c now s
  else if !anyMotor s && s.cur.state != .idle then stopEngine s
  else s

/-- R181. -/
def motorBody (c : Config) (d : DriveId) (cmd : SpindleCommand) (s : State) : State :=
  followMotors c s.now (spindleBody d cmd s)

/-- R182, R69. -/
def rddataBody (s : State) : State := s.setResult s.cur.gcrOutput

/-- R183, R68: of the selected drive. -/
def rdstatBody (s : State) : State := s.setResult (statusByte s.cur (s.drv s.cur.drive))

/-! ## Meanings -/

/-- R173: `WRDATA #b`. -/
def wrdataOp (c : Config) (b : Byte) (s : State) : State := externalOp c (wrdataBody b) id s

/-- R174: `DRVSEL d`. -/
def drvselOp (c : Config) (d : DriveId) (s : State) : State := externalOp c (drvselBody d) id s

/-- R175: `SIDESEL s`. -/
def sideselOp (c : Config) (side : Side) (s : State) : State := externalOp c (sideselBody side) id s

/-- R176: `WRGATE g`. -/
def wrgateOp (c : Config) (g : Bool) (s : State) : State := externalOp c (wrgateBody g) id s

/-- R177: `ERGATE g`. -/
def ergateOp (c : Config) (g : Bool) (s : State) : State := externalOp c (ergateBody g) id s

/-- R178: `WRSYNC g`. -/
def wrsyncOp (c : Config) (g : Bool) (s : State) : State := externalOp c (wrsyncBody g) id s

/-- R179: `STPEN g`. -/
def stpenOp (c : Config) (g : Bool) (s : State) : State := externalOp c (stpenBody g) id s

/-- R180: `STPPH d, code`. -/
def stpphOp (c : Config) (d : DriveId) (code : BitVec 4) (s : State) : State := externalOp c (stpphBody c d code) id s

/-- R181: `MOTOR d, cmd`; command 3 is an illegal word (R70). -/
def motorOp (c : Config) (d : DriveId) (cmd : BitVec 2) (s : State) : State :=
  match spindleCommand cmd with
  | some k => externalOp c (motorBody c d k) id s
  | none => raise (.illegalOp (encode (.motor d cmd))) s

/-- R182: `RDDATA`. -/
def rddataOp (c : Config) (s : State) : State := externalOp c rddataBody id s

/-- R183: `RDSTAT`. -/
def rdstatOp (c : Config) (s : State) : State := externalOp c rdstatBody id s

/-- R173. -/
def execWrdata (b : Byte) (s : State) : StepResult := .next (wrdataOp Config.machine b s)

/-- R174. -/
def execDrvsel (d : DriveId) (s : State) : StepResult := .next (drvselOp Config.machine d s)

/-- R175. -/
def execSidesel (side : Side) (s : State) : StepResult := .next (sideselOp Config.machine side s)

/-- R176. -/
def execWrgate (g : Bool) (s : State) : StepResult := .next (wrgateOp Config.machine g s)

/-- R177. -/
def execErgate (g : Bool) (s : State) : StepResult := .next (ergateOp Config.machine g s)

/-- R178. -/
def execWrsync (g : Bool) (s : State) : StepResult := .next (wrsyncOp Config.machine g s)

/-- R179. -/
def execStpen (g : Bool) (s : State) : StepResult := .next (stpenOp Config.machine g s)

/-- R180. -/
def execStpph (d : DriveId) (code : BitVec 4) (s : State) : StepResult := .next (stpphOp Config.machine d code s)

/-- R181. -/
def execMotor (d : DriveId) (cmd : BitVec 2) (s : State) : StepResult := .next (motorOp Config.machine d cmd s)

/-- R182. -/
def execRddata (s : State) : StepResult := .next (rddataOp Config.machine s)

/-- R183. -/
def execRdstat (s : State) : StepResult := .next (rdstatOp Config.machine s)

end Sys2Proof.Machine
end

