-- ==== Sys2Proof/Machine/ResetOp.lean ====
section
/-! DEFINITION. `RESET` (spec/70_reset_and_hazards.md R240, R241). -/

namespace Sys2Proof.Machine

/-- R240, R241: a drive after `RESET`; cylinder, write-protect and medium are left alone. -/
def resetDrive (d : Drive) : Drive := { d with side := 0, motorEnabled := false, phase := 0 }

/-- R240, R241: `RESET` at `T_reset`, the real time it is issued at. It works in a faulted state, commits nothing and does
not touch the media; the wrapper of R170 is not around it (log 10). -/
def resetOp (c : Config) (s : State) : State :=
  { s with
    cur := .reset c
    chk := .reset c
    nextEdge := none
    drives := { d0 := resetDrive s.drives.d0, d1 := resetDrive s.drives.d1 }
    stepperEnable := false
    spindleCtl := { d0 := .stop, d1 := .stop }
    lastNow := s.now
    fault := none
    events := [] }

/-- R240. -/
def execReset (s : State) : StepResult := .next (resetOp Config.machine s)

end Sys2Proof.Machine
end

