-- ==== Sys2Proof/Machine/Scheduler.lean ====
section
/-! DEFINITION. The scheduler operations `TIMER` and `SPEC` (spec/46_frontend_ops.md R184, R185). -/

namespace Sys2Proof.Machine

/-- R184: `TIMER`; its body is empty, all its work is in the wrapper. -/
def timerOp (c : Config) (s : State) : State := externalOp c id id s

/-- R185: the tail of `SPEC n`, `RUN(limit = now + n * P)`. -/
def specTail (c : Config) (n : Byte) (s : State) : State := runEngine c (s.now + n.toNat * c.period) s.now s

/-- R185: `SPEC n`. -/
def specOp (c : Config) (n : Byte) (s : State) : State := externalOp c id (specTail c n) s

/-- R184. -/
def execTimer (s : State) : StepResult := .next (timerOp Config.machine s)

/-- R185. -/
def execSpec (n : Byte) (s : State) : StepResult := .next (specOp Config.machine n s)

end Sys2Proof.Machine
end

