-- ==== Sys2Proof/Machine/Synchronisation.lean ====
section
/-! DEFINITION. `COMMIT`, `CHECKPOINT`, `ROLLBACK`, `SYNC` (spec/43_write_path.md R124, spec/45_checkpoint_rollback.md R156
to R158). As micro-operations they run inside an external operation whose `now` is `last_now` (log 5). -/

namespace Sys2Proof.Machine

/-- R124: `COMMIT`. It "is called only when `cur` is settled" (R124, R127), and no rule says what it does elsewhere; issued on its
own it commits whatever the live copy holds, speculative cells too, which is the model's choice (log 17). -/
def execCommit (s : State) : StepResult := microOp commitWrites s

/-- R156: the precondition of `CHECKPOINT`. -/
def checkpointReady (s : State) : Bool := s.cur.state == .idle || timeAtOrBefore s.cur.time s.lastNow

/-- R156: `CHECKPOINT(now)`. -/
def execCheckpoint (s : State) : StepResult :=
  guardedOp (checkpointReady s) .checkpointPrecondition (checkpointEngine Config.machine s.lastNow) s

/-- R157: `ROLLBACK`. -/
def execRollback (s : State) : StepResult := microOp rollbackEngine s

/-- R158: `SYNC(now)`. -/
def execSync (s : State) : StepResult := microOp (syncEngine Config.machine s.lastNow) s

end Sys2Proof.Machine
end

