-- ==== Sys2Proof/Machine/Dispatch.lean ====
section
/-! DEFINITION. The meaning of every instruction: one arm per constructor of `Instr`. -/

namespace Sys2Proof.Machine

def exec (i : Instr) (s : State) : Host.Outcome State Fault Refusal :=
  match i with
  | .wrdata b => Sys2Proof.Machine.execWrdata b s
  | .drvsel d => Sys2Proof.Machine.execDrvsel d s
  | .sidesel side => Sys2Proof.Machine.execSidesel side s
  | .wrgate g => Sys2Proof.Machine.execWrgate g s
  | .ergate g => Sys2Proof.Machine.execErgate g s
  | .wrsync g => Sys2Proof.Machine.execWrsync g s
  | .stpen g => Sys2Proof.Machine.execStpen g s
  | .stpph d code => Sys2Proof.Machine.execStpph d code s
  | .motor d cmd => Sys2Proof.Machine.execMotor d cmd s
  | .rddata => Sys2Proof.Machine.execRddata s
  | .rdstat => Sys2Proof.Machine.execRdstat s
  | .timer => Sys2Proof.Machine.execTimer s
  | .spec n => Sys2Proof.Machine.execSpec n s
  | .lookup => Sys2Proof.Machine.execLookup s
  | .refresh => Sys2Proof.Machine.execRefresh s
  | .step => Sys2Proof.Machine.execStep s
  | .fire => Sys2Proof.Machine.execFire s
  | .run => Sys2Proof.Machine.execRun s
  | .start => Sys2Proof.Machine.execStart s
  | .stop => Sys2Proof.Machine.execStop s
  | .commit => Sys2Proof.Machine.execCommit s
  | .checkpoint => Sys2Proof.Machine.execCheckpoint s
  | .rollback => Sys2Proof.Machine.execRollback s
  | .sync => Sys2Proof.Machine.execSync s
  | .reset => Sys2Proof.Machine.execReset s

end Sys2Proof.Machine
end

