-- ==== Sys2Proof/Machine/Issue.lean ====
section
/-! DEFINITION. Issuing an operation: taking the oldest entry of the queue, and what its word and its agent make of it
(spec/30_encoding.md R65, R70, spec/60_exceptions.md R224). -/

namespace Sys2Proof.Machine

/-- What an issued word comes to. -/
inductive Issued where
  /-- An operation to execute. -/
  | operation (i : Instr)
  /-- R70: a word the outside may not issue. -/
  | illegal
  /-- A word the engine itself never issues, since it is no operation (log 7). -/
  | noMicroOperation
  deriving DecidableEq, Repr

/-- R70, R224: the outside (host, scheduler, reset signal) issues legal words only; the engine issues operations. R227 gives
the engine class `I` alone; that an entry of its agent with a word of class `H`, `S` or `X` is executed like the same word from
outside is the model's choice (log 7). -/
def classify (q : Issue) : Issued :=
  match decode q.word with
  | .ok i => if q.agent = .engine || i.opClass != .internal then .operation i else .illegal
  | .error _ => if q.agent = .engine then .noMicroOperation else .illegal

/-- The state in which an issued operation runs: the entry is off the queue, its operands are on the input ports, and the
result port is empty. -/
def loadIssue (q : Issue) (rest : List Issue) (s : State) : State :=
  { s with queue := rest, now := q.now, limit := q.limit, index := q.index, result := none }

/-- The agent that issues an operation (R66, R227); the reset signal is an outside agent. -/
def issuingAgent (i : Instr) : Agent :=
  match i.opClass with
  | .internal => .engine
  | .scheduler => .scheduler
  | .host | .resetSignal => .host

/-- A word issued now, by the agent its class names: at the time of the last operation, which no later one precedes (R217),
with the limit `RUN` has outside `SPEC` (R139). -/
def issueWord (s : State) (w : Word) : Issue :=
  { agent := match decode w with
      | .ok i => issuingAgent i
      | .error _ => .host
    now := s.lastNow
    word := w
    limit := s.lastNow
    index := s.index }

end Sys2Proof.Machine
end

