-- ==== Sys2Proof/Machine/Step.lean ====
section
/-! DEFINITION. One step of the machine: one operation, from its issue to its end (spec/20_memory.md R48, R54). -/

namespace Sys2Proof.Machine

/-- R48, R54, R170: the oldest issued operation is executed whole. With none issued nothing happens (log 11). -/
def step (s : State) : Host.Outcome State Fault Refusal :=
  match s.queue with
  | [] => .next s
  | q :: rest =>
    match classify q with
    | .operation i => exec i (loadIssue q rest s)
    | .illegal => .next (raise (.illegalOp q.word) (loadIssue q rest s))
    | .noMicroOperation => .refused (.noMicroOperation q.word)

/-- The instruction of the table's word stored where `step` takes its next one: at the head of the queue. -/
def State.withFetchWord (s : State) (nbits w : Nat) : State :=
  { s with queue := issueWord s (BitVec.ofNat 16 (tableWord nbits w)) :: s.queue }

end Sys2Proof.Machine
end

