-- ==== Sys2Proof/Safety.lean ====
section
/-! DEFINITION. What claims are stated in: the invariants of spec/10_state.md R21, R22, R18, R95 and R172 as properties of a
state, a machine that is ready for an external operation, and what that operation leaves behind. -/

namespace Sys2Proof.Machine

/-- What every live state of the machine satisfies, the live copy and the checkpoint alike. -/
structure LiveInv (c : Config) (x : LiveState) : Prop where
  /-- R12, R22: "`time` is `never` iff `state == Idle`". -/
  time_never_iff_idle : x.time = none ↔ x.state = .idle
  /-- R141: `RunningSyncpoint` is transient. -/
  not_at_syncpoint : x.state ≠ .runningSyncpoint
  /-- R13: the only value ever stored is `some RunningSyncpoint`. -/
  deferred_value : x.nextState = none ∨ x.nextState = some .runningSyncpoint
  /-- R135, R136: nothing is deferred in `Idle`. -/
  idle_defers_nothing : x.state = .idle → x.nextState = none
  /-- R102, R103: a set change flag is waiting for a syncpoint. -/
  change_is_deferred : x.changed.any = true → x.nextState = some .runningSyncpoint
  /-- R95: the two bit counters are equal. -/
  bit_counters_equal : x.syncBitCounter = x.bitCounter
  /-- R18: the codec pair is the lookup of the latches. -/
  codec_input : x.gcrInput = codecInput x
  codec_output : x.gcrOutput = c.gcrRom x.gcrInput
  /-- R21. -/
  position_is_length : x.writePosition = x.writeBuffer.length
  buffer_rising : x.writeBuffer.Pairwise (· < ·)
  buffer_in_interval : ∀ t ∈ x.writeBuffer, ∃ w n, x.writeStartTime = some w ∧ x.time = some n ∧ w ≤ t ∧ t < n
  interval_open_iff_writing : x.writeStartTime = none ↔ (x.writeGate = false ∨ x.state = .idle)
  /-- R124: the interval ends at the boundary or before it. -/
  interval_ordered : ∀ w n, x.writeStartTime = some w → x.time = some n → w ≤ n

/-- R170: every mutation of a latch is followed by a checkpoint, so the two copies agree on the latches of R16 and R17. -/
def sameLatches (x y : LiveState) : Prop :=
  x.drive = y.drive ∧ x.side = y.side ∧ x.writeGate = y.writeGate ∧ x.writeData = y.writeData ∧
    x.writeSyncGate = y.writeSyncGate ∧ x.eraseGate = y.eraseGate

/-- What holds of the whole controller while no violation has been taken. -/
structure ControllerInv (c : Config) (s : State) : Prop where
  live : LiveInv c s.cur
  saved : LiveInv c s.chk
  /-- R156: the checkpoint is taken of a settled state. -/
  saved_defers_nothing : s.chk.nextState = none
  /-- R23, R156: the checkpoint is never ahead of real time. -/
  saved_not_ahead : ∀ t, s.chk.time = some t → t ≤ s.lastNow
  latches_agree : sameLatches s.cur s.chk
  /-- R172. -/
  side_mirror : (s.drv s.cur.drive).side = s.cur.side

/-- The invariant of the machine: the media in canonical form, the cylinders in `0..MAX_CYL` (R25, R201), and, while no
violation has been taken, the controller's own. -/
structure Inv (c : Config) (s : State) : Prop where
  medium_wf : Medium.wf s.medium
  cylinders_in_range : ∀ d, (s.drv d).cylinder ≤ c.maxCylinder
  controller : s.fault = none → ControllerInv c s

/-- R139, R158: the state in which `SYNC(now)` commits: speculation discarded, the stepping loop run up to `now`. -/
def beforeCommit (now : Nat) (s : State) : State :=
  runEngine Config.machine now now (discardSpeculation now s)

/-- R124, R43: a commit in the state `r` takes no violation: nothing is to be committed, or the selected drive has a medium. -/
def canCommit (r : State) : Prop :=
  ∀ w t, r.cur.writeStartTime = some w → r.cur.time = some t → w < t → (r.drv r.cur.drive).medium = true

/-- A state in which an external operation executes normally: the invariant, no violation (R29), the time contract (R217),
and a `SYNC` that commits nothing to a drive without a medium (R43). -/
structure Ready (s : State) : Prop where
  inv : Inv Config.machine s
  no_violation : s.fault = none
  time_order : s.lastNow ≤ s.now
  can_commit : canCommit (beforeCommit s.now { s with lastNow := s.now })

/-- R170: the state after `last_now <- now` and `SYNC(now)`, in which the body of an external operation runs. -/
def synced (s : State) : State := syncEngine Config.machine s.now { s with lastNow := s.now }

/-- R24: the cached edge that belongs to a live state on the drives and media of `s`. -/
def edgeFor (s : State) (x : LiveState) : Time :=
  match x.time with
  | some t => fluxNext s { drive := x.drive, cylinder := (s.drv x.drive).cylinder, side := x.side } t
  | none => none

/-- `s` with the live copy and the checkpoint both `x` and the cached edge that belongs to it: what the checkpoint of an
external operation leaves (R156, R170). -/
def checkpointed (s : State) (x : LiveState) : State := { s with cur := x, chk := x, nextEdge := edgeFor s x }

/-- R24, R53: the cached edge is right while the engine reads. -/
def edgeValid (s : State) : Prop :=
  ∀ t, s.cur.time = some t → s.cur.writeGate = false → s.nextEdge = fluxNext s s.track t

/-- R66: the operations of the classes `H` and `S`, each in the wrapper of R170. -/
def isExternal (i : Instr) : Bool := i.opClass == .host || i.opClass == .scheduler

/-- R205: the same state with other write-protect inputs. -/
def withWriteProtect (p : PerDrive Bool) (s : State) : State :=
  { s with drives := { d0 := { s.drives.d0 with writeProtect := p.d0 }, d1 := { s.drives.d1 with writeProtect := p.d1 } } }

/-- The outcome with `f` applied to its state, where there is one. -/
def mapNext (f : State → State) : StepResult → StepResult
  | .next s => .next (f s)
  | .fault r => .fault r
  | .refused r => .refused r

/-- R124: the cells of the medium that a commit in state `r` stores to: the selected track over
`[write_start_time, time)`. -/
def inCommitInterval (r : State) (tr : Track) (x : Nat) : Prop :=
  tr = r.track ∧ ∃ w t, r.cur.writeStartTime = some w ∧ r.cur.time = some t ∧ w ≤ x ∧ x < t

/-- R219: the time an event carries; of a commit, the end of its interval. -/
def eventTime : Event → Nat
  | .lbrdy t _ => t
  | .syn t _ => t
  | .brdyPulse t => t
  | .syncEdge t _ => t
  | .errorEdge t _ => t
  | .commit _ _ stop _ => stop

/-- R137: the engine runs exactly when a motor is on, in the live copy and in the checkpoint. -/
def engineFollowsMotors (s : State) : Prop :=
  (s.cur.state = .idle ↔ anyMotor s = false) ∧ (s.chk.state = .idle ↔ anyMotor s = false)

/-- R121: the ten code bits of a byte, high nibble first, for the write latches of a live state. -/
def byteCode (c : Config) (x : LiveState) : BitVec 10 :=
  (c.gcrRom (1#1 ++ BitVec.ofBool x.writeSyncGate ++ BitVec.ofBool x.eraseGate ++ 0#4 ++
      x.writeData.extractLsb' 4 4)).extractLsb' 0 5 ++
    (c.gcrRom (1#1 ++ BitVec.ofBool x.writeSyncGate ++ BitVec.ofBool x.eraseGate ++ 1#4 ++
      x.writeData.extractLsb' 0 4)).extractLsb' 0 5

end Sys2Proof.Machine
end

