-- ==== Sys2Proof/Certificates/Slice0/Obligations.lean ====
section
/-! DEFINITION. The statements for the provers. `Config.machine` is opaque, so each holds for whatever the open parameters of
spec/00_scope.md R5 are. Two conventions are the model's choice, not the spec's: the `now` of a micro-operation is `last_now`
(log 5), and its other operands and its result are ports (log 4). -/

open Sys2Proof Sys2Proof.Machine

/-! ## Codec -/

/-- R80: `LOOKUP` completes for every input, returns the table's entry and writes no state. -/
def Obligations.LookupReturnsTableEntry : Prop :=
  ∀ s : State, s.fault = none →
    exec .lookup s = .next { s with result := some (Config.machine.gcrRom s.index) }

/-- R83: `REFRESH` sets the codec pair to the lookup of the latches, changes nothing else, and twice is the same as once. -/
def Obligations.RefreshRecomputesTheCodecPair : Prop :=
  ∀ s : State, s.fault = none →
    ∃ t, exec .refresh s = .next t ∧
      t = { s with cur :=
        { s.cur with gcrInput := codecInput s.cur, gcrOutput := Config.machine.gcrRom (codecInput s.cur) } } ∧
      exec .refresh t = .next t

/-- R62: the fields of the codec input in read mode and in write mode, as one number each. -/
def Obligations.CodecInputFormats : Prop :=
  ∀ x : LiveState,
    (x.writeGate = false → (codecInput x).toNat = x.shiftRegister.toNat) ∧
    (x.writeGate = true →
      (codecInput x).toNat =
        1024 + 512 * x.writeSyncGate.toNat + 256 * x.eraseGate.toNat +
          (if 5 ≤ x.bitCounter.val then 16 + x.writeData.toNat % 16 else x.writeData.toNat / 16))

/-! ## One bit cell -/

/-- R111: in read mode `STEP` shifts in `TB` exactly when the selected track holds a transition in `[t, t + P)`, advances
`time` by one period and keeps the cached edge right. -/
def Obligations.StepReadsItsCell : Prop :=
  ∀ (s : State) (t : Nat), s.fault = none → s.cur.state = .running → s.cur.nextState = none → s.cur.time = some t →
    s.cur.writeGate = false → Medium.wf s.medium → s.nextEdge = fluxNext s s.track t →
    ∃ (u : State) (b : Bool), exec .step s = .next u ∧
      (b = Config.machine.transitionBit ↔
        (s.drv s.cur.drive).medium = true ∧
          ∃ x, mediumHas s.medium s.track x = true ∧ t ≤ x ∧ x < t + Config.machine.period) ∧
      u.cur.shiftRegister.toNat = (2 * s.cur.shiftRegister.toNat + b.toNat) % 1024 ∧
      u.cur.time = some (t + Config.machine.period) ∧
      u.nextEdge = fluxNext s s.track (t + Config.machine.period)

/-- R120, R122: in write mode `STEP` emits bit `4 - (bit_counter mod 5)` of the codec output, queues the start of the cell
exactly when the bit is `TB`, and shifts the bit in. -/
def Obligations.StepWritesItsCell : Prop :=
  ∀ (s : State) (t : Nat), s.fault = none → s.cur.state = .running → s.cur.nextState = none → s.cur.time = some t →
    s.cur.writeGate = true →
    ∃ (u : State) (b : Bool), exec .step s = .next u ∧
      b = s.cur.gcrOutput.getLsbD (4 - s.cur.bitCounter.val % 5) ∧
      u.cur.writeBuffer = (if b = Config.machine.transitionBit then s.cur.writeBuffer ++ [t] else s.cur.writeBuffer) ∧
      u.cur.writePosition = (if b = Config.machine.transitionBit then s.cur.writePosition + 1 else s.cur.writePosition) ∧
      u.cur.shiftRegister.toNat = (2 * s.cur.shiftRegister.toNat + b.toNat) % 1024 ∧
      u.cur.time = some (t + Config.machine.period) ∧ u.nextEdge = s.nextEdge

/-- R93 to R96: the three counters after a `STEP`. -/
def Obligations.StepCounts : Prop :=
  ∀ (s : State) (t : Nat), s.fault = none → s.cur.state = .running → s.cur.nextState = none → s.cur.time = some t →
    ∃ u, exec .step s = .next u ∧
      (u.cur.shiftRegister = 0x3FF#10 ∧ s.cur.writeGate = false →
        u.cur.bitCounter.val = 0 ∧ u.cur.syncBitCounter.val = 0 ∧ u.cur.syncByteCounter.val = 0) ∧
      (¬ (u.cur.shiftRegister = 0x3FF#10 ∧ s.cur.writeGate = false) →
        u.cur.bitCounter.val = (s.cur.bitCounter.val + 1) % 10 ∧
        u.cur.syncBitCounter.val = (s.cur.syncBitCounter.val + 1) % 10 ∧
        u.cur.syncByteCounter.val =
          if s.cur.syncBitCounter.val = 9 then (s.cur.syncByteCounter.val + 1) % 16 else s.cur.syncByteCounter.val)

/-- R97 to R101: the five status flags after a `STEP`. -/
def Obligations.StepSetsTheStatusFlags : Prop :=
  ∀ (s : State) (t : Nat), s.fault = none → s.cur.state = .running → s.cur.nextState = none → s.cur.time = some t →
    ∃ u, exec .step s = .next u ∧
      (u.cur.flags.syncDetected = true ↔ u.cur.shiftRegister = 0x3FF#10 ∧ s.cur.writeGate = false) ∧
      (u.cur.flags.byteReady = true ↔
        ¬ (u.cur.shiftRegister = 0x3FF#10 ∧ s.cur.writeGate = false) ∧ s.cur.bitCounter.val = 9) ∧
      u.cur.flags.latchedByteReady = u.cur.flags.byteReady ∧
      (u.cur.flags.synMarker = true ↔ u.cur.syncByteCounter.val = 15) ∧
      u.cur.flags.gcrError = Config.machine.gcrError u.cur.gcrInput u.cur.gcrOutput ∧
      u.cur.gcrInput = codecInput u.cur ∧ u.cur.gcrOutput = Config.machine.gcrRom u.cur.gcrInput

/-- R102, R103: a change flag becomes 1 when its flag gets a different value and otherwise keeps its own; any change flag
defers a syncpoint at the end of the cell, and `STEP` never emits an event. -/
def Obligations.StepDefersChangedFlags : Prop :=
  ∀ (s : State) (t : Nat), s.fault = none → s.cur.state = .running → s.cur.nextState = none → s.cur.time = some t →
    ∃ u, exec .step s = .next u ∧ u.events = s.events ∧ u.cur.state = .running ∧
      u.cur.time = some (t + Config.machine.period) ∧
      (u.cur.changed.byteReady = true ↔
        s.cur.changed.byteReady = true ∨ s.cur.flags.byteReady ≠ u.cur.flags.byteReady) ∧
      (u.cur.changed.latchedByteReady = true ↔
        s.cur.changed.latchedByteReady = true ∨ s.cur.flags.latchedByteReady ≠ u.cur.flags.latchedByteReady) ∧
      (u.cur.changed.syncDetected = true ↔
        s.cur.changed.syncDetected = true ∨ s.cur.flags.syncDetected ≠ u.cur.flags.syncDetected) ∧
      (u.cur.changed.synMarker = true ↔
        s.cur.changed.synMarker = true ∨ s.cur.flags.synMarker ≠ u.cur.flags.synMarker) ∧
      (u.cur.changed.gcrError = true ↔
        s.cur.changed.gcrError = true ∨ s.cur.flags.gcrError ≠ u.cur.flags.gcrError) ∧
      u.cur.nextState = (if u.cur.changed.any then some .runningSyncpoint else none)

/-- The frame of `STEP`: what a bit cell leaves unchanged. -/
def Obligations.StepFrame : Prop :=
  ∀ s u : State, exec .step s = .next u →
    u.chk = s.chk ∧ u.drives = s.drives ∧ u.stepperEnable = s.stepperEnable ∧ u.spindleCtl = s.spindleCtl ∧
    u.lastNow = s.lastNow ∧ u.fault = s.fault ∧ u.events = s.events ∧
    (∀ tr x, mediumHas u.medium tr x = mediumHas s.medium tr x) ∧
    u.queue = s.queue ∧ u.now = s.now ∧ u.limit = s.limit ∧ u.index = s.index ∧ u.result = s.result ∧
    u.cur.drive = s.cur.drive ∧ u.cur.side = s.cur.side ∧ u.cur.writeGate = s.cur.writeGate ∧
    u.cur.writeData = s.cur.writeData ∧ u.cur.writeSyncGate = s.cur.writeSyncGate ∧ u.cur.eraseGate = s.cur.eraseGate ∧
    u.cur.writeStartTime = s.cur.writeStartTime ∧
    (s.cur.writeGate = false → u.cur.writeBuffer = s.cur.writeBuffer ∧ u.cur.writePosition = s.cur.writePosition) ∧
    (s.cur.writeGate = true → u.nextEdge = s.nextEdge)

/-- R94 to R97, R100, R139: `f j` is the machine `j` cells after a boundary `t` with the counters that a mark leaves, each cell
processed by `RUN` when it ends and none of them a mark. After `k` cells the bit counters are `k mod 10` and the byte counter
`(k / 10) mod 16`; `byte_ready` stands after every tenth cell; `syn_marker` rises after 150 cells and falls after 160. -/
def Obligations.FramingCountersAfterAMark : Prop :=
  ∀ (k t : Nat) (f : Nat → State), (f 0).fault = none → (f 0).cur.state = .running → (f 0).cur.nextState = none →
    (f 0).cur.time = some t → (f 0).cur.bitCounter = 0 → (f 0).cur.syncBitCounter = 0 → (f 0).cur.syncByteCounter = 0 →
    (∀ j, j < k →
      exec .run { f j with
        lastNow := t + (j + 1) * Config.machine.period, limit := t + (j + 1) * Config.machine.period } = .next (f (j + 1)) ∧
      ¬ ((f (j + 1)).cur.shiftRegister = 0x3FF#10 ∧ (f (j + 1)).cur.writeGate = false)) →
    (f k).cur.time = some (t + k * Config.machine.period) ∧
    (f k).cur.bitCounter.val = k % 10 ∧ (f k).cur.syncBitCounter.val = k % 10 ∧
    (f k).cur.syncByteCounter.val = (k / 10) % 16 ∧
    (0 < k → ((f k).cur.flags.byteReady = true ↔ k % 10 = 0)) ∧
    (0 < k → k < 300 → ((f k).cur.flags.synMarker = true ↔ 150 ≤ k ∧ k < 160))

/-- R120, R121, R122: `RUN` over exactly ten cells in write mode, from `bit_counter` = 0, sends the ten code bits of the
latched byte, high nibble first, and queues the start of each cell whose bit is `TB`. -/
def Obligations.TenCellsSendOneByte : Prop :=
  ∀ (s : State) (t : Nat), s.fault = none → s.cur.state = .running → s.cur.nextState = none → s.cur.time = some t →
    s.cur.writeGate = true → s.cur.bitCounter.val = 0 → s.cur.gcrOutput = Config.machine.gcrRom (codecInput s.cur) →
    s.limit = s.lastNow → t + 10 * Config.machine.period ≤ s.lastNow → s.lastNow < t + 11 * Config.machine.period →
    ∃ u, exec .run s = .next u ∧ u.cur.time = some (t + 10 * Config.machine.period) ∧ u.cur.bitCounter.val = 0 ∧
      u.cur.shiftRegister = byteCode Config.machine s.cur ∧
      u.cur.writeBuffer = s.cur.writeBuffer ++
        ((List.range 10).filter
          (fun k => (byteCode Config.machine s.cur).getLsbD (9 - k) == Config.machine.transitionBit)).map
          (fun k => t + k * Config.machine.period)

/-! ## Engine control -/

/-- R8, R90, R135, R136, R140, R156: a micro-operation issued outside the precondition its rule states stops by name (the
model's choice, log 6). -/
def Obligations.MicroOperationsStopOutsideTheirPreconditions : Prop :=
  ∀ s : State, s.fault = none →
    (¬ (s.cur.state = .running ∧ s.cur.nextState = none ∧ s.cur.time ≠ none) →
      exec .step s = .fault .stepPrecondition) ∧
    (¬ (s.cur.state = .runningSyncpoint ∧ s.cur.time ≠ none) →
      exec .fire s = .fault .firePrecondition) ∧
    (s.cur.state ≠ .idle → exec .start s = .fault .startPrecondition) ∧
    (¬ (s.cur.state = .running ∧ settled Config.machine s.lastNow s.cur = true) →
      exec .stop s = .fault .stopPrecondition) ∧
    (¬ (s.cur.state = .idle ∨ ∃ t, s.cur.time = some t ∧ t ≤ s.lastNow) →
      exec .checkpoint s = .fault .checkpointPrecondition)

/-- R140, R221: `FIRE` delivers the pending events in their fixed order, clears the change flags and resumes; nothing else
changes. -/
def Obligations.FireDeliversThePendingEvents : Prop :=
  ∀ (s : State) (t : Nat), s.fault = none → s.cur.state = .runningSyncpoint → s.cur.time = some t →
    exec .fire s = .next
      { s with
        events := s.events ++
          ((if s.cur.changed.latchedByteReady then [.lbrdy t s.cur.flags.latchedByteReady] else []) ++
           (if s.cur.changed.synMarker then [.syn t s.cur.flags.synMarker] else []) ++
           (if s.cur.changed.byteReady && s.cur.flags.byteReady then [.brdyPulse t] else []) ++
           (if s.cur.changed.syncDetected then [.syncEdge t s.cur.flags.syncDetected] else []) ++
           (if s.cur.changed.gcrError then [.errorEdge t s.cur.flags.gcrError] else []))
        cur := { s.cur with changed := .clear, state := .running } }

/-- R139, R13: the stepping loop, pass by pass, in terms of `STEP` and `FIRE` themselves: for every state of the engine with a
`time`, with nothing deferred, with the syncpoint of R13 deferred, or with a return to `Running` deferred, which R13 rules out
but R139's loop would take. That a limit which R139 does not give `RUN` is run to all the same is the model's choice (log 19). -/
def Obligations.RunIsItsLoop : Prop :=
  ∀ s : State, s.fault = none →
    (s.cur.state = .idle → exec .run s = .next s) ∧
    (∀ t, s.cur.state ≠ .idle → s.cur.nextState ≠ none → s.cur.time = some t → s.lastNow < t →
      exec .run s = .next s) ∧
    (∀ t, s.cur.state ≠ .idle → s.cur.nextState = some .runningSyncpoint → s.cur.time = some t → t ≤ s.lastNow →
      ∃ u, exec .fire { s with cur := { s.cur with state := .runningSyncpoint, nextState := none } } = .next u ∧
        exec .run s = exec .run u) ∧
    (∀ t, s.cur.state ≠ .idle → s.cur.nextState = some .running → s.cur.time = some t → t ≤ s.lastNow →
      exec .run s = exec .run { s with cur := { s.cur with state := .running, nextState := none } }) ∧
    (∀ t, s.cur.state = .runningSyncpoint → s.cur.nextState = none → s.cur.time = some t →
      ∃ u, exec .fire s = .next u ∧ exec .run s = exec .run u) ∧
    (∀ t, s.cur.state = .running → s.cur.nextState = none → s.cur.time = some t → s.limit < t + Config.machine.period →
      exec .run s = .next s) ∧
    (∀ t, s.cur.state = .running → s.cur.nextState = none → s.cur.time = some t → t + Config.machine.period ≤ s.limit →
      ∃ u, exec .step s = .next u ∧ exec .run s = exec .run u)

/-- R139: after `RUN` with `limit = now` the live copy is settled, provided its boundary was not ahead of `now`. -/
def Obligations.RunSettlesTheEngine : Prop :=
  ∀ s : State, s.fault = none → LiveInv Config.machine s.cur → s.limit = s.lastNow →
    (∀ t, s.cur.time = some t → t ≤ s.lastNow) →
    ∃ u, exec .run s = .next u ∧ LiveInv Config.machine u.cur ∧
      (u.cur.state = .idle ∨
        (u.cur.state = .running ∧ u.cur.nextState = none ∧ u.cur.changed = .clear ∧
          ∃ t, u.cur.time = some t ∧ t ≤ s.lastNow ∧ s.lastNow < t + Config.machine.period))

/-- The frame of `RUN` and `FIRE`: the sequencing state, what `STEP` writes, the cached edge and the events, nothing else; a
limit which R139 does not give `RUN` included (log 19). -/
def Obligations.RunAndFireFrame : Prop :=
  ∀ s u : State, exec .run s = .next u ∨ exec .fire s = .next u →
    u.chk = s.chk ∧ u.drives = s.drives ∧ u.stepperEnable = s.stepperEnable ∧ u.spindleCtl = s.spindleCtl ∧
    u.lastNow = s.lastNow ∧ u.fault = s.fault ∧ (∀ tr x, mediumHas u.medium tr x = mediumHas s.medium tr x) ∧
    u.queue = s.queue ∧ u.now = s.now ∧ u.limit = s.limit ∧ u.index = s.index ∧ u.result = s.result ∧
    sameLatches u.cur s.cur ∧ u.cur.writeStartTime = s.cur.writeStartTime

/-- R135: `START` at `now` begins the first cell at `now`, clears the three counters and nothing but them, and opens the write
interval in write mode. -/
def Obligations.StartBeginsTheFirstCell : Prop :=
  ∀ s : State, s.fault = none → s.cur.state = .idle →
    ∃ u x, exec .start s = .next u ∧ u = { s with cur := x } ∧
      x = { s.cur with
        state := .running, time := some s.lastNow, nextState := none
        bitCounter := 0, syncBitCounter := 0, syncByteCounter := 0
        writeStartTime := if s.cur.writeGate then some s.lastNow else s.cur.writeStartTime
        gcrInput := x.gcrInput, gcrOutput := x.gcrOutput } ∧
      x.gcrInput = codecInput x ∧ x.gcrOutput = Config.machine.gcrRom x.gcrInput

/-- R136: `STOP` commits what is queued, forgets the interval and leaves the engine `Idle`; every other field keeps its
value. -/
def Obligations.StopFlushesAndHalts : Prop :=
  ∀ s : State, s.fault = none → LiveInv Config.machine s.cur → s.cur.state = .running →
    settled Config.machine s.lastNow s.cur = true → canCommit s →
    ∃ u, exec .stop s = .next u ∧
      u = { s with
        cur := { s.cur with
          writeStartTime := none, writeBuffer := [], writePosition := 0, state := .idle, time := none, nextState := none }
        events := u.events, medium := u.medium } ∧
      (∀ w t, s.cur.writeStartTime = some w → s.cur.time = some t → w < t →
        u.events = s.events ++ [.commit s.track w t s.cur.writeBuffer] ∧
        u.medium = mediumReplace s.medium s.track w t s.cur.writeBuffer) ∧
      (s.cur.writeStartTime = none ∨ s.cur.writeStartTime = s.cur.time → u.events = s.events ∧ u.medium = s.medium)

/-! ## Commit, checkpoint, rollback, sync -/

/-- R124, R43: `COMMIT` over a non-empty interval: in `[write_start_time, time)` of the selected track the medium holds the
queued transitions and nothing else, every other instant of every track reads as before, one event is emitted, and the next
interval starts where this one ended. That a live copy which is not settled is committed too is the model's choice (log 17). -/
def Obligations.CommitReplacesTheInterval : Prop :=
  ∀ (s : State) (w t : Nat), s.fault = none → s.cur.writeStartTime = some w → s.cur.time = some t → w < t →
    (∀ x ∈ s.cur.writeBuffer, w ≤ x ∧ x < t) → (s.drv s.cur.drive).medium = true →
    ∃ u, exec .commit s = .next u ∧
      u = { s with
        cur := { s.cur with writeStartTime := some t, writeBuffer := [], writePosition := 0 }
        events := s.events ++ [.commit s.track w t s.cur.writeBuffer]
        medium := u.medium } ∧
      (∀ x, w ≤ x → x < t → (mediumHas u.medium s.track x = true ↔ x ∈ s.cur.writeBuffer)) ∧
      (∀ tr x, ¬ inCommitInterval s tr x → mediumHas u.medium tr x = mediumHas s.medium tr x)

/-- R124, R43, R215, R216, R170: with no interval open, or an empty one, `COMMIT` does nothing; over a non-empty interval to a
drive without a medium it records `CommitNoMedium(d)` and changes nothing else. An external operation whose `SYNC` comes to such
a commit is abandoned there: the state is the one that `SYNC` commits in, with the violation recorded, and neither the body nor
the checkpoint runs. `COMMIT` issued on its own with a live copy that is not settled: log 17. -/
def Obligations.CommitWithoutAnIntervalOrAMedium : Prop :=
  ∀ s : State,
    (s.cur.writeStartTime = none ∨ s.cur.writeStartTime = s.cur.time → exec .commit s = .next s) ∧
    (∀ w t : Nat, s.fault = none → s.cur.writeStartTime = some w → s.cur.time = some t → w < t →
      (s.drv s.cur.drive).medium = false →
      exec .commit s = .next { s with fault := some (.commitNoMedium s.cur.drive) }) ∧
    (∀ (i : Instr) (w t : Nat), isExternal i = true → i.wellFormed = true → Inv Config.machine s → s.fault = none →
      s.lastNow ≤ s.now →
      let r := beforeCommit s.now { s with lastNow := s.now }
      r.cur.writeStartTime = some w → r.cur.time = some t → w < t → (r.drv r.cur.drive).medium = false →
      exec i s = .next { r with fault := some (.commitNoMedium r.cur.drive) })

/-- R156: `CHECKPOINT` is `RUN` up to `now`, then `COMMIT`, then the copy of every field and the edge of the copy; what it leaves
is settled with an empty write buffer; a second one at the same time changes nothing; outside the interval it commits every
instant of the medium reads as before. -/
def Obligations.CheckpointCopiesTheSettledState : Prop :=
  ∀ s : State, s.fault = none → LiveInv Config.machine s.cur → (∀ t, s.cur.time = some t → t ≤ s.lastNow) →
    canCommit (runEngine Config.machine s.lastNow s.lastNow s) →
    ∃ u r v, exec .checkpoint s = .next u ∧ exec .run { s with limit := s.lastNow } = .next r ∧ exec .commit r = .next v ∧
      u = { checkpointed v v.cur with limit := s.limit } ∧ u.fault = none ∧ u.chk = u.cur ∧
      settled Config.machine s.lastNow u.cur = true ∧ u.nextEdge = edgeFor u u.cur ∧ u.cur.writeBuffer = [] ∧
      sameLatches u.cur s.cur ∧ u.drives = s.drives ∧
      (∀ tr x, ¬ inCommitInterval (runEngine Config.machine s.lastNow s.lastNow s) tr x →
        mediumHas u.medium tr x = mediumHas s.medium tr x) ∧
      u.stepperEnable = s.stepperEnable ∧ u.spindleCtl = s.spindleCtl ∧ u.lastNow = s.lastNow ∧
      u.queue = s.queue ∧ u.now = s.now ∧ u.limit = s.limit ∧ u.index = s.index ∧ u.result = s.result ∧
      exec .checkpoint u = .next u

/-- R157, R138: outside `Idle` `ROLLBACK` restores the live copy, write buffer and flags included, recomputes the edge from the
restored time, and touches nothing else; in `Idle` it leaves the live copy and sets the edge to `never`. That R138 prevails in
`Idle` is the model's choice (log 16), and so is the edge of a checkpoint that is not `Idle` and has no time (log 8). -/
def Obligations.RollbackRestoresTheCheckpoint : Prop :=
  ∀ s : State, s.fault = none →
    (s.cur.state ≠ .idle → exec .rollback s = .next
      { s with cur := s.chk, nextEdge := if s.chk.state = .idle then none else edgeFor s s.chk }) ∧
    (s.cur.state = .idle → exec .rollback s = .next { s with nextEdge := none })

/-- R158: after `SYNC` the live copy is settled at real time and the write buffer is empty. -/
def Obligations.SyncLandsAtRealTime : Prop :=
  ∀ s : State, Inv Config.machine s → s.fault = none → canCommit (beforeCommit s.lastNow s) →
    ∃ u, exec .sync s = .next u ∧ u.fault = none ∧
      (u.cur.state = .idle ∨
        (u.cur.state = .running ∧ u.cur.nextState = none ∧ u.cur.changed = .clear ∧
          ∃ t, u.cur.time = some t ∧ t ≤ s.lastNow ∧ s.lastNow < t + Config.machine.period)) ∧
      u.cur.writeBuffer = []

/-- R158: a late `SYNC` discards exactly the speculative cells: with the live copy ahead of real time it does what it does
from the restored checkpoint, and it never returns to the checkpoint otherwise. -/
def Obligations.SyncRollsBackOnlySpeculation : Prop :=
  ∀ (s : State) (t : Nat), s.fault = none → s.cur.state ≠ .idle → s.cur.time = some t →
    (s.lastNow < t → (∀ n, s.chk.time = some n → n ≤ s.lastNow) → LiveInv Config.machine s.chk →
      ∃ r, exec .rollback s = .next r ∧ exec .sync s = exec .sync r) ∧
    (t ≤ s.lastNow → s.limit = s.lastNow → ∃ r, exec .run s = .next r ∧ exec .sync s = exec .commit r)

/-- The frame of `SYNC`: the latches, the checkpoint, the drives and every register but the live copy's own are unchanged, and
so is every instant of the medium outside the interval it commits. -/
def Obligations.SyncFrame : Prop :=
  ∀ s u : State, Inv Config.machine s → exec .sync s = .next u →
    u.chk = s.chk ∧ u.drives = s.drives ∧ u.stepperEnable = s.stepperEnable ∧ u.spindleCtl = s.spindleCtl ∧
    u.lastNow = s.lastNow ∧ u.queue = s.queue ∧ u.now = s.now ∧ u.limit = s.limit ∧ u.index = s.index ∧
    u.result = s.result ∧ sameLatches u.cur s.cur ∧
    (∀ tr x, ¬ inCommitInterval (beforeCommit s.lastNow s) tr x → mediumHas u.medium tr x = mediumHas s.medium tr x)

/-! ## Violations -/

/-- R217, R170: an external operation issued before the last one records `TimeRegression(now)` and changes nothing else. -/
def Obligations.TimeRegressionIsAViolation : Prop :=
  ∀ (i : Instr) (s : State), isExternal i = true → i.wellFormed = true → s.fault = none → s.now < s.lastNow →
    exec i s = .next { s with fault := some (.timeRegression s.now) }

/-- R29, R216: once a violation is recorded every operation but `RESET` is a no-op. -/
def Obligations.AViolationIsSticky : Prop :=
  ∀ (i : Instr) (s : State), s.fault ≠ none → i ≠ .reset → exec i s = .next s

/-- R70, R224: a word the outside may not issue records `IllegalOp(word)` and changes nothing else of the controller; so does
`MOTOR` with command value 3, given as an instruction (log 7). -/
def Obligations.IllegalWordIsAViolation : Prop :=
  (∀ (s : State) (q : Issue) (rest : List Issue), s.queue = q :: rest → q.agent ≠ .engine → s.fault = none →
    legalOutside q.word = false →
    step s = .next
      { s with
        queue := rest, now := q.now, limit := q.limit, index := q.index, result := none
        fault := some (.illegalOp q.word) }) ∧
  (∀ (d : DriveId) (s : State), s.fault = none →
    exec (.motor d 3) s = .next { s with fault := some (.illegalOp (encode (.motor d 3))) })

/-- R70: the legal words are exactly the encodings of the well-formed operations of the classes `H`, `S` and `X`. -/
def Obligations.LegalWordsAreTheExternalEncodings : Prop :=
  ∀ w : Word, legalOutside w = true ↔
    ∃ i : Instr, i.wellFormed = true ∧ i.opClass ≠ .internal ∧ encode i = w

/-- R162, R215: no step records the violation `MutateWithoutSync`, which stands in the type and which no operation raises
(log 15). -/
def Obligations.NoStepRecordsMutateWithoutSync : Prop :=
  ∀ s t : State, s.fault ≠ some .mutateWithoutSync → step s = .next t → t.fault ≠ some .mutateWithoutSync

/-! ## Host operations -/

/-- R173, R177, R178: `WRDATA`, `ERGATE` and `WRSYNC` write their latch in the synchronised state; the codec pair follows,
the checkpoint is taken, and nothing else changes. -/
def Obligations.DataAndGateLatches : Prop :=
  ∀ s : State, Ready s →
    (∀ b, exec (.wrdata b) s =
      .next (checkpointed (synced s) (refreshLive Config.machine { (synced s).cur with writeData := b }))) ∧
    (∀ g, exec (.ergate g) s =
      .next (checkpointed (synced s) (refreshLive Config.machine { (synced s).cur with eraseGate := g }))) ∧
    (∀ g, exec (.wrsync g) s =
      .next (checkpointed (synced s) (refreshLive Config.machine { (synced s).cur with writeSyncGate := g })))

/-- R176: `WRGATE` opens the write interval at the pending boundary when a running engine goes from reading to writing, and
forgets it when it goes back; with the gate as it was nothing is opened or forgotten. -/
def Obligations.WriteGateOpensAndClosesTheInterval : Prop :=
  ∀ (g : Bool) (s : State), Ready s →
    exec (.wrgate g) s =
      .next (checkpointed (synced s) (refreshLive Config.machine
        { (synced s).cur with
          writeGate := g
          writeStartTime :=
            if s.cur.writeGate = g then (synced s).cur.writeStartTime
            else if g = false then none
            else if (synced s).cur.state = .idle then (synced s).cur.writeStartTime
            else (synced s).cur.time }))

/-- R174, R175, R172: `DRVSEL` and `SIDESEL` select; the selected drive's side mirrors the engine's. -/
def Obligations.DriveAndSideSelect : Prop :=
  ∀ s : State, Ready s →
    (∀ d, ∃ t, exec (.drvsel d) s = .next t ∧
      t = checkpointed { synced s with drives := t.drives }
        (refreshLive Config.machine { (synced s).cur with drive := d }) ∧
      t.drv d = { s.drv d with side := s.cur.side } ∧ (∀ e, e ≠ d → t.drv e = s.drv e)) ∧
    (∀ side, ∃ t, exec (.sidesel side) s = .next t ∧
      t = checkpointed { synced s with drives := t.drives }
        (refreshLive Config.machine { (synced s).cur with side := side }) ∧
      t.drv s.cur.drive = { s.drv s.cur.drive with side := side } ∧ (∀ e, e ≠ s.cur.drive → t.drv e = s.drv e))

/-- R179, R180, R201: `STPEN` sets the line; `STPPH` moves the named drive by the decoded step within `0..MAX_CYL` and latches
the code, whether or not it moves. -/
def Obligations.StepperOperations : Prop :=
  ∀ s : State, Ready s →
    (∀ g, exec (.stpen g) s = .next { checkpointed (synced s) (synced s).cur with stepperEnable := g }) ∧
    (∀ d code, ∃ t, exec (.stpph d code) s = .next t ∧
      t = checkpointed { synced s with drives := t.drives } (synced s).cur ∧
      t.drv d = { s.drv d with
        phase := code
        cylinder := (min (max (((s.drv d).cylinder : Int) +
          stepDecode Config.machine (s.drv d).phase code s.stepperEnable) 0) Config.machine.maxCylinder).toNat } ∧
      (∀ e, e ≠ d → t.drv e = s.drv e))

/-- R181, R137, R203: `MOTOR` records the command, sets the drive's motor, and starts the engine at `now`, stops it, or leaves
it, as the two motors and the engine's state say. -/
def Obligations.MotorStartsAndStopsTheEngine : Prop :=
  ∀ (d : DriveId) (cmd : BitVec 2) (k : SpindleCommand) (s : State), Ready s →
    (cmd = 0 ∧ k = .stop ∨ cmd = 1 ∧ k = .start ∨ cmd = 2 ∧ k = .select) →
    ∃ t x, exec (.motor d cmd) s = .next t ∧
      t = checkpointed { synced s with drives := t.drives, spindleCtl := t.spindleCtl } x ∧
      t.drv d = { s.drv d with
        motorEnabled := if k = .start then true else if k = .stop then false else (s.drv d).motorEnabled } ∧
      (∀ e, e ≠ d → t.drv e = s.drv e) ∧
      t.spindleCtl.get d = k ∧ (∀ e, e ≠ d → t.spindleCtl.get e = s.spindleCtl.get e) ∧
      (anyMotor t = true → (synced s).cur.state = .idle →
        x = refreshLive Config.machine
          { (synced s).cur with
            state := .running, time := some s.now, nextState := none
            bitCounter := 0, syncBitCounter := 0, syncByteCounter := 0
            writeStartTime := if s.cur.writeGate then some s.now else none }) ∧
      (anyMotor t = false → (synced s).cur.state ≠ .idle →
        x = { (synced s).cur with writeStartTime := none, state := .idle, time := none, nextState := none }) ∧
      (¬ (anyMotor t = true ∧ (synced s).cur.state = .idle) → ¬ (anyMotor t = false ∧ (synced s).cur.state ≠ .idle) →
        x = (synced s).cur)

/-- R182, R183, R68: `RDDATA` returns the codec output and `RDSTAT` the status byte of the selected drive; reading changes
nothing. -/
def Obligations.ReadsReturnDataAndStatus : Prop :=
  ∀ s : State, Ready s →
    exec .rddata s =
      .next { checkpointed (synced s) (synced s).cur with result := some (synced s).cur.gcrOutput } ∧
    ∃ b : Byte, exec .rdstat s = .next { checkpointed (synced s) (synced s).cur with result := some b } ∧
      b.toNat =
        64 * (decide ((s.drv s.cur.drive).cylinder = 0)).toNat + 32 * (s.drv s.cur.drive).writeProtect.toNat +
        16 * (synced s).cur.flags.gcrError.toNat + 8 * (synced s).cur.flags.synMarker.toNat +
        4 * (synced s).cur.flags.syncDetected.toNat + 2 * (synced s).cur.flags.latchedByteReady.toNat +
        (synced s).cur.flags.byteReady.toNat

/-- R184: `TIMER` is its wrapper: the synchronised state, checkpointed. -/
def Obligations.TimerSynchronises : Prop :=
  ∀ s : State, Ready s → exec .timer s = .next (checkpointed (synced s) (synced s).cur)

/-- R185: `SPEC n` is `TIMER` followed by `RUN` with the limit `now + n * P`. It leaves what `TIMER` leaves, but for the live copy
and the cached edge, which run ahead by `k <= n` whole cells: by exactly `n` unless a flag change stops them; in `Idle`, and for
`n = 0`, it is `TIMER`. -/
def Obligations.SpecRunsAheadByAtMostNCells : Prop :=
  ∀ (n : Byte) (s : State), Ready s →
    ∃ r t, exec .timer s = .next r ∧ exec (.spec n) s = .next t ∧
      exec .run { r with limit := s.now + n.toNat * Config.machine.period } =
        .next { t with limit := s.now + n.toNat * Config.machine.period } ∧ (n = 0 → t = r) ∧
      t = { r with cur := t.cur, nextEdge := t.nextEdge } ∧ sameLatches t.cur r.cur ∧ LiveInv Config.machine t.cur ∧
      (r.cur.state = .idle → t = r) ∧
      (∀ a, r.cur.time = some a → ∃ k, k ≤ n.toNat ∧ t.cur.time = some (a + k * Config.machine.period) ∧
        (t.cur.nextState = none → k = n.toNat))

/-! ## Speculation, whole machine -/

/-- R160: speculation makes no observable difference. Whatever external operation or reset comes next, at whatever time, the
whole state after it is the same whether the engine had run ahead under `SPEC n` or had only been woken by `TIMER`. Reading
R160 as this comparison is the model's (log 13), and so is a medium that nothing else changes, for every `n` (log 12). -/
def Obligations.SpeculationIsUnobservable : Prop :=
  ∀ (n : Byte) (i : Instr) (s a b : State) (later : Nat), Ready s →
    exec (.spec n) s = .next a → exec .timer s = .next b → s.now ≤ later →
    (isExternal i = true ∨ i = .reset) → i.wellFormed = true →
    exec i { a with now := later } = exec i { b with now := later }

/-- R141: `RunningSyncpoint` is transient, and what stands between external operations is `Idle`, `Running` with nothing deferred,
or, only after `SPEC`, `Running` with a deferred syncpoint later than `now`; the checkpoint is settled, and but for `SPEC` it is
the live copy. -/
def Obligations.EngineBetweenOperations : Prop :=
  ∀ (i : Instr) (s t : State), Ready s → isExternal i = true → i.wellFormed = true → exec i s = .next t →
    t.fault = none ∧ t.lastNow = s.now ∧ t.chk.state ≠ .runningSyncpoint ∧
    settled Config.machine s.now t.chk = true ∧
    ((∀ n, i ≠ .spec n) → t.chk = t.cur ∧ t.cur.writeBuffer = []) ∧
    (t.cur.state = .idle ∨ (t.cur.state = .running ∧ t.cur.nextState = none) ∨
      ((∃ n, i = .spec n) ∧ t.cur.state = .running ∧ t.cur.nextState = some .runningSyncpoint ∧
        ∃ u, t.cur.time = some u ∧ s.now < u))

/-- R219: no event an external operation emits carries a time later than its `now`, and none is taken back. -/
def Obligations.EventsAreNeverInTheFuture : Prop :=
  ∀ (i : Instr) (s t : State), Ready s → isExternal i = true → i.wellFormed = true → exec i s = .next t →
    ∃ l, t.events = s.events ++ l ∧ ∀ e ∈ l, eventTime e ≤ s.now

/-- R137: the engine runs exactly when a motor is on, and every external operation keeps it so. -/
def Obligations.EngineRunsWhileAMotorIsOn : Prop :=
  ∀ (i : Instr) (s t : State), Ready s → engineFollowsMotors s → isExternal i = true → i.wellFormed = true →
    exec i s = .next t → engineFollowsMotors t

/-- R24, R53: every external operation leaves the cached edge right for the live copy, after speculation too. -/
def Obligations.ExternalOperationsKeepTheEdgeRight : Prop :=
  ∀ (i : Instr) (s t : State), Ready s → isExternal i = true → i.wellFormed = true → exec i s = .next t → edgeValid t

/-! ## Whole-machine rules -/

/-- R16, R17, R25, R26, R27: each latch and each drive register is written only by its own operation, and the sense inputs by
none; `RESET` apart. -/
def Obligations.LatchesAreWrittenByTheirOwnOperation : Prop :=
  ∀ (i : Instr) (s t : State), Inv Config.machine s → i ≠ .reset → exec i s = .next t →
    ((∀ b, i ≠ .wrdata b) → t.cur.writeData = s.cur.writeData) ∧
    ((∀ d, i ≠ .drvsel d) → t.cur.drive = s.cur.drive) ∧
    ((∀ d, i ≠ .sidesel d) → t.cur.side = s.cur.side) ∧
    ((∀ g, i ≠ .wrgate g) → t.cur.writeGate = s.cur.writeGate) ∧
    ((∀ g, i ≠ .ergate g) → t.cur.eraseGate = s.cur.eraseGate) ∧
    ((∀ g, i ≠ .wrsync g) → t.cur.writeSyncGate = s.cur.writeSyncGate) ∧
    ((∀ g, i ≠ .stpen g) → t.stepperEnable = s.stepperEnable) ∧
    ((∀ d k, i ≠ .motor d k) → t.spindleCtl = s.spindleCtl) ∧
    (∀ e, ((∀ c, i ≠ .stpph e c) → (t.drv e).cylinder = (s.drv e).cylinder ∧ (t.drv e).phase = (s.drv e).phase) ∧
      ((∀ k, i ≠ .motor e k) → (t.drv e).motorEnabled = (s.drv e).motorEnabled) ∧
      ((∀ d, i ≠ .drvsel d) → (∀ d, i ≠ .sidesel d) → (t.drv e).side = (s.drv e).side) ∧
      (t.drv e).writeProtect = (s.drv e).writeProtect ∧ (t.drv e).medium = (s.drv e).medium)

/-- The frame of the external operations on the medium: every instant outside the interval that the operation's `SYNC` commits
reads as before. -/
def Obligations.ExternalOperationsStoreOnlyTheirCommit : Prop :=
  ∀ (i : Instr) (s t : State), Ready s → isExternal i = true → i.wellFormed = true → exec i s = .next t →
    t.medium = (synced s).medium ∧
    ∀ tr x, ¬ inCommitInterval (beforeCommit s.now { s with lastNow := s.now }) tr x →
      mediumHas t.medium tr x = mediumHas s.medium tr x

/-- R40, R43, R30: no operation but `RESET` takes back an event, and none changes the medium without a `COMMIT` event. -/
def Obligations.MediumChangesOnlyByCommitEvents : Prop :=
  ∀ (i : Instr) (s t : State), i ≠ .reset → exec i s = .next t →
    ∃ l, t.events = s.events ++ l ∧ ((∀ tr a b ts, Event.commit tr a b ts ∉ l) → t.medium = s.medium)

/-- R205, D27: `write_protect` is only reported: with other write-protect inputs every operation but `RDSTAT` does the same. -/
def Obligations.WriteProtectGatesNothing : Prop :=
  ∀ (p : PerDrive Bool) (i : Instr) (s : State), i ≠ .rdstat →
    exec i (withWriteProtect p s) = mapNext (withWriteProtect p) (exec i s)

/-- R138: with the engine `Idle`, `TIMER`, `SYNC`, `RUN`, `CHECKPOINT` and `ROLLBACK` leave the live copy unchanged (`ROLLBACK`:
log 16). -/
def Obligations.IdleEngineIsLeftAlone : Prop :=
  ∀ s : State, Inv Config.machine s → s.fault = none → s.cur.state = .idle →
    exec .run s = .next s ∧ exec .sync s = .next s ∧
    (∃ t, exec .checkpoint s = .next t ∧ t.cur = s.cur) ∧
    (s.lastNow ≤ s.now → ∃ t, exec .timer s = .next t ∧ t.cur = s.cur) ∧
    (∃ t, exec .rollback s = .next t ∧ t.cur = s.cur)

/-- R142: what the block asks of the scheduler. -/
def Obligations.WakeUpTime : Prop :=
  ∀ s : State,
    (s.cur.state = .idle → s.wakeAt Config.machine = none) ∧
    (s.cur.state ≠ .idle → s.cur.nextState ≠ none → s.wakeAt Config.machine = s.cur.time) ∧
    (∀ t, s.cur.state ≠ .idle → s.cur.nextState = none → s.cur.time = some t →
      s.wakeAt Config.machine = some (t + Config.machine.period))

/-! ## Mechanics and the medium -/

/-- R200, R5: the four phase codes are distinct, and the phase decoder over them: forward `+1`, backward `-1`, every other pair
of codes, every pair with another code, and every pair while the stepper is not enabled, `0`. -/
def Obligations.StepDecodeTable : Prop :=
  ∀ c : Config, c.phaseSeq.codes.Nodup ∧
    (∀ old new, stepDecode c old new false = 0) ∧
    (∀ old new, (old ∉ c.phaseSeq.codes ∨ new ∉ c.phaseSeq.codes) → stepDecode c old new true = 0) ∧
    (∀ i j : Fin 4,
      stepDecode c (c.phaseSeq.codes.get i) (c.phaseSeq.codes.get j) true =
        if j.val = (i.val + 1) % 4 then 1 else if j.val = (i.val + 3) % 4 then -1 else 0)

/-- R201: the head against its stops, and one cylinder between them; the track-zero sense. -/
def Obligations.CylinderMovesWithinItsRange : Prop :=
  ∀ (c : Config) (n : Nat), n ≤ c.maxCylinder →
    moveCylinder c n 0 = n ∧
    moveCylinder c n 1 = (if n = c.maxCylinder then n else n + 1) ∧
    moveCylinder c n (-1) = (if n = 0 then 0 else n - 1) ∧
    ∀ d : Drive, (d.trackZero = true ↔ d.cylinder = 0)

/-- R42: `FluxNext` is the least transition of the track at or after `t`, inclusive; `never` when there is none or when the
drive has no medium. -/
def Obligations.FluxNextIsTheFirstTransition : Prop :=
  ∀ (s : State) (tr : Track) (t : Nat), Medium.wf s.medium →
    (∀ x, fluxNext s tr t = some x ↔
      (s.drv tr.drive).medium = true ∧ mediumHas s.medium tr x = true ∧ t ≤ x ∧
        ∀ y, mediumHas s.medium tr y = true → t ≤ y → x ≤ y) ∧
    (fluxNext s tr t = none ↔
      (s.drv tr.drive).medium = false ∨ ∀ y, mediumHas s.medium tr y = true → y < t)

/-! ## Reset -/

/-- R240, R241: `RESET` works in every state, faulted or not, gives every register its reset value and leaves the cylinders,
the sense inputs and the media alone. -/
def Obligations.ResetGivesTheResetValues : Prop :=
  ∀ s : State, ∃ t, exec .reset s = .next t ∧
    t.cur.state = .idle ∧ t.cur.time = none ∧ t.cur.nextState = none ∧ t.cur.shiftRegister = 0 ∧
    t.cur.bitCounter = 0 ∧ t.cur.syncBitCounter = 0 ∧ t.cur.syncByteCounter = 0 ∧ t.cur.drive = 0 ∧ t.cur.side = 0 ∧
    t.cur.writeGate = false ∧ t.cur.writeSyncGate = false ∧ t.cur.eraseGate = false ∧ t.cur.writeData = 0 ∧
    t.cur.gcrInput = 0 ∧ t.cur.gcrOutput = Config.machine.gcrRom 0 ∧ t.cur.flags = .clear ∧ t.cur.changed = .clear ∧
    t.cur.writeStartTime = none ∧ t.cur.writePosition = 0 ∧ t.cur.writeBuffer = [] ∧ t.chk = t.cur ∧ t.nextEdge = none ∧
    (∀ d, t.drv d = { s.drv d with side := 0, motorEnabled := false, phase := 0 } ∧ t.spindleCtl.get d = .stop) ∧
    t.stepperEnable = false ∧ t.lastNow = s.now ∧ t.fault = none ∧ t.events = [] ∧ t.medium = s.medium ∧
    t.queue = s.queue ∧ t.now = s.now ∧ t.limit = s.limit ∧ t.index = s.index ∧ t.result = s.result

/-- R241: the machine right after construction. -/
def Obligations.StateAfterReset : Prop :=
  State.reset.cur.state = .idle ∧ State.reset.cur.time = none ∧ State.reset.cur.nextState = none ∧
  State.reset.cur.shiftRegister = 0 ∧ State.reset.cur.bitCounter = 0 ∧ State.reset.cur.syncBitCounter = 0 ∧
  State.reset.cur.syncByteCounter = 0 ∧ State.reset.cur.drive = 0 ∧ State.reset.cur.side = 0 ∧
  State.reset.cur.writeGate = false ∧ State.reset.cur.writeSyncGate = false ∧ State.reset.cur.eraseGate = false ∧
  State.reset.cur.writeData = 0 ∧ State.reset.cur.writeStartTime = none ∧ State.reset.cur.writePosition = 0 ∧
  State.reset.cur.writeBuffer = [] ∧ State.reset.lastNow = Config.machine.resetTime ∧
  State.reset.cur.gcrInput = 0 ∧ State.reset.cur.gcrInput = codecInput State.reset.cur ∧
  State.reset.cur.gcrOutput = Config.machine.gcrRom State.reset.cur.gcrInput ∧
  State.reset.cur.flags = .clear ∧ State.reset.cur.changed = .clear ∧ State.reset.chk = State.reset.cur ∧
  State.reset.nextEdge = none ∧ State.reset.fault = none ∧ State.reset.events = [] ∧ State.reset.stepperEnable = false ∧
  (∀ d, (State.reset.drv d).side = 0 ∧ (State.reset.drv d).cylinder = Config.machine.initialCylinder d ∧
    (State.reset.drv d).motorEnabled = false ∧ (State.reset.drv d).phase = 0 ∧ State.reset.spindleCtl.get d = .stop)

/-! ## Encoding -/

/-- R66: a few words written out bit by bit, one of each format. -/
def Obligations.WordsDecodeToTheirOperations : Prop :=
  decode 0b0000000110100101 = .ok (.wrdata 0xA5) ∧ decode 0b0000001000000001 = .ok (.drvsel 1) ∧
  decode 0b0000100000010011 = .ok (.stpph 1 0b0011) ∧ decode 0b0000100100010010 = .ok (.motor 1 2) ∧
  decode 0b0010000111111111 = .ok (.spec 255) ∧ decode 0b1100001000000000 = .ok .step ∧
  decode 0b1111111100000000 = .ok .reset ∧
  decode 0x0402 = .error .reservedOperandBits ∧ decode 0x0903 = .error .reservedMotorCommand ∧
  decode 0x3000 = .error .unknownOp

/-- R65, R66, R67: decoding the encoding of a well-formed instruction gives it back, with every operand at every value. -/
def Obligations.DecodeOfEncode : Prop :=
  ∀ i : Instr, i.wellFormed = true → decode (encode i) = .ok i

/-- R66, R70: a word that decodes is the encoding of its instruction, which is well formed; so no two words share a meaning and
no reserved bit is ignored. -/
def Obligations.EncodeOfDecode : Prop :=
  ∀ (w : Word) (i : Instr), decode w = .ok i → i.wellFormed = true ∧ encode i = w

/-! ## The step and its invariant -/

/-- R48, R65, R170: one step executes the oldest issued operation, as the instruction its word decodes to, with its operands on
the input ports and the entry off the queue. That an entry of the engine runs a word of class `H`, `S` or `X` too is the
model's choice (log 7). -/
def Obligations.StepRunsTheDecodedInstruction : Prop :=
  ∀ (s : State) (q : Issue) (rest : List Issue) (i : Instr), s.queue = q :: rest → decode q.word = .ok i →
    (q.agent = .engine ∨ i.opClass ≠ .internal) →
    step s = exec i { s with queue := rest, now := q.now, limit := q.limit, index := q.index, result := none }

/-- R22, R241: the invariant holds after reset. -/
def Obligations.InvariantHoldsAfterReset : Prop := Inv Config.machine State.reset

/-- R22: every step from every state that meets the invariant gives a state that meets it, whatever is issued. -/
def Obligations.EveryStepKeepsTheInvariant : Prop :=
  ∀ s t : State, Inv Config.machine s → step s = .next t → Inv Config.machine t
end

