-- ==== Sys2Proof/Laws/Medium.lean ====
section
/-! SUPPORT. The laws of the flux media: reads after writes, the canonical form, and what the two primitives of
spec/20_memory.md R42 and R43 come to. -/

namespace Sys2Proof.Machine

/-! ## The order of the canonical form -/

theorem before_iff (x y : Mark) : x.before y = true ↔
    x.track.drive.val < y.track.drive.val ∨ (x.track.drive.val = y.track.drive.val ∧
      (x.track.cylinder < y.track.cylinder ∨ (x.track.cylinder = y.track.cylinder ∧
        (x.track.side.val < y.track.side.val ∨ (x.track.side.val = y.track.side.val ∧ x.time < y.time))))) := by
  simp only [Mark.before, Bool.or_eq_true, Bool.and_eq_true, decide_eq_true_eq, beq_iff_eq, Fin.lt_def, Fin.ext_iff]

theorem mark_ext_iff (x y : Mark) : x = y ↔
    x.track.drive.val = y.track.drive.val ∧ x.track.cylinder = y.track.cylinder ∧
      x.track.side.val = y.track.side.val ∧ x.time = y.time := by
  obtain ⟨⟨xd, xc, xs⟩, xt⟩ := x
  obtain ⟨⟨yd, yc, ys⟩, yt⟩ := y
  simp [Fin.ext_iff, and_assoc]

theorem before_trans {x y z : Mark} (h : x.before y = true) (k : y.before z = true) : x.before z = true := by
  rw [before_iff] at *; omega

/-- Two marks are in order one way, equal, or in order the other way. -/
theorem before_total (x y : Mark) : x.before y = true ∨ x = y ∨ y.before x = true := by
  rw [before_iff, before_iff, mark_ext_iff]; omega

/-- On one track the order is that of time. -/
theorem before_same_track (tr : Track) (t u : Nat) :
    (Mark.mk tr t).before (Mark.mk tr u) = true ↔ t < u := by
  rw [before_iff]; simp

/-! ## Reading one instant -/

theorem mediumHas_iff (m : Medium) (tr : Track) (t : Nat) : mediumHas m tr t = true ↔ Mark.mk tr t ∈ m := by
  simp [mediumHas]

/-! ## Adding transitions -/

theorem mem_mediumInsert (x y : Mark) (m : Medium) : y ∈ mediumInsert x m ↔ y = x ∨ y ∈ m := by
  induction m with
  | nil => simp [mediumInsert]
  | cons z zs ih =>
    unfold mediumInsert
    split
    · simp
    · split
      · rename_i h; subst h; simp
      · simp [ih]; tauto

theorem mediumInsert_wf (x : Mark) {m : Medium} (h : Medium.wf m) : Medium.wf (mediumInsert x m) := by
  induction m with
  | nil => simp [mediumInsert]
  | cons z zs ih =>
    obtain ⟨hz, hzs⟩ := List.pairwise_cons.mp h
    unfold mediumInsert
    split
    · rename_i hx
      refine List.pairwise_cons.mpr ⟨fun y hy => ?_, h⟩
      rcases List.mem_cons.mp hy with rfl | hy
      · exact hx
      · exact before_trans hx (hz y hy)
    · split
      · exact h
      · rename_i hx hne
        refine List.pairwise_cons.mpr ⟨fun y hy => ?_, ih hzs⟩
        rcases (mem_mediumInsert x y zs).mp hy with rfl | hy
        · rcases before_total y z with h1 | h1 | h1
          · exact absurd h1 hx
          · exact absurd h1 hne
          · exact h1
        · exact hz y hy

theorem mem_mediumInsertAll (y : Mark) (m : Medium) (tr : Track) (ts : List Nat) :
    y ∈ mediumInsertAll m tr ts ↔ (y.track = tr ∧ y.time ∈ ts) ∨ y ∈ m := by
  induction ts with
  | nil => simp [mediumInsertAll]
  | cons t ts ih =>
    obtain ⟨ytr, yt⟩ := y
    simp only [mediumInsertAll, mem_mediumInsert, ih, List.mem_cons, Mark.mk.injEq]
    tauto

theorem mediumInsertAll_wf {m : Medium} (h : Medium.wf m) (tr : Track) (ts : List Nat) :
    Medium.wf (mediumInsertAll m tr ts) := by
  induction ts with
  | nil => exact h
  | cons t ts ih => exact mediumInsert_wf _ ih

/-! ## `FluxCommit` on the media -/

/-- R43: every operation on the media keeps the canonical form. -/
theorem mediumReplace_wf {m : Medium} (h : Medium.wf m) (tr : Track) (start stop : Nat) (ts : List Nat) :
    Medium.wf (mediumReplace m tr start stop ts) :=
  mediumInsertAll_wf (h.filter _) tr ts

/-- R43: what an instant reads as after a commit. -/
theorem mediumHas_replace (m : Medium) (tr tr' : Track) (start stop : Nat) (ts : List Nat) (t : Nat) :
    mediumHas (mediumReplace m tr start stop ts) tr' t = true ↔
      (tr' = tr ∧ t ∈ ts) ∨ (mediumHas m tr' t = true ∧ ¬ (tr' = tr ∧ start ≤ t ∧ t < stop)) := by
  simp only [mediumHas_iff, mediumReplace, mem_mediumInsertAll, List.mem_filter, markInInterval]
  simp only [Bool.not_eq_true', Bool.and_eq_false_iff, beq_eq_false_iff_ne, decide_eq_false_iff_not]
  tauto

/-! ## `FluxNext` on the media -/

/-- R42: the least transition at or after `t`. -/
theorem mediumNext_some {m : Medium} (h : Medium.wf m) (tr : Track) (t x : Nat) :
    mediumNext m tr t = some x ↔
      mediumHas m tr x = true ∧ t ≤ x ∧ ∀ y, mediumHas m tr y = true → t ≤ y → x ≤ y := by
  simp only [mediumHas_iff]
  induction m with
  | nil => simp [mediumNext]
  | cons z zs ih =>
    obtain ⟨hz, hzs⟩ := List.pairwise_cons.mp h
    obtain ⟨ztr, zt⟩ := z
    by_cases hit : ztr = tr ∧ t ≤ zt
    · obtain ⟨h1, ht⟩ := hit
      subst h1
      have : mediumNext (⟨ztr, zt⟩ :: zs) ztr t = some zt := by simp [mediumNext, ht]
      rw [this]
      constructor
      · intro hx
        rw [Option.some.injEq] at hx
        rw [← hx]
        refine ⟨by simp, ht, fun y hy _ => ?_⟩
        rcases List.mem_cons.mp hy with hy | hy
        · injection hy with _ hy; exact le_of_eq hy.symm
        · exact le_of_lt ((before_same_track ztr zt y).mp (hz _ hy))
      · rintro ⟨hx, hle, hmin⟩
        have h1 := hmin zt (by simp) ht
        rcases List.mem_cons.mp hx with hx | hx
        · injection hx with _ hx; rw [hx]
        · have h2 := (before_same_track ztr zt x).mp (hz _ hx)
          omega
    · have : mediumNext (⟨ztr, zt⟩ :: zs) tr t = mediumNext zs tr t := by
        have : (ztr == tr && decide (t ≤ zt)) = false := by
          simp only [Bool.and_eq_false_iff, beq_eq_false_iff_ne, decide_eq_false_iff_not]; tauto
        simp [mediumNext, List.find?, this]
      rw [this, ih hzs]
      have key : ∀ y, t ≤ y → (Mark.mk tr y ∈ Mark.mk ztr zt :: zs ↔ Mark.mk tr y ∈ zs) := by
        intro y hy
        simp only [List.mem_cons, Mark.mk.injEq]
        constructor
        · rintro (⟨rfl, rfl⟩ | h)
          · exact absurd ⟨rfl, hy⟩ hit
          · exact h
        · exact Or.inr
      constructor
      · rintro ⟨a, b, c⟩
        exact ⟨(key x b).mpr a, b, fun y hy hty => c y ((key y hty).mp hy) hty⟩
      · rintro ⟨a, b, c⟩
        exact ⟨(key x b).mp a, b, fun y hy hty => c y ((key y hty).mpr hy) hty⟩

/-- R42: `never` exactly when no transition stands at or after `t`. -/
theorem mediumNext_none (m : Medium) (tr : Track) (t : Nat) :
    mediumNext m tr t = none ↔ ∀ y, mediumHas m tr y = true → y < t := by
  simp only [mediumHas_iff, mediumNext, Option.map_eq_none_iff, List.find?_eq_none, Bool.and_eq_true, beq_iff_eq,
    decide_eq_true_eq, not_and, not_le]
  constructor
  · intro h y hy
    exact h _ hy rfl
  · rintro h ⟨ztr, zt⟩ hz rfl
    exact h zt hz

/-- Two media that read alike from `t` on have the same next transition. -/
theorem mediumNext_congr {m n : Medium} (hm : Medium.wf m) (hn : Medium.wf n) (tr : Track) (t : Nat)
    (h : ∀ y, t ≤ y → (mediumHas m tr y = true ↔ mediumHas n tr y = true)) :
    mediumNext m tr t = mediumNext n tr t := by
  cases hx : mediumNext m tr t with
  | none =>
    symm
    rw [mediumNext_none] at *
    intro y hy
    by_contra hlt
    have := hx y ((h y (by omega)).mpr hy)
    omega
  | some x =>
    symm
    rw [mediumNext_some hm] at hx
    rw [mediumNext_some hn]
    exact ⟨(h x hx.2.1).mp hx.1, hx.2.1, fun y hy hty => hx.2.2 y ((h y hty).mpr hy) hty⟩

/-- R53: a commit that ends at or before `t` does not change the next transition from `t` on. -/
theorem mediumNext_replace {m : Medium} (h : Medium.wf m) (tr tr' : Track) {start stop t : Nat} {ts : List Nat}
    (hts : ∀ u ∈ ts, u < stop) (hle : stop ≤ t) :
    mediumNext (mediumReplace m tr start stop ts) tr' t = mediumNext m tr' t := by
  refine mediumNext_congr (mediumReplace_wf h ..) h _ _ (fun y hy => ?_)
  rw [mediumHas_replace]
  constructor
  · rintro (⟨_, hy'⟩ | ⟨hy', _⟩)
    · have := hts y hy'; omega
    · exact hy'
  · intro hy'
    exact Or.inr ⟨hy', by omega⟩

/-- The next transition from `t` on is also the next one from any later instant up to it. -/
theorem mediumNext_later {m : Medium} (h : Medium.wf m) (tr : Track) {t u x : Nat}
    (hx : mediumNext m tr t = some x) (htu : t ≤ u) (hux : u ≤ x) : mediumNext m tr u = some x := by
  rw [mediumNext_some h] at *
  exact ⟨hx.1, hux, fun y hy hy' => hx.2.2 y hy (le_trans htu hy')⟩

/-- With nothing from `t` on there is nothing from a later instant on. -/
theorem mediumNext_none_later {m : Medium} (tr : Track) {t u : Nat}
    (hx : mediumNext m tr t = none) (htu : t ≤ u) : mediumNext m tr u = none := by
  rw [mediumNext_none] at *
  intro y hy
  exact lt_of_lt_of_le (hx y hy) htu

/-- R111: the next transition from `t` on lies before `u` exactly when the half-open interval `[t, u)` holds one. -/
theorem mediumNext_lt {m : Medium} (h : Medium.wf m) (tr : Track) (t u : Nat) :
    (∃ x, mediumNext m tr t = some x ∧ x < u) ↔ ∃ x, mediumHas m tr x = true ∧ t ≤ x ∧ x < u := by
  constructor
  · rintro ⟨x, hx, hlt⟩
    rw [mediumNext_some h] at hx
    exact ⟨x, hx.1, hx.2.1, hlt⟩
  · rintro ⟨x, hx, htx, hxu⟩
    cases hn : mediumNext m tr t with
    | none => rw [mediumNext_none] at hn; have := hn x hx; omega
    | some y =>
      rw [mediumNext_some h] at hn
      exact ⟨y, rfl, lt_of_le_of_lt (hn.2.2 x hx htx) hxu⟩

end Sys2Proof.Machine
end

