-- ==== Sys2Proof/Laws/State.lean ====
section
/-! SUPPORT. One lemma per field per named update of the state, so that no proof unfolds a record update. -/

namespace Sys2Proof.Machine


/-! ## `cur <- x` -/

@[simp] theorem setCur_cur (s : State) (x : LiveState) : (s.setCur x).cur = x := rfl
@[simp] theorem setCur_chk (s : State) (x : LiveState) : (s.setCur x).chk = s.chk := rfl
@[simp] theorem setCur_nextEdge (s : State) (x : LiveState) : (s.setCur x).nextEdge = s.nextEdge := rfl
@[simp] theorem setCur_drives (s : State) (x : LiveState) : (s.setCur x).drives = s.drives := rfl
@[simp] theorem setCur_stepperEnable (s : State) (x : LiveState) : (s.setCur x).stepperEnable = s.stepperEnable := rfl
@[simp] theorem setCur_spindleCtl (s : State) (x : LiveState) : (s.setCur x).spindleCtl = s.spindleCtl := rfl
@[simp] theorem setCur_lastNow (s : State) (x : LiveState) : (s.setCur x).lastNow = s.lastNow := rfl
@[simp] theorem setCur_fault (s : State) (x : LiveState) : (s.setCur x).fault = s.fault := rfl
@[simp] theorem setCur_events (s : State) (x : LiveState) : (s.setCur x).events = s.events := rfl
@[simp] theorem setCur_medium (s : State) (x : LiveState) : (s.setCur x).medium = s.medium := rfl
@[simp] theorem setCur_queue (s : State) (x : LiveState) : (s.setCur x).queue = s.queue := rfl
@[simp] theorem setCur_now (s : State) (x : LiveState) : (s.setCur x).now = s.now := rfl
@[simp] theorem setCur_limit (s : State) (x : LiveState) : (s.setCur x).limit = s.limit := rfl
@[simp] theorem setCur_index (s : State) (x : LiveState) : (s.setCur x).index = s.index := rfl
@[simp] theorem setCur_result (s : State) (x : LiveState) : (s.setCur x).result = s.result := rfl

/-! ## `drv[d] <- x` -/

@[simp] theorem setDrv_cur (s : State) (d : DriveId) (x : Drive) : (s.setDrv d x).cur = s.cur := rfl
@[simp] theorem setDrv_chk (s : State) (d : DriveId) (x : Drive) : (s.setDrv d x).chk = s.chk := rfl
@[simp] theorem setDrv_nextEdge (s : State) (d : DriveId) (x : Drive) : (s.setDrv d x).nextEdge = s.nextEdge := rfl
@[simp] theorem setDrv_drives (s : State) (d : DriveId) (x : Drive) : (s.setDrv d x).drives = s.drives.set d x := rfl
@[simp] theorem setDrv_stepperEnable (s : State) (d : DriveId) (x : Drive) : (s.setDrv d x).stepperEnable = s.stepperEnable := rfl
@[simp] theorem setDrv_spindleCtl (s : State) (d : DriveId) (x : Drive) : (s.setDrv d x).spindleCtl = s.spindleCtl := rfl
@[simp] theorem setDrv_lastNow (s : State) (d : DriveId) (x : Drive) : (s.setDrv d x).lastNow = s.lastNow := rfl
@[simp] theorem setDrv_fault (s : State) (d : DriveId) (x : Drive) : (s.setDrv d x).fault = s.fault := rfl
@[simp] theorem setDrv_events (s : State) (d : DriveId) (x : Drive) : (s.setDrv d x).events = s.events := rfl
@[simp] theorem setDrv_medium (s : State) (d : DriveId) (x : Drive) : (s.setDrv d x).medium = s.medium := rfl
@[simp] theorem setDrv_queue (s : State) (d : DriveId) (x : Drive) : (s.setDrv d x).queue = s.queue := rfl
@[simp] theorem setDrv_now (s : State) (d : DriveId) (x : Drive) : (s.setDrv d x).now = s.now := rfl
@[simp] theorem setDrv_limit (s : State) (d : DriveId) (x : Drive) : (s.setDrv d x).limit = s.limit := rfl
@[simp] theorem setDrv_index (s : State) (d : DriveId) (x : Drive) : (s.setDrv d x).index = s.index := rfl
@[simp] theorem setDrv_result (s : State) (d : DriveId) (x : Drive) : (s.setDrv d x).result = s.result := rfl

/-! ## The result port -/

@[simp] theorem setResult_cur (s : State) (b : Byte) : (s.setResult b).cur = s.cur := rfl
@[simp] theorem setResult_chk (s : State) (b : Byte) : (s.setResult b).chk = s.chk := rfl
@[simp] theorem setResult_nextEdge (s : State) (b : Byte) : (s.setResult b).nextEdge = s.nextEdge := rfl
@[simp] theorem setResult_drives (s : State) (b : Byte) : (s.setResult b).drives = s.drives := rfl
@[simp] theorem setResult_stepperEnable (s : State) (b : Byte) : (s.setResult b).stepperEnable = s.stepperEnable := rfl
@[simp] theorem setResult_spindleCtl (s : State) (b : Byte) : (s.setResult b).spindleCtl = s.spindleCtl := rfl
@[simp] theorem setResult_lastNow (s : State) (b : Byte) : (s.setResult b).lastNow = s.lastNow := rfl
@[simp] theorem setResult_fault (s : State) (b : Byte) : (s.setResult b).fault = s.fault := rfl
@[simp] theorem setResult_events (s : State) (b : Byte) : (s.setResult b).events = s.events := rfl
@[simp] theorem setResult_medium (s : State) (b : Byte) : (s.setResult b).medium = s.medium := rfl
@[simp] theorem setResult_queue (s : State) (b : Byte) : (s.setResult b).queue = s.queue := rfl
@[simp] theorem setResult_now (s : State) (b : Byte) : (s.setResult b).now = s.now := rfl
@[simp] theorem setResult_limit (s : State) (b : Byte) : (s.setResult b).limit = s.limit := rfl
@[simp] theorem setResult_index (s : State) (b : Byte) : (s.setResult b).index = s.index := rfl
@[simp] theorem setResult_result (s : State) (b : Byte) : (s.setResult b).result = some b := rfl

/-! ## One event -/

@[simp] theorem emit_cur (s : State) (e : Event) : (emit e s).cur = s.cur := rfl
@[simp] theorem emit_chk (s : State) (e : Event) : (emit e s).chk = s.chk := rfl
@[simp] theorem emit_nextEdge (s : State) (e : Event) : (emit e s).nextEdge = s.nextEdge := rfl
@[simp] theorem emit_drives (s : State) (e : Event) : (emit e s).drives = s.drives := rfl
@[simp] theorem emit_stepperEnable (s : State) (e : Event) : (emit e s).stepperEnable = s.stepperEnable := rfl
@[simp] theorem emit_spindleCtl (s : State) (e : Event) : (emit e s).spindleCtl = s.spindleCtl := rfl
@[simp] theorem emit_lastNow (s : State) (e : Event) : (emit e s).lastNow = s.lastNow := rfl
@[simp] theorem emit_fault (s : State) (e : Event) : (emit e s).fault = s.fault := rfl
@[simp] theorem emit_events (s : State) (e : Event) : (emit e s).events = s.events ++ [e] := rfl
@[simp] theorem emit_medium (s : State) (e : Event) : (emit e s).medium = s.medium := rfl
@[simp] theorem emit_queue (s : State) (e : Event) : (emit e s).queue = s.queue := rfl
@[simp] theorem emit_now (s : State) (e : Event) : (emit e s).now = s.now := rfl
@[simp] theorem emit_limit (s : State) (e : Event) : (emit e s).limit = s.limit := rfl
@[simp] theorem emit_index (s : State) (e : Event) : (emit e s).index = s.index := rfl
@[simp] theorem emit_result (s : State) (e : Event) : (emit e s).result = s.result := rfl

/-! ## The cached edge -/

@[simp] theorem precomputeEdge_cur (s : State) : (precomputeEdge s).cur = s.cur := rfl
@[simp] theorem precomputeEdge_chk (s : State) : (precomputeEdge s).chk = s.chk := rfl
@[simp] theorem precomputeEdge_drives (s : State) : (precomputeEdge s).drives = s.drives := rfl
@[simp] theorem precomputeEdge_stepperEnable (s : State) : (precomputeEdge s).stepperEnable = s.stepperEnable := rfl
@[simp] theorem precomputeEdge_spindleCtl (s : State) : (precomputeEdge s).spindleCtl = s.spindleCtl := rfl
@[simp] theorem precomputeEdge_lastNow (s : State) : (precomputeEdge s).lastNow = s.lastNow := rfl
@[simp] theorem precomputeEdge_fault (s : State) : (precomputeEdge s).fault = s.fault := rfl
@[simp] theorem precomputeEdge_events (s : State) : (precomputeEdge s).events = s.events := rfl
@[simp] theorem precomputeEdge_medium (s : State) : (precomputeEdge s).medium = s.medium := rfl
@[simp] theorem precomputeEdge_queue (s : State) : (precomputeEdge s).queue = s.queue := rfl
@[simp] theorem precomputeEdge_now (s : State) : (precomputeEdge s).now = s.now := rfl
@[simp] theorem precomputeEdge_limit (s : State) : (precomputeEdge s).limit = s.limit := rfl
@[simp] theorem precomputeEdge_index (s : State) : (precomputeEdge s).index = s.index := rfl
@[simp] theorem precomputeEdge_result (s : State) : (precomputeEdge s).result = s.result := rfl

/-! ## Taking a violation -/

@[simp] theorem raise_cur (v : Violation) (s : State) : (raise v s).cur = s.cur := by cases h : s.fault <;> simp [raise, h]
@[simp] theorem raise_chk (v : Violation) (s : State) : (raise v s).chk = s.chk := by cases h : s.fault <;> simp [raise, h]
@[simp] theorem raise_nextEdge (v : Violation) (s : State) : (raise v s).nextEdge = s.nextEdge := by cases h : s.fault <;> simp [raise, h]
@[simp] theorem raise_drives (v : Violation) (s : State) : (raise v s).drives = s.drives := by cases h : s.fault <;> simp [raise, h]
@[simp] theorem raise_stepperEnable (v : Violation) (s : State) : (raise v s).stepperEnable = s.stepperEnable := by cases h : s.fault <;> simp [raise, h]
@[simp] theorem raise_spindleCtl (v : Violation) (s : State) : (raise v s).spindleCtl = s.spindleCtl := by cases h : s.fault <;> simp [raise, h]
@[simp] theorem raise_lastNow (v : Violation) (s : State) : (raise v s).lastNow = s.lastNow := by cases h : s.fault <;> simp [raise, h]
@[simp] theorem raise_events (v : Violation) (s : State) : (raise v s).events = s.events := by cases h : s.fault <;> simp [raise, h]
@[simp] theorem raise_medium (v : Violation) (s : State) : (raise v s).medium = s.medium := by cases h : s.fault <;> simp [raise, h]
@[simp] theorem raise_queue (v : Violation) (s : State) : (raise v s).queue = s.queue := by cases h : s.fault <;> simp [raise, h]
@[simp] theorem raise_now (v : Violation) (s : State) : (raise v s).now = s.now := by cases h : s.fault <;> simp [raise, h]
@[simp] theorem raise_limit (v : Violation) (s : State) : (raise v s).limit = s.limit := by cases h : s.fault <;> simp [raise, h]
@[simp] theorem raise_index (v : Violation) (s : State) : (raise v s).index = s.index := by cases h : s.fault <;> simp [raise, h]
@[simp] theorem raise_result (v : Violation) (s : State) : (raise v s).result = s.result := by cases h : s.fault <;> simp [raise, h]

/-! ## The deferred transition is taken -/

@[simp] theorem promote_cur (e : EngineState) (s : State) : (promote e s).cur = { s.cur with state := e, nextState := none } := rfl
@[simp] theorem promote_chk (e : EngineState) (s : State) : (promote e s).chk = s.chk := rfl
@[simp] theorem promote_nextEdge (e : EngineState) (s : State) : (promote e s).nextEdge = s.nextEdge := rfl
@[simp] theorem promote_drives (e : EngineState) (s : State) : (promote e s).drives = s.drives := rfl
@[simp] theorem promote_stepperEnable (e : EngineState) (s : State) : (promote e s).stepperEnable = s.stepperEnable := rfl
@[simp] theorem promote_spindleCtl (e : EngineState) (s : State) : (promote e s).spindleCtl = s.spindleCtl := rfl
@[simp] theorem promote_lastNow (e : EngineState) (s : State) : (promote e s).lastNow = s.lastNow := rfl
@[simp] theorem promote_fault (e : EngineState) (s : State) : (promote e s).fault = s.fault := rfl
@[simp] theorem promote_events (e : EngineState) (s : State) : (promote e s).events = s.events := rfl
@[simp] theorem promote_medium (e : EngineState) (s : State) : (promote e s).medium = s.medium := rfl
@[simp] theorem promote_queue (e : EngineState) (s : State) : (promote e s).queue = s.queue := rfl
@[simp] theorem promote_now (e : EngineState) (s : State) : (promote e s).now = s.now := rfl
@[simp] theorem promote_limit (e : EngineState) (s : State) : (promote e s).limit = s.limit := rfl
@[simp] theorem promote_index (e : EngineState) (s : State) : (promote e s).index = s.index := rfl
@[simp] theorem promote_result (e : EngineState) (s : State) : (promote e s).result = s.result := rfl

/-! ## Delivery -/

@[simp] theorem fireSyncpoint_cur (s : State) : (fireSyncpoint s).cur = { s.cur with changed := .clear, state := .running } := rfl
@[simp] theorem fireSyncpoint_chk (s : State) : (fireSyncpoint s).chk = s.chk := rfl
@[simp] theorem fireSyncpoint_nextEdge (s : State) : (fireSyncpoint s).nextEdge = s.nextEdge := rfl
@[simp] theorem fireSyncpoint_drives (s : State) : (fireSyncpoint s).drives = s.drives := rfl
@[simp] theorem fireSyncpoint_stepperEnable (s : State) : (fireSyncpoint s).stepperEnable = s.stepperEnable := rfl
@[simp] theorem fireSyncpoint_spindleCtl (s : State) : (fireSyncpoint s).spindleCtl = s.spindleCtl := rfl
@[simp] theorem fireSyncpoint_lastNow (s : State) : (fireSyncpoint s).lastNow = s.lastNow := rfl
@[simp] theorem fireSyncpoint_fault (s : State) : (fireSyncpoint s).fault = s.fault := rfl
@[simp] theorem fireSyncpoint_medium (s : State) : (fireSyncpoint s).medium = s.medium := rfl
@[simp] theorem fireSyncpoint_queue (s : State) : (fireSyncpoint s).queue = s.queue := rfl
@[simp] theorem fireSyncpoint_now (s : State) : (fireSyncpoint s).now = s.now := rfl
@[simp] theorem fireSyncpoint_limit (s : State) : (fireSyncpoint s).limit = s.limit := rfl
@[simp] theorem fireSyncpoint_index (s : State) : (fireSyncpoint s).index = s.index := rfl
@[simp] theorem fireSyncpoint_result (s : State) : (fireSyncpoint s).result = s.result := rfl

/-! ## One cell -/

@[simp] theorem stepCell_chk (c : Config) (s : State) : (stepCell c s).chk = s.chk := by unfold stepCell; split <;> rfl
@[simp] theorem stepCell_drives (c : Config) (s : State) : (stepCell c s).drives = s.drives := by unfold stepCell; split <;> rfl
@[simp] theorem stepCell_stepperEnable (c : Config) (s : State) : (stepCell c s).stepperEnable = s.stepperEnable := by unfold stepCell; split <;> rfl
@[simp] theorem stepCell_spindleCtl (c : Config) (s : State) : (stepCell c s).spindleCtl = s.spindleCtl := by unfold stepCell; split <;> rfl
@[simp] theorem stepCell_lastNow (c : Config) (s : State) : (stepCell c s).lastNow = s.lastNow := by unfold stepCell; split <;> rfl
@[simp] theorem stepCell_fault (c : Config) (s : State) : (stepCell c s).fault = s.fault := by unfold stepCell; split <;> rfl
@[simp] theorem stepCell_events (c : Config) (s : State) : (stepCell c s).events = s.events := by unfold stepCell; split <;> rfl
@[simp] theorem stepCell_medium (c : Config) (s : State) : (stepCell c s).medium = s.medium := by unfold stepCell; split <;> rfl
@[simp] theorem stepCell_queue (c : Config) (s : State) : (stepCell c s).queue = s.queue := by unfold stepCell; split <;> rfl
@[simp] theorem stepCell_now (c : Config) (s : State) : (stepCell c s).now = s.now := by unfold stepCell; split <;> rfl
@[simp] theorem stepCell_limit (c : Config) (s : State) : (stepCell c s).limit = s.limit := by unfold stepCell; split <;> rfl
@[simp] theorem stepCell_index (c : Config) (s : State) : (stepCell c s).index = s.index := by unfold stepCell; split <;> rfl
@[simp] theorem stepCell_result (c : Config) (s : State) : (stepCell c s).result = s.result := by unfold stepCell; split <;> rfl

/-! ## The interval closes -/

@[simp] theorem closeInterval_cur (t : Nat) (s : State) : (closeInterval t s).cur = { s.cur with writeStartTime := some t, writeBuffer := [], writePosition := 0 } := rfl
@[simp] theorem closeInterval_chk (t : Nat) (s : State) : (closeInterval t s).chk = s.chk := rfl
@[simp] theorem closeInterval_nextEdge (t : Nat) (s : State) : (closeInterval t s).nextEdge = s.nextEdge := rfl
@[simp] theorem closeInterval_drives (t : Nat) (s : State) : (closeInterval t s).drives = s.drives := rfl
@[simp] theorem closeInterval_stepperEnable (t : Nat) (s : State) : (closeInterval t s).stepperEnable = s.stepperEnable := rfl
@[simp] theorem closeInterval_spindleCtl (t : Nat) (s : State) : (closeInterval t s).spindleCtl = s.spindleCtl := rfl
@[simp] theorem closeInterval_lastNow (t : Nat) (s : State) : (closeInterval t s).lastNow = s.lastNow := rfl
@[simp] theorem closeInterval_fault (t : Nat) (s : State) : (closeInterval t s).fault = s.fault := rfl
@[simp] theorem closeInterval_events (t : Nat) (s : State) : (closeInterval t s).events = s.events := rfl
@[simp] theorem closeInterval_medium (t : Nat) (s : State) : (closeInterval t s).medium = s.medium := rfl
@[simp] theorem closeInterval_queue (t : Nat) (s : State) : (closeInterval t s).queue = s.queue := rfl
@[simp] theorem closeInterval_now (t : Nat) (s : State) : (closeInterval t s).now = s.now := rfl
@[simp] theorem closeInterval_limit (t : Nat) (s : State) : (closeInterval t s).limit = s.limit := rfl
@[simp] theorem closeInterval_index (t : Nat) (s : State) : (closeInterval t s).index = s.index := rfl
@[simp] theorem closeInterval_result (t : Nat) (s : State) : (closeInterval t s).result = s.result := rfl

/-! ## The codec pair -/

@[simp] theorem refreshCodec_cur (c : Config) (s : State) : (refreshCodec c s).cur = refreshLive c s.cur := rfl
@[simp] theorem refreshCodec_chk (c : Config) (s : State) : (refreshCodec c s).chk = s.chk := rfl
@[simp] theorem refreshCodec_nextEdge (c : Config) (s : State) : (refreshCodec c s).nextEdge = s.nextEdge := rfl
@[simp] theorem refreshCodec_drives (c : Config) (s : State) : (refreshCodec c s).drives = s.drives := rfl
@[simp] theorem refreshCodec_stepperEnable (c : Config) (s : State) : (refreshCodec c s).stepperEnable = s.stepperEnable := rfl
@[simp] theorem refreshCodec_spindleCtl (c : Config) (s : State) : (refreshCodec c s).spindleCtl = s.spindleCtl := rfl
@[simp] theorem refreshCodec_lastNow (c : Config) (s : State) : (refreshCodec c s).lastNow = s.lastNow := rfl
@[simp] theorem refreshCodec_fault (c : Config) (s : State) : (refreshCodec c s).fault = s.fault := rfl
@[simp] theorem refreshCodec_events (c : Config) (s : State) : (refreshCodec c s).events = s.events := rfl
@[simp] theorem refreshCodec_medium (c : Config) (s : State) : (refreshCodec c s).medium = s.medium := rfl
@[simp] theorem refreshCodec_queue (c : Config) (s : State) : (refreshCodec c s).queue = s.queue := rfl
@[simp] theorem refreshCodec_now (c : Config) (s : State) : (refreshCodec c s).now = s.now := rfl
@[simp] theorem refreshCodec_limit (c : Config) (s : State) : (refreshCodec c s).limit = s.limit := rfl
@[simp] theorem refreshCodec_index (c : Config) (s : State) : (refreshCodec c s).index = s.index := rfl
@[simp] theorem refreshCodec_result (c : Config) (s : State) : (refreshCodec c s).result = s.result := rfl

/-! ## The checkpoint copy -/

@[simp] theorem copyToCheckpoint_cur (s : State) : (copyToCheckpoint s).cur = s.cur := rfl
@[simp] theorem copyToCheckpoint_chk (s : State) : (copyToCheckpoint s).chk = s.cur := rfl
@[simp] theorem copyToCheckpoint_drives (s : State) : (copyToCheckpoint s).drives = s.drives := rfl
@[simp] theorem copyToCheckpoint_stepperEnable (s : State) : (copyToCheckpoint s).stepperEnable = s.stepperEnable := rfl
@[simp] theorem copyToCheckpoint_spindleCtl (s : State) : (copyToCheckpoint s).spindleCtl = s.spindleCtl := rfl
@[simp] theorem copyToCheckpoint_lastNow (s : State) : (copyToCheckpoint s).lastNow = s.lastNow := rfl
@[simp] theorem copyToCheckpoint_fault (s : State) : (copyToCheckpoint s).fault = s.fault := rfl
@[simp] theorem copyToCheckpoint_events (s : State) : (copyToCheckpoint s).events = s.events := rfl
@[simp] theorem copyToCheckpoint_medium (s : State) : (copyToCheckpoint s).medium = s.medium := rfl
@[simp] theorem copyToCheckpoint_queue (s : State) : (copyToCheckpoint s).queue = s.queue := rfl
@[simp] theorem copyToCheckpoint_now (s : State) : (copyToCheckpoint s).now = s.now := rfl
@[simp] theorem copyToCheckpoint_limit (s : State) : (copyToCheckpoint s).limit = s.limit := rfl
@[simp] theorem copyToCheckpoint_index (s : State) : (copyToCheckpoint s).index = s.index := rfl
@[simp] theorem copyToCheckpoint_result (s : State) : (copyToCheckpoint s).result = s.result := rfl

/-! ## Rollback -/

theorem rollbackEngine_cur (s : State) : (rollbackEngine s).cur = if s.cur.state = .idle then s.cur else s.chk := rfl
@[simp] theorem rollbackEngine_cur_running {s : State} (h : s.cur.state ≠ .idle) : (rollbackEngine s).cur = s.chk := if_neg h
@[simp] theorem rollbackEngine_cur_idle {s : State} (h : s.cur.state = .idle) : (rollbackEngine s).cur = s.cur := if_pos h
@[simp] theorem rollbackEngine_chk (s : State) : (rollbackEngine s).chk = s.chk := rfl
@[simp] theorem rollbackEngine_drives (s : State) : (rollbackEngine s).drives = s.drives := rfl
@[simp] theorem rollbackEngine_stepperEnable (s : State) : (rollbackEngine s).stepperEnable = s.stepperEnable := rfl
@[simp] theorem rollbackEngine_spindleCtl (s : State) : (rollbackEngine s).spindleCtl = s.spindleCtl := rfl
@[simp] theorem rollbackEngine_lastNow (s : State) : (rollbackEngine s).lastNow = s.lastNow := rfl
@[simp] theorem rollbackEngine_fault (s : State) : (rollbackEngine s).fault = s.fault := rfl
@[simp] theorem rollbackEngine_events (s : State) : (rollbackEngine s).events = s.events := rfl
@[simp] theorem rollbackEngine_medium (s : State) : (rollbackEngine s).medium = s.medium := rfl
@[simp] theorem rollbackEngine_queue (s : State) : (rollbackEngine s).queue = s.queue := rfl
@[simp] theorem rollbackEngine_now (s : State) : (rollbackEngine s).now = s.now := rfl
@[simp] theorem rollbackEngine_limit (s : State) : (rollbackEngine s).limit = s.limit := rfl
@[simp] theorem rollbackEngine_index (s : State) : (rollbackEngine s).index = s.index := rfl
@[simp] theorem rollbackEngine_result (s : State) : (rollbackEngine s).result = s.result := rfl

/-! ## Drives -/

@[simp] theorem PerDrive.get_set_self {α : Type} (p : PerDrive α) (d : DriveId) (x : α) : (p.set d x).get d = x := by
  unfold PerDrive.set PerDrive.get; split <;> rfl

theorem PerDrive.get_set_other {α : Type} (p : PerDrive α) {d e : DriveId} (h : e ≠ d) (x : α) :
    (p.set d x).get e = p.get e := by
  fin_cases d <;> fin_cases e <;> first | exact absurd rfl h | rfl

@[simp] theorem drv_setDrv_self (s : State) (d : DriveId) (x : Drive) : (s.setDrv d x).drv d = x :=
  PerDrive.get_set_self _ _ _

theorem drv_setDrv_other (s : State) {d e : DriveId} (h : e ≠ d) (x : Drive) : (s.setDrv d x).drv e = s.drv e :=
  PerDrive.get_set_other _ h _

/-- The drives of a state are read through `drives` alone. -/
theorem drv_congr {s t : State} (h : s.drives = t.drives) (d : DriveId) : s.drv d = t.drv d := by
  unfold State.drv; rw [h]

/-! ## Violations -/

@[simp] theorem raise_fault_of_none (v : Violation) {s : State} (h : s.fault = none) : (raise v s).fault = some v := by
  simp [raise, h]

/-- The first violation wins (R216). -/
theorem raise_of_some (v : Violation) {s : State} {w : Violation} (h : s.fault = some w) : raise v s = s := by
  simp [raise, h]

theorem raise_of_none (v : Violation) {s : State} (h : s.fault = none) : raise v s = { s with fault := some v } := by
  simp [raise, h]

/-- An operation goes on while no violation has been taken. -/
theorem andThen_of_none {s : State} (f : State → State) (h : s.fault = none) : s.andThen f = f s := by
  simp [State.andThen, h]

/-- R216: the rest of an operation is abandoned. -/
theorem andThen_of_some {s : State} (f : State → State) {v : Violation} (h : s.fault = some v) : s.andThen f = s := by
  simp [State.andThen, h]

/-- Everything `andThen` can do. -/
theorem andThen_cases (s : State) (f : State → State) :
    (s.fault = none ∧ s.andThen f = f s) ∨ (s.fault ≠ none ∧ s.andThen f = s) := by
  cases h : s.fault <;> simp [State.andThen, h]

end Sys2Proof.Machine
end

