-- ==== Sys2Proof/Laws/Run.lean ====
section
/-! SUPPORT. The stepping loop of spec/44_engine_control.md R139: its loop equation, one induction principle, and what a
pass can do. -/

namespace Sys2Proof.Machine

/-! ## One pass -/

/-- Everything the first half of a pass can do when it does not return: nothing deferred and nothing done, a syncpoint
delivered, or (in states no operation leaves behind) another deferred state taken. -/
theorem settlePass_cases {now : Nat} {s s' : State} (h : settlePass now s = some s') :
    s.cur.state ≠ .idle ∧
    ((s.cur.nextState = none ∧ s.cur.state ≠ .runningSyncpoint ∧ s' = s) ∨
     (s.cur.nextState = none ∧ s.cur.state = .runningSyncpoint ∧ s' = fireSyncpoint s) ∨
     (s.cur.nextState = some .runningSyncpoint ∧ timeAtOrBefore s.cur.time now = true ∧
        s' = fireSyncpoint (promote .runningSyncpoint s)) ∨
     (∃ target, s.cur.nextState = some target ∧ target ≠ .runningSyncpoint ∧
        timeAtOrBefore s.cur.time now = true ∧ s' = promote target s)) := by
  unfold settlePass at h
  split at h
  · cases h
  · rename_i hidle
    refine ⟨hidle, ?_⟩
    split at h
    · rename_i target ht
      split at h
      · rename_i hdue
        split at h
        · rename_i heq; subst heq
          cases h
          exact .inr (.inr (.inl ⟨ht, hdue, rfl⟩))
        · rename_i hne
          cases h
          exact .inr (.inr (.inr ⟨target, ht, hne, hdue, rfl⟩))
      · cases h
    · rename_i hn
      split at h
      · rename_i hs
        cases h
        exact .inr (.inl ⟨hn, hs, rfl⟩)
      · rename_i hs
        cases h
        exact .inl ⟨hn, hs, rfl⟩

/-- When the first half of a pass returns: the engine is `Idle`, or a deferred transition is not due. -/
theorem settlePass_none {now : Nat} {s : State} (h : settlePass now s = none) :
    s.cur.state = .idle ∨ (s.cur.nextState ≠ none ∧ timeAtOrBefore s.cur.time now = false) := by
  unfold settlePass at h
  split at h
  · exact .inl ‹_›
  · split at h
    · rename_i target ht
      split at h
      · split at h <;> cases h
      · rename_i hdue
        exact .inr ⟨by simp [ht], by simpa using hdue⟩
    · split at h <;> cases h

/-- A pass does not move the pending boundary. -/
theorem settlePass_time {now : Nat} {s s' : State} (h : settlePass now s = some s') : s'.cur.time = s.cur.time := by
  rcases (settlePass_cases h).2 with ⟨-, -, rfl⟩ | ⟨-, -, rfl⟩ | ⟨-, -, rfl⟩ | ⟨t, -, -, -, rfl⟩ <;> simp

/-- A pass that finds nothing deferred and no syncpoint does nothing. -/
theorem settlePass_quiet {now : Nat} {s : State} (hs : s.cur.state = .running) (hn : s.cur.nextState = none) :
    settlePass now s = some s := by
  simp [settlePass, hs, hn]

/-- R103, R139: a deferred syncpoint that is not due ends the loop. -/
theorem settlePass_not_due {now : Nat} {s : State} (hn : s.cur.nextState ≠ none)
    (ht : timeAtOrBefore s.cur.time now = false) : settlePass now s = none := by
  unfold settlePass
  split
  · rfl
  · cases h : s.cur.nextState with
    | none => exact absurd h hn
    | some t => simp [ht]

theorem settlePass_idle {now : Nat} {s : State} (hs : s.cur.state = .idle) : settlePass now s = none := by
  simp [settlePass, hs]

/-- R139, R140: a due syncpoint is taken and delivered. -/
theorem settlePass_due {now : Nat} {s : State} (hs : s.cur.state ≠ .idle)
    (hn : s.cur.nextState = some .runningSyncpoint) (ht : timeAtOrBefore s.cur.time now = true) :
    settlePass now s = some (fireSyncpoint (promote .runningSyncpoint s)) := by
  simp [settlePass, hs, hn, ht]

/-! ## The loop equation -/

@[simp] theorem stepCell_time {c : Config} {s : State} {t : Nat} (h : s.cur.time = some t) :
    (stepCell c s).cur.time = some (t + c.period) := by
  simp [stepCell, h, advanceLive, finishCell]

theorem period_pos (c : Config) : 0 < c.period := Nat.succ_pos _

theorem cellEnded_iff {c : Config} {limit : Nat} {x : LiveState} :
    cellEnded c limit x = true ↔ ∃ t, x.time = some t ∧ t + c.period ≤ limit := by
  unfold cellEnded
  cases x.time <;> simp

/-- Processing a cell that has ended leaves one cell less to process. -/
theorem cellsEnding_stepCell {c : Config} {limit : Nat} {s : State} (h : cellEnded c limit s.cur = true) :
    cellsEnding c limit s.cur = cellsEnding c limit (stepCell c s).cur + 1 := by
  obtain ⟨t, ht, hle⟩ := cellEnded_iff.mp h
  have hp := period_pos c
  have h2 := stepCell_time (c := c) ht
  unfold cellsEnding
  simp only [ht, h2]
  have : limit - t = (limit - (t + c.period)) + c.period := by omega
  rw [this, Nat.add_div_right _ hp]

theorem cellsEnding_congr {c : Config} {limit : Nat} {x y : LiveState} (h : x.time = y.time) :
    cellsEnding c limit x = cellsEnding c limit y := by
  unfold cellsEnding; rw [h]

/-- R139: `RUN` satisfies its loop equation: the bound on the passes is never what ends it. -/
theorem runEngine_eq (c : Config) (limit now : Nat) (s : State) :
    runEngine c limit now s =
      match settlePass now s with
      | none => s
      | some s' => if cellEnded c limit s'.cur then runEngine c limit now (stepCell c s') else s' := by
  conv_lhs => unfold runEngine runLoop
  cases hp : settlePass now s with
  | none => rfl
  | some s' =>
    by_cases he : cellEnded c limit s'.cur = true
    · simp only [he, if_true]
      rw [cellsEnding_congr (settlePass_time hp).symm, cellsEnding_stepCell he]
      rfl
    · simp [he]

/-- The loop as one induction: whatever a pass keeps and the step after it keeps holds of the result. -/
theorem runEngine_induct {c : Config} {limit now : Nat} (P : State → Prop)
    (hpass : ∀ s s', P s → settlePass now s = some s' → P s')
    (hcell : ∀ s s', P s → settlePass now s = some s' → cellEnded c limit s'.cur = true → P (stepCell c s'))
    {s : State} (h : P s) : P (runEngine c limit now s) := by
  suffices ∀ fuel s, P s → P (runLoop c limit now fuel s) from this _ _ h
  intro fuel
  induction fuel with
  | zero => intro s h; exact h
  | succ n ih =>
    intro s h
    unfold runLoop
    cases hp : settlePass now s with
    | none => exact h
    | some s' =>
      by_cases he : cellEnded c limit s'.cur = true
      · simp only [he, if_true]; exact ih _ (hcell s s' h hp he)
      · simp only [he]; exact hpass s s' h hp

/-- What holds when the loop has ended: `Idle`, a deferred transition not due, or no cell ended. -/
theorem runEngine_ends (c : Config) (limit now : Nat) (s : State) :
    settlePass now (runEngine c limit now s) = none ∨
    ∃ r, settlePass now r = some (runEngine c limit now s) ∧ cellEnded c limit (runEngine c limit now s).cur = false := by
  suffices ∀ n s, cellsEnding c limit s.cur = n → settlePass now (runEngine c limit now s) = none ∨
      ∃ r, settlePass now r = some (runEngine c limit now s) ∧ cellEnded c limit (runEngine c limit now s).cur = false from
    this _ s rfl
  intro n
  induction n with
  | zero =>
    intro s hs
    rw [runEngine_eq]
    cases hp : settlePass now s with
    | none => exact .inl hp
    | some s' =>
      by_cases he : cellEnded c limit s'.cur = true
      · have := cellsEnding_stepCell he
        rw [cellsEnding_congr (settlePass_time hp), hs] at this
        omega
      · simp only [he]; exact .inr ⟨s, hp, by simpa using he⟩
  | succ n ih =>
    intro s hs
    rw [runEngine_eq]
    cases hp : settlePass now s with
    | none => exact .inl hp
    | some s' =>
      by_cases he : cellEnded c limit s'.cur = true
      · simp only [he, if_true]
        have := cellsEnding_stepCell he
        rw [cellsEnding_congr (settlePass_time hp), hs] at this
        exact ih _ (by omega)
      · simp only [he]; exact .inr ⟨s, hp, by simpa using he⟩

/-- R138: `RUN` in `Idle` does nothing. -/
theorem runEngine_idle {c : Config} {limit now : Nat} {s : State} (h : s.cur.state = .idle) :
    runEngine c limit now s = s := by
  rw [runEngine_eq, settlePass_idle h]

/-- A change of a state that the two halves of a pass and a cell do not see: the loop does the same before it and after it. -/
theorem runEngine_commutes {c : Config} {limit now : Nat} (g : State → State) (hcur : ∀ s, (g s).cur = s.cur)
    (hpromote : ∀ e s, promote e (g s) = g (promote e s)) (hfire : ∀ s, fireSyncpoint (g s) = g (fireSyncpoint s))
    (hcell : ∀ s, stepCell c (g s) = g (stepCell c s)) (s : State) :
    runEngine c limit now (g s) = g (runEngine c limit now s) := by
  have hpass : ∀ s, settlePass now (g s) = (settlePass now s).map g := by
    intro s
    unfold settlePass
    rw [hcur]
    split
    · rfl
    · split
      · split
        · split
          · rw [hpromote, hfire]; rfl
          · rw [hpromote]; rfl
        · rfl
      · split
        · rw [hfire]; rfl
        · rfl
  unfold runEngine
  rw [hcur]
  generalize cellsEnding c limit s.cur + 1 = fuel
  induction fuel generalizing s with
  | zero => rfl
  | succ n ih =>
    unfold runLoop
    rw [hpass]
    cases hp : settlePass now s with
    | none => rfl
    | some s' =>
      simp only [Option.map_some, hcur]
      split
      · rw [hcell, ih]
      · rfl

/-- R139: the limit of the loop is its argument, not the limit port. -/
theorem runEngine_setLimit {c : Config} {limit now : Nat} (l : Nat) (s : State) :
    runEngine c limit now { s with limit := l } = { runEngine c limit now s with limit := l } :=
  runEngine_commutes (fun s => { s with limit := l }) (fun _ => rfl) (fun _ _ => rfl) (fun _ => rfl)
    (fun s => by unfold stepCell; cases s.cur.time <;> rfl) s

/-- R139: the `now` of the loop is its argument, not `last_now`. -/
theorem runEngine_setLastNow {c : Config} {limit now : Nat} (n : Nat) (s : State) :
    runEngine c limit now { s with lastNow := n } = { runEngine c limit now s with lastNow := n } :=
  runEngine_commutes (fun s => { s with lastNow := n }) (fun _ => rfl) (fun _ _ => rfl) (fun _ => rfl)
    (fun s => by unfold stepCell; cases s.cur.time <;> rfl) s

/-- R139: `RUN` up to the end of the pending cell is that cell, and the delivery of the syncpoint it defers. -/
theorem runEngine_oneCell {c : Config} {s : State} {a : Nat} (hs : s.cur.state = .running) (hn : s.cur.nextState = none)
    (ha : s.cur.time = some a) :
    runEngine c (a + c.period) (a + c.period) s =
      if (stepCell c s).cur.nextState = some .runningSyncpoint
      then fireSyncpoint (promote .runningSyncpoint (stepCell c s)) else stepCell c s := by
  have hp := period_pos c
  have he : cellEnded c (a + c.period) s.cur = true := cellEnded_iff.mpr ⟨a, ha, le_refl _⟩
  have ht : (stepCell c s).cur.time = some (a + c.period) := stepCell_time ha
  have hst : (stepCell c s).cur.state = .running := by
    simp only [stepCell, ha, advanceLive, finishCell, shiftCell, refreshLive, queueBit]; (repeat' split) <;> exact hs
  have hnx : (stepCell c s).cur.nextState = none ∨ (stepCell c s).cur.nextState = some .runningSyncpoint := by
    simp only [stepCell, ha, advanceLive, finishCell, shiftCell, refreshLive, queueBit]
    (repeat' split) <;> simp [hn]
  have hend : ∀ r : State, r.cur.time = some (a + c.period) → cellEnded c (a + c.period) r.cur = false := by
    intro r hr
    rw [Bool.eq_false_iff]; intro h
    obtain ⟨u, hu, hle⟩ := cellEnded_iff.mp h
    rw [hr] at hu; cases hu; omega
  rw [runEngine_eq, settlePass_quiet hs hn]
  simp only [he, if_true]
  rw [runEngine_eq]
  rcases hnx with h | h
  · rw [settlePass_quiet hst h]; simp [hend _ ht, h]
  · have : settlePass (a + c.period) (stepCell c s) = some (fireSyncpoint (promote .runningSyncpoint (stepCell c s))) := by
      simp [settlePass, hst, h, ht, timeAtOrBefore]
    rw [this]; simp only [h, if_true]
    rw [if_neg]
    rw [hend _ (by simpa using ht)]; simp

end Sys2Proof.Machine
end

