-- ==== Sys2Proof/Laws/Frames.lean ====
section
/-! SUPPORT. What the shared operations leave unchanged: the frames of a cell, the stepping loop, commit, checkpoint and sync. -/

namespace Sys2Proof.Machine

/-- Two states that agree on everything but the live copy, the cached edge and the events. -/
def sameBesideCell (s t : State) : Prop :=
  { t with cur := s.cur, nextEdge := s.nextEdge, events := s.events } = s

theorem sameBesideCell_refl (s : State) : sameBesideCell s s := rfl

theorem sameBesideCell_trans {s t u : State} (h : sameBesideCell s t) (k : sameBesideCell t u) : sameBesideCell s u := by
  unfold sameBesideCell at *; rw [← h, ← k]

theorem sameBesideCell.same_chk {s t : State} (h : sameBesideCell s t) : t.chk = s.chk := by rw [← h]
theorem sameBesideCell.same_drives {s t : State} (h : sameBesideCell s t) : t.drives = s.drives := by rw [← h]
theorem sameBesideCell.same_stepperEnable {s t : State} (h : sameBesideCell s t) : t.stepperEnable = s.stepperEnable := by rw [← h]
theorem sameBesideCell.same_spindleCtl {s t : State} (h : sameBesideCell s t) : t.spindleCtl = s.spindleCtl := by rw [← h]
theorem sameBesideCell.same_lastNow {s t : State} (h : sameBesideCell s t) : t.lastNow = s.lastNow := by rw [← h]
theorem sameBesideCell.same_fault {s t : State} (h : sameBesideCell s t) : t.fault = s.fault := by rw [← h]
theorem sameBesideCell.same_medium {s t : State} (h : sameBesideCell s t) : t.medium = s.medium := by rw [← h]
theorem sameBesideCell.same_queue {s t : State} (h : sameBesideCell s t) : t.queue = s.queue := by rw [← h]
theorem sameBesideCell.same_now {s t : State} (h : sameBesideCell s t) : t.now = s.now := by rw [← h]
theorem sameBesideCell.same_limit {s t : State} (h : sameBesideCell s t) : t.limit = s.limit := by rw [← h]
theorem sameBesideCell.same_index {s t : State} (h : sameBesideCell s t) : t.index = s.index := by rw [← h]
theorem sameBesideCell.same_result {s t : State} (h : sameBesideCell s t) : t.result = s.result := by rw [← h]

theorem settlePass_frame {now : Nat} {s s' : State} (h : settlePass now s = some s') : sameBesideCell s s' := by
  rcases (settlePass_cases h).2 with ⟨-, -, rfl⟩ | ⟨-, -, rfl⟩ | ⟨-, -, rfl⟩ | ⟨t, -, -, -, rfl⟩ <;> rfl

theorem stepCell_frame (c : Config) (s : State) : sameBesideCell s (stepCell c s) := by
  unfold stepCell; split <;> rfl

/-- R139: the stepping loop writes the live copy, the cached edge and the events, and nothing else. -/
theorem runEngine_frame (c : Config) (limit now : Nat) (s : State) : sameBesideCell s (runEngine c limit now s) :=
  runEngine_induct (P := sameBesideCell s)
    (fun _ _ h hp => sameBesideCell_trans h (settlePass_frame hp))
    (fun _ s' h hp _ => sameBesideCell_trans (sameBesideCell_trans h (settlePass_frame hp)) (stepCell_frame c s'))
    (sameBesideCell_refl s)

@[simp] theorem runEngine_chk (c : Config) (limit now : Nat) (s : State) : (runEngine c limit now s).chk = s.chk :=
  (runEngine_frame c limit now s).same_chk
@[simp] theorem runEngine_drives (c : Config) (limit now : Nat) (s : State) : (runEngine c limit now s).drives = s.drives :=
  (runEngine_frame c limit now s).same_drives
@[simp] theorem runEngine_stepperEnable (c : Config) (limit now : Nat) (s : State) : (runEngine c limit now s).stepperEnable = s.stepperEnable :=
  (runEngine_frame c limit now s).same_stepperEnable
@[simp] theorem runEngine_spindleCtl (c : Config) (limit now : Nat) (s : State) : (runEngine c limit now s).spindleCtl = s.spindleCtl :=
  (runEngine_frame c limit now s).same_spindleCtl
@[simp] theorem runEngine_lastNow (c : Config) (limit now : Nat) (s : State) : (runEngine c limit now s).lastNow = s.lastNow :=
  (runEngine_frame c limit now s).same_lastNow
@[simp] theorem runEngine_fault (c : Config) (limit now : Nat) (s : State) : (runEngine c limit now s).fault = s.fault :=
  (runEngine_frame c limit now s).same_fault
@[simp] theorem runEngine_medium (c : Config) (limit now : Nat) (s : State) : (runEngine c limit now s).medium = s.medium :=
  (runEngine_frame c limit now s).same_medium
@[simp] theorem runEngine_queue (c : Config) (limit now : Nat) (s : State) : (runEngine c limit now s).queue = s.queue :=
  (runEngine_frame c limit now s).same_queue
@[simp] theorem runEngine_now (c : Config) (limit now : Nat) (s : State) : (runEngine c limit now s).now = s.now :=
  (runEngine_frame c limit now s).same_now
@[simp] theorem runEngine_limit (c : Config) (limit now : Nat) (s : State) : (runEngine c limit now s).limit = s.limit :=
  (runEngine_frame c limit now s).same_limit
@[simp] theorem runEngine_index (c : Config) (limit now : Nat) (s : State) : (runEngine c limit now s).index = s.index :=
  (runEngine_frame c limit now s).same_index
@[simp] theorem runEngine_result (c : Config) (limit now : Nat) (s : State) : (runEngine c limit now s).result = s.result :=
  (runEngine_frame c limit now s).same_result

/-! ## The latches of the live copy -/

/-- R16, R17: the fields that only front-end operations write, and the write interval's start. -/
def sameLatchesAndStart (x y : LiveState) : Prop :=
  x.drive = y.drive ∧ x.side = y.side ∧ x.writeGate = y.writeGate ∧ x.writeData = y.writeData ∧
    x.writeSyncGate = y.writeSyncGate ∧ x.eraseGate = y.eraseGate ∧ x.writeStartTime = y.writeStartTime

theorem sameLatchesAndStart_trans {x y z : LiveState} (h : sameLatchesAndStart x y) (k : sameLatchesAndStart y z) :
    sameLatchesAndStart x z := by
  obtain ⟨h1, h2, h3, h4, h5, h6, h7⟩ := h
  obtain ⟨k1, k2, k3, k4, k5, k6, k7⟩ := k
  exact ⟨h1.trans k1, h2.trans k2, h3.trans k3, h4.trans k4, h5.trans k5, h6.trans k6, h7.trans k7⟩

theorem advanceLive_latches (c : Config) (t : Nat) (b : Bool) (x : LiveState) :
    sameLatchesAndStart x (advanceLive c t b x) := by
  simp only [sameLatchesAndStart, advanceLive, finishCell, shiftCell, refreshLive, queueBit]
  refine ⟨?_, ?_, ?_, ?_, ?_, ?_, ?_⟩ <;> (split <;> first | rfl | (split <;> rfl))

theorem stepCell_latches (c : Config) (s : State) : sameLatchesAndStart s.cur (stepCell c s).cur := by
  unfold stepCell
  split
  · exact ⟨rfl, rfl, rfl, rfl, rfl, rfl, rfl⟩
  · exact advanceLive_latches ..

theorem settlePass_latches {now : Nat} {s s' : State} (h : settlePass now s = some s') :
    sameLatchesAndStart s.cur s'.cur := by
  rcases (settlePass_cases h).2 with ⟨-, -, rfl⟩ | ⟨-, -, rfl⟩ | ⟨-, -, rfl⟩ | ⟨t, -, -, -, rfl⟩ <;>
    exact ⟨rfl, rfl, rfl, rfl, rfl, rfl, rfl⟩

/-- The stepping loop writes no latch. -/
theorem runEngine_latches (c : Config) (limit now : Nat) (s : State) :
    sameLatchesAndStart s.cur (runEngine c limit now s).cur :=
  runEngine_induct (P := fun r => sameLatchesAndStart s.cur r.cur)
    (fun _ _ h hp => sameLatchesAndStart_trans h (settlePass_latches hp))
    (fun _ s' h hp _ => sameLatchesAndStart_trans (sameLatchesAndStart_trans h (settlePass_latches hp)) (stepCell_latches c s'))
    ⟨rfl, rfl, rfl, rfl, rfl, rfl, rfl⟩

/-! ## Commit -/

/-- Everything `COMMIT` can do: nothing, a violation, or a commit (R124, R43). -/
theorem commitWrites_cases (s : State) :
    (commitWrites s = s ∧ ∀ w t, s.cur.writeStartTime = some w → s.cur.time = some t → t ≤ w) ∨
    ∃ w t, s.cur.writeStartTime = some w ∧ s.cur.time = some t ∧ w < t ∧
      ((s.fault = none ∧ (s.drv s.cur.drive).medium = false ∧
          commitWrites s = { s with fault := some (.commitNoMedium s.cur.drive) }) ∨
       ((s.drv s.cur.drive).medium = false ∧ s.fault ≠ none ∧ commitWrites s = s) ∨
       ((s.drv s.cur.drive).medium = true ∧
          commitWrites s = (emit (.commit s.track w t s.cur.writeBuffer)
            { s with medium := mediumReplace s.medium s.track w t s.cur.writeBuffer }).andThen (closeInterval t))) := by
  unfold commitWrites
  cases hw : s.cur.writeStartTime with
  | none => exact .inl ⟨rfl, by intro w t h; cases h⟩
  | some w =>
    cases ht : s.cur.time with
    | none => exact .inl ⟨rfl, by intro w t _ h; cases h⟩
    | some t =>
      by_cases hlt : w < t
      · refine .inr ⟨w, t, rfl, rfl, hlt, ?_⟩
        simp only [hlt, if_true]
        cases hm : (s.drv s.cur.drive).medium with
        | true => refine .inr (.inr ⟨rfl, ?_⟩); simp [fluxCommit, State.track, hm]
        | false =>
          cases hf : s.fault with
          | none =>
            refine .inl ⟨rfl, rfl, ?_⟩
            simp [fluxCommit, State.track, hm, raise, hf, State.andThen]
          | some v =>
            refine .inr (.inl ⟨rfl, by simp, ?_⟩)
            simp [fluxCommit, State.track, hm, raise, hf, State.andThen]
      · refine .inl ⟨by simp [hlt], ?_⟩
        intro w' t' h1 h2
        cases h1; cases h2; omega

/-- R124: `COMMIT` does not read the limit port. -/
theorem commitWrites_setLimit (l : Nat) (s : State) : commitWrites { s with limit := l } = { commitWrites s with limit := l } := by
  rcases s with ⟨cur, chk, ne, dr, se, sc, ln, fa, ev, me, qu, no, li, ix, re⟩
  unfold commitWrites fluxCommit raise State.andThen emit State.track State.drv closeInterval State.setCur
  cases cur.writeStartTime <;> cases cur.time <;> simp only
  split
  · cases (dr.get cur.drive).medium <;> cases fa <;> rfl
  · rfl

/-- Two states that agree on everything but the live copy, the events, the media and the violation. -/
def sameBesideCommit (s t : State) : Prop :=
  { t with cur := s.cur, events := s.events, medium := s.medium, fault := s.fault } = s

theorem commitWrites_frame (s : State) : sameBesideCommit s (commitWrites s) := by
  rcases commitWrites_cases s with ⟨h, -⟩ | ⟨w, t, -, -, -, ⟨-, -, h⟩ | ⟨-, -, h⟩ | ⟨-, h⟩⟩
  · rw [h]; rfl
  · rw [h]; rfl
  · rw [h]; rfl
  · rw [h]
    rcases andThen_cases (emit (.commit s.track w t s.cur.writeBuffer)
      { s with medium := mediumReplace s.medium s.track w t s.cur.writeBuffer }) (closeInterval t) with ⟨-, k⟩ | ⟨-, k⟩ <;>
    rw [k] <;> rfl

@[simp] theorem commitWrites_chk (s : State) : (commitWrites s).chk = s.chk := by
  conv_rhs => rw [← commitWrites_frame s]
@[simp] theorem commitWrites_nextEdge (s : State) : (commitWrites s).nextEdge = s.nextEdge := by
  conv_rhs => rw [← commitWrites_frame s]
@[simp] theorem commitWrites_drives (s : State) : (commitWrites s).drives = s.drives := by
  conv_rhs => rw [← commitWrites_frame s]
@[simp] theorem commitWrites_stepperEnable (s : State) : (commitWrites s).stepperEnable = s.stepperEnable := by
  conv_rhs => rw [← commitWrites_frame s]
@[simp] theorem commitWrites_spindleCtl (s : State) : (commitWrites s).spindleCtl = s.spindleCtl := by
  conv_rhs => rw [← commitWrites_frame s]
@[simp] theorem commitWrites_lastNow (s : State) : (commitWrites s).lastNow = s.lastNow := by
  conv_rhs => rw [← commitWrites_frame s]
@[simp] theorem commitWrites_queue (s : State) : (commitWrites s).queue = s.queue := by
  conv_rhs => rw [← commitWrites_frame s]
@[simp] theorem commitWrites_now (s : State) : (commitWrites s).now = s.now := by
  conv_rhs => rw [← commitWrites_frame s]
@[simp] theorem commitWrites_limit (s : State) : (commitWrites s).limit = s.limit := by
  conv_rhs => rw [← commitWrites_frame s]
@[simp] theorem commitWrites_index (s : State) : (commitWrites s).index = s.index := by
  conv_rhs => rw [← commitWrites_frame s]
@[simp] theorem commitWrites_result (s : State) : (commitWrites s).result = s.result := by
  conv_rhs => rw [← commitWrites_frame s]

/-- What `COMMIT` does to the live copy: nothing, or the interval closes at the pending boundary (R124). -/
theorem commitWrites_cur (s : State) : (commitWrites s).cur = s.cur ∨
    ∃ w t, s.cur.writeStartTime = some w ∧ s.cur.time = some t ∧ w < t ∧
      (commitWrites s).cur = { s.cur with writeStartTime := some t, writeBuffer := [], writePosition := 0 } := by
  rcases commitWrites_cases s with ⟨h, -⟩ | ⟨w, t, hw, ht, hlt, ⟨-, -, h⟩ | ⟨-, -, h⟩ | ⟨-, h⟩⟩
  · rw [h]; exact .inl rfl
  · rw [h]; exact .inl rfl
  · rw [h]; exact .inl rfl
  · rw [h]
    rcases andThen_cases (emit (.commit s.track w t s.cur.writeBuffer)
      { s with medium := mediumReplace s.medium s.track w t s.cur.writeBuffer }) (closeInterval t) with ⟨-, k⟩ | ⟨-, k⟩
    · rw [k]; exact .inr ⟨w, t, hw, ht, hlt, rfl⟩
    · rw [k]; exact .inl rfl

theorem commitWrites_latches (s : State) : sameLatches s.cur (commitWrites s).cur := by
  rcases commitWrites_cur s with h | ⟨w, t, -, -, -, h⟩ <;> rw [h] <;> exact ⟨rfl, rfl, rfl, rfl, rfl, rfl⟩

@[simp] theorem commitWrites_time (s : State) : (commitWrites s).cur.time = s.cur.time := by
  rcases commitWrites_cur s with h | ⟨w, t, -, -, -, h⟩ <;> rw [h]

@[simp] theorem commitWrites_state (s : State) : (commitWrites s).cur.state = s.cur.state := by
  rcases commitWrites_cur s with h | ⟨w, t, -, -, -, h⟩ <;> rw [h]

/-- A commit that can be made takes no violation. -/
theorem commitWrites_fault {s : State} (h : canCommit s) : (commitWrites s).fault = s.fault := by
  rcases commitWrites_cases s with ⟨k, -⟩ | ⟨w, t, hw, ht, hlt, ⟨-, hm, k⟩ | ⟨-, -, k⟩ | ⟨-, k⟩⟩
  · rw [k]
  · rw [h w t hw ht hlt] at hm; cases hm
  · rw [k]
  · rw [k]
    rcases andThen_cases (emit (.commit s.track w t s.cur.writeBuffer)
      { s with medium := mediumReplace s.medium s.track w t s.cur.writeBuffer }) (closeInterval t) with ⟨-, e⟩ | ⟨-, e⟩ <;>
    rw [e] <;> rfl

/-- An empty interval commits nothing (R124). -/
theorem commitWrites_nothing {s : State} (h : s.cur.writeStartTime = none ∨ s.cur.writeStartTime = s.cur.time) :
    commitWrites s = s := by
  rcases commitWrites_cases s with ⟨k, -⟩ | ⟨w, t, hw, ht, hlt, -⟩
  · exact k
  · rcases h with h | h
    · rw [h] at hw; cases hw
    · rw [h, ht] at hw; cases hw; omega

theorem commitWrites_medium_wf {s : State} (h : Medium.wf s.medium) : Medium.wf (commitWrites s).medium := by
  rcases commitWrites_cases s with ⟨k, -⟩ | ⟨w, t, -, -, -, ⟨-, -, k⟩ | ⟨-, -, k⟩ | ⟨-, k⟩⟩
  · rw [k]; exact h
  · rw [k]; exact h
  · rw [k]; exact h
  · rw [k]
    rcases andThen_cases (emit (.commit s.track w t s.cur.writeBuffer)
      { s with medium := mediumReplace s.medium s.track w t s.cur.writeBuffer }) (closeInterval t) with ⟨-, e⟩ | ⟨-, e⟩ <;>
    rw [e] <;> exact mediumReplace_wf h ..

end Sys2Proof.Machine
end

