-- ==== Sys2Proof/Laws/Edge.lean ====
section
/-! SUPPORT. The cached flux edge (spec/10_state.md R24, spec/20_memory.md R53): a bit cell and the stepping loop keep it
right while the engine reads. -/

namespace Sys2Proof.Machine

variable {c : Config}

theorem fluxNext_congr {s t : State} (hd : s.drives = t.drives) (hm : s.medium = t.medium) (tr : Track) (u : Nat) :
    fluxNext s tr u = fluxNext t tr u := by
  unfold fluxNext; rw [drv_congr hd, hm]

theorem track_congr {s t : State} (hd : s.drives = t.drives) (h1 : s.cur.drive = t.cur.drive)
    (h2 : s.cur.side = t.cur.side) : s.track = t.track := by
  unfold State.track; rw [h1, h2, drv_congr hd]

/-- R110: the cached edge after a read cell is the first transition at or after its end. -/
theorem edgeAfterRead_eq {s : State} {t : Nat} (hwf : Medium.wf s.medium) (he : s.nextEdge = fluxNext s s.track t) :
    edgeAfterRead c t s = fluxNext s s.track (t + c.period) := by
  have hp := period_pos c
  unfold edgeAfterRead
  rw [he]
  unfold fluxNext
  cases hm : (s.drv s.track.drive).medium <;> simp
  cases hn : mediumNext s.medium s.track t with
  | none => exact (mediumNext_none_later _ hn (by omega)).symm
  | some x =>
    by_cases hx : x < t + c.period <;> simp [hx]
    exact (mediumNext_later hwf _ hn (by omega) (by omega)).symm

theorem stepCell_edgeValid {s : State} (hwf : Medium.wf s.medium) (hv : edgeValid s) : edgeValid (stepCell c s) := by
  intro t ht hg
  cases hs : s.cur.time with
  | none =>
    have : stepCell c s = s := by simp [stepCell, hs]
    rw [this] at ht hg ⊢; exact hv t ht hg
  | some a =>
    rw [stepCell_time hs] at ht; cases ht
    obtain ⟨l1, l2, l3, -⟩ := stepCell_latches c s
    have hg' : s.cur.writeGate = false := by rw [l3]; exact hg
    rw [track_congr (stepCell_drives c s) l1.symm l2.symm, fluxNext_congr (stepCell_drives c s) (stepCell_medium c s),
      ← edgeAfterRead_eq hwf (hv a hs hg')]
    simp [stepCell, hs, hg']

theorem settlePass_edgeValid {now : Nat} {s s' : State} (h : settlePass now s = some s') (hv : edgeValid s) :
    edgeValid s' := by
  rcases (settlePass_cases h).2 with ⟨-, -, rfl⟩ | ⟨-, -, rfl⟩ | ⟨-, -, rfl⟩ | ⟨t, -, -, -, rfl⟩ <;> exact hv

theorem runEngine_edgeValid {limit now : Nat} {s : State} (hwf : Medium.wf s.medium) (hv : edgeValid s) :
    edgeValid (runEngine c limit now s) := by
  have : Medium.wf (runEngine c limit now s).medium ∧ edgeValid (runEngine c limit now s) :=
    runEngine_induct (P := fun r => Medium.wf r.medium ∧ edgeValid r)
      (fun _ _ k hp => ⟨by rw [(settlePass_frame hp).same_medium]; exact k.1, settlePass_edgeValid hp k.2⟩)
      (fun _ s' k hp _ => by
        have w : Medium.wf s'.medium := by rw [(settlePass_frame hp).same_medium]; exact k.1
        exact ⟨by rw [stepCell_medium]; exact w, stepCell_edgeValid w (settlePass_edgeValid hp k.2)⟩)
      ⟨hwf, hv⟩
  exact this.2

end Sys2Proof.Machine
end

