-- ==== Sys2Proof/Laws/Live.lean ====
section
/-! SUPPORT. The invariant of the live copy under each shared operation (spec/10_state.md R21, R22). -/

namespace Sys2Proof.Machine

variable {c : Config}

/-! ## Consequences -/

/-- With nothing deferred no change flag is set (R102). -/
theorem LiveInv.changed_clear {x : LiveState} (h : LiveInv c x) (hn : x.nextState = none) : x.changed = .clear := by
  have : x.changed.any = false := by
    by_contra hc
    have := h.change_is_deferred (by simpa using hc)
    rw [hn] at this; cases this
  generalize x.changed = y at this
  obtain ⟨a, b, d, e, f⟩ := y
  simp only [StatusFlags.any, Bool.or_eq_false_iff] at this
  obtain ⟨⟨⟨⟨rfl, rfl⟩, rfl⟩, rfl⟩, rfl⟩ := this
  rfl

theorem LiveInv.running_of_not_idle {x : LiveState} (h : LiveInv c x) (hs : x.state ≠ .idle) : x.state = .running := by
  cases hx : x.state
  · exact absurd hx hs
  · rfl
  · exact absurd hx h.not_at_syncpoint

theorem LiveInv.time_some {x : LiveState} (h : LiveInv c x) (hs : x.state ≠ .idle) : ∃ t, x.time = some t := by
  cases hx : x.time with
  | none => exact absurd (h.time_never_iff_idle.mp hx) hs
  | some t => exact ⟨t, rfl⟩

theorem LiveInv.not_idle_of_time {x : LiveState} (h : LiveInv c x) {t : Nat} (ht : x.time = some t) : x.state ≠ .idle := by
  intro hi
  rw [h.time_never_iff_idle.mpr hi] at ht; cases ht

/-- An interval that is not open, or is empty, has nothing queued. -/
theorem LiveInv.buffer_empty {x : LiveState} (h : LiveInv c x)
    (hw : x.writeStartTime = none ∨ x.writeStartTime = x.time) : x.writeBuffer = [] := by
  rw [List.eq_nil_iff_forall_not_mem]
  intro t ht
  obtain ⟨w, n, h1, h2, h3, h4⟩ := h.buffer_in_interval t ht
  rcases hw with hw | hw
  · rw [hw] at h1; cases h1
  · rw [hw, h2] at h1; cases h1; omega

theorem LiveInv.position_zero {x : LiveState} (h : LiveInv c x)
    (hw : x.writeStartTime = none ∨ x.writeStartTime = x.time) : x.writePosition = 0 := by
  rw [h.position_is_length, h.buffer_empty hw]; rfl

/-- R83: `REFRESH` finds nothing to do. -/
theorem LiveInv.refresh_self {x : LiveState} (h : LiveInv c x) : refreshLive c x = x := by
  unfold refreshLive
  rw [← h.codec_input, ← h.codec_output]

/-! ## One cell -/

theorem advanceLive_liveInv {x : LiveState} (h : LiveInv c x) (hs : x.state = .running) (hn : x.nextState = none) {t : Nat}
    (ht : x.time = some t) (b : Bool) : LiveInv c (advanceLive c t b x) := by
  have hbuf : ∀ u ∈ x.writeBuffer, u < t := by
    intro u hu
    obtain ⟨w, n, _, h2, _, h4⟩ := h.buffer_in_interval u hu
    rw [ht] at h2; cases h2; exact h4
  have hp := period_pos c
  have hstart : x.writeGate = true → ∃ w, x.writeStartTime = some w ∧ w ≤ t := by
    intro hg
    cases hw : x.writeStartTime with
    | none =>
      rcases h.interval_open_iff_writing.mp hw with hf | hf
      · rw [hf] at hg; cases hg
      · rw [hf] at hs; cases hs
    | some w => exact ⟨w, rfl, h.interval_ordered w t hw ht⟩
  -- the live copy with the emitted bit queued
  obtain ⟨y, hy⟩ : ∃ y, y = (if x.writeGate then queueBit c t x else x) := ⟨_, rfl⟩
  have hyx : y = { x with writeBuffer := y.writeBuffer, writePosition := y.writePosition } := by
    rw [hy]; unfold queueBit; split
    · split <;> rfl
    · rfl
  have hypos : y.writePosition = y.writeBuffer.length := by
    rw [hy]; unfold queueBit; split
    · split
      · simp [h.position_is_length]
      · exact h.position_is_length
    · exact h.position_is_length
  have hyrise : y.writeBuffer.Pairwise (· < ·) := by
    rw [hy]; unfold queueBit; split
    · split
      · refine List.pairwise_append.mpr ⟨h.buffer_rising, by simp, ?_⟩
        intro u hu v hv
        rw [List.mem_singleton] at hv; subst hv; exact hbuf u hu
      · exact h.buffer_rising
    · exact h.buffer_rising
  have hyin : ∀ u ∈ y.writeBuffer, ∃ w, x.writeStartTime = some w ∧ w ≤ u ∧ u < t + c.period := by
    have old : ∀ u ∈ x.writeBuffer, ∃ w, x.writeStartTime = some w ∧ w ≤ u ∧ u < t + c.period := by
      intro u hu
      obtain ⟨w, n, h1, _, h3, _⟩ := h.buffer_in_interval u hu
      exact ⟨w, h1, h3, by have := hbuf u hu; omega⟩
    rw [hy]; unfold queueBit; split
    · rename_i hg
      split
      · intro u hu
        rcases List.mem_append.mp hu with hu | hu
        · exact old u hu
        · rw [List.mem_singleton] at hu; subst hu
          obtain ⟨w, hw, hle⟩ := hstart hg
          exact ⟨w, hw, hle, by omega⟩
      · exact old
    · exact old
  have hadv : advanceLive c t b x = finishCell c t x (shiftCell c b y) := by rw [hy]; rfl
  rw [hadv]
  constructor
  · rw [hyx]; simp [finishCell, shiftCell, refreshLive, hs]
  · rw [hyx]; simp [finishCell, shiftCell, refreshLive, hs]
  · simp only [finishCell]
    split
    · exact .inr rfl
    · exact .inl hn
  · intro hi; rw [hyx] at hi; simp [finishCell, shiftCell, refreshLive, hs] at hi
  · intro hany
    simp only [finishCell] at hany ⊢
    rw [if_pos hany]
  · have := h.bit_counters_equal
    rw [hyx]; simp [finishCell, shiftCell, refreshLive, this]
  · rfl
  · rfl
  · exact hypos
  · exact hyrise
  · intro u hu
    obtain ⟨w, h1, h2, h3⟩ := hyin u hu
    refine ⟨w, t + c.period, ?_, rfl, h2, h3⟩
    rw [hyx]; exact h1
  · have := h.interval_open_iff_writing
    rw [hyx]; simpa [finishCell, shiftCell, refreshLive] using this
  · intro w n h1 h2
    rw [hyx] at h1
    have h1' : x.writeStartTime = some w := h1
    have := h.interval_ordered w t h1' ht
    simp only [finishCell, Option.some.injEq] at h2
    omega

theorem stepCell_liveInv {s : State} (h : LiveInv c s.cur) (hs : s.cur.state = .running) (hn : s.cur.nextState = none) :
    LiveInv c (stepCell c s).cur := by
  obtain ⟨t, ht⟩ := h.time_some (by rw [hs]; decide)
  have : (stepCell c s).cur = advanceLive c t (cellBit c t s) s.cur := by simp [stepCell, ht]
  rw [this]
  exact advanceLive_liveInv h hs hn ht _

/-- A cell leaves the engine running. -/
theorem stepCell_state (s : State) : (stepCell c s).cur.state = s.cur.state := by
  unfold stepCell
  split
  · rfl
  · simp only [advanceLive, finishCell, shiftCell, refreshLive, queueBit]
    split <;> first | rfl | (split <;> rfl)

/-! ## The stepping loop -/

/-- After the first half of a pass the engine runs, with nothing deferred. -/
theorem settlePass_runs {now : Nat} {s s' : State} (h : LiveInv c s.cur) (hp : settlePass now s = some s') :
    s'.cur.state = .running ∧ s'.cur.nextState = none ∧ LiveInv c s'.cur := by
  obtain ⟨hidle, hc⟩ := settlePass_cases hp
  have hr := h.running_of_not_idle hidle
  rcases hc with ⟨hn, -, rfl⟩ | ⟨-, hs, -⟩ | ⟨hn, -, rfl⟩ | ⟨t, ht, hne, -, -⟩
  · exact ⟨hr, hn, h⟩
  · exact absurd hs h.not_at_syncpoint
  · refine ⟨rfl, rfl, ?_⟩
    refine { h with
      time_never_iff_idle := ?_, not_at_syncpoint := ?_, deferred_value := .inl rfl, idle_defers_nothing := fun _ => rfl,
      change_is_deferred := ?_, interval_open_iff_writing := ?_ }
    · have := h.time_never_iff_idle
      rw [hr] at this; simpa using this
    · simp
    · intro hh; cases hh
    · have := h.interval_open_iff_writing
      rw [hr] at this; simpa using this
  · rcases h.deferred_value with hd | hd
    · rw [hd] at ht; cases ht
    · rw [hd] at ht; cases ht; exact absurd rfl hne

theorem runEngine_liveInv {limit now : Nat} {s : State} (h : LiveInv c s.cur) : LiveInv c (runEngine c limit now s).cur :=
  runEngine_induct (P := fun r => LiveInv c r.cur)
    (fun _ _ h hp => (settlePass_runs h hp).2.2)
    (fun _ _ h hp _ => have k := settlePass_runs h hp; stepCell_liveInv k.2.2 k.1 k.2.1)
    h

/-- The loop neither starts nor stops the engine. -/
theorem runEngine_idle_iff {limit now : Nat} {s : State} (h : LiveInv c s.cur) :
    (runEngine c limit now s).cur.state = .idle ↔ s.cur.state = .idle := by
  constructor
  · intro hr
    by_contra hs
    have : LiveInv c (runEngine c limit now s).cur ∧ (runEngine c limit now s).cur.state ≠ .idle :=
      runEngine_induct (P := fun r => LiveInv c r.cur ∧ r.cur.state ≠ .idle)
        (fun _ _ h hp => have k := settlePass_runs h.1 hp; ⟨k.2.2, by rw [k.1]; decide⟩)
        (fun _ _ h hp _ => have k := settlePass_runs h.1 hp
          ⟨stepCell_liveInv k.2.2 k.1 k.2.1, by rw [stepCell_state, k.1]; decide⟩)
        ⟨h, hs⟩
    exact this.2 hr
  · intro hs; rw [runEngine_idle hs]; exact hs

/-- A loop whose limit is real time does not pass it. -/
theorem runEngine_not_ahead {limit now : Nat} {s : State} (hle : ∀ t, s.cur.time = some t → t ≤ limit) :
    ∀ t, (runEngine c limit now s).cur.time = some t → t ≤ limit :=
  runEngine_induct (P := fun r => ∀ t, r.cur.time = some t → t ≤ limit)
    (fun _ _ h hp t ht => h t (by rw [← settlePass_time hp]; exact ht))
    (fun _ s' _ _ he t ht => by
      obtain ⟨u, hu, hle⟩ := cellEnded_iff.mp he
      rw [stepCell_time hu] at ht; cases ht; exact hle)
    hle

/-- R139: after `RUN` with `limit = now`, from a boundary at or before `now`, the live copy is settled. -/
theorem runEngine_settled {now : Nat} {s : State} (h : LiveInv c s.cur)
    (hle : ∀ t, s.cur.time = some t → t ≤ now) : settled c now (runEngine c now now s).cur = true := by
  have hinv := runEngine_liveInv (limit := now) (now := now) h
  have hle' := runEngine_not_ahead (c := c) (limit := now) (now := now) hle
  rcases runEngine_ends c now now s with hn | ⟨r, hr, he⟩
  · rcases settlePass_none hn with hi | ⟨hd, hnd⟩
    · simp [settled, hi]
    · cases ht : (runEngine c now now s).cur.time with
      | none => simp [settled, hinv.time_never_iff_idle.mp ht]
      | some t => rw [ht] at hnd; simp [timeAtOrBefore] at hnd; have := hle' t ht; omega
  · by_cases hi : (runEngine c now now s).cur.state = .idle
    · simp [settled, hi]
    have hrun := hinv.running_of_not_idle hi
    obtain ⟨t, ht⟩ := hinv.time_some hi
    have hnext : (runEngine c now now s).cur.nextState = none := by
      cases hnx : (runEngine c now now s).cur.nextState with
      | none => rfl
      | some v =>
        exfalso
        rcases (settlePass_cases hr).2 with ⟨a, -, b⟩ | ⟨a, -, b⟩ | ⟨-, -, b⟩ | ⟨_, -, -, -, b⟩
        · rw [b, a] at hnx; cases hnx
        · rw [b] at hnx; simp [a] at hnx
        · rw [b] at hnx; simp at hnx
        · rw [b] at hnx; simp at hnx
    simp [settled, hrun, hnext, hinv.changed_clear hnext, he, ht, timeAtOrBefore, hle' t ht]

/-! ## Commit -/

/-- Closing the interval at the pending boundary keeps the invariant. -/
theorem LiveInv.closed {x : LiveState} (h : LiveInv c x) {w t : Nat} (hw : x.writeStartTime = some w) (ht : x.time = some t) :
    LiveInv c { x with writeStartTime := some t, writeBuffer := [], writePosition := 0 } := by
  refine { h with
    position_is_length := rfl, buffer_rising := List.Pairwise.nil, buffer_in_interval := by simp,
    interval_open_iff_writing := ?_, interval_ordered := ?_ }
  · have := h.interval_open_iff_writing
    rw [hw] at this; simpa using this
  · intro w' n h1 h2
    simp only [Option.some.injEq] at h1
    rw [show ({ x with writeStartTime := some t, writeBuffer := [], writePosition := 0 } : LiveState).time = x.time from rfl,
      ht] at h2
    cases h2; omega

theorem commitWrites_liveInv {s : State} (h : LiveInv c s.cur) : LiveInv c (commitWrites s).cur := by
  rcases commitWrites_cur s with k | ⟨w, t, hw, ht, -, k⟩
  · rw [k]; exact h
  · rw [k]; exact h.closed hw ht

end Sys2Proof.Machine
end

