-- ==== Sys2Proof/Laws/Sync.lean ====
section
/-! SUPPORT. `SYNC`, `CHECKPOINT` and the wrapper of every external operation (spec/45_checkpoint_rollback.md R156, R158,
spec/46_frontend_ops.md R170): what each comes to from a state that meets the invariant. -/

namespace Sys2Proof.Machine

variable {c : Config}

/-! ## Settled states -/

/-- Everything `settled` says (R139). -/
theorem settled_iff {now : Nat} {x : LiveState} : settled c now x = true ↔
    x.state = .idle ∨ (x.state = .running ∧ x.nextState = none ∧ x.changed = .clear ∧
      timeAtOrBefore x.time now = true ∧ cellEnded c now x = false) := by
  simp [settled, and_assoc]

/-- `settled` reads the sequencing fields and the change flags only. -/
theorem settled_congr {now : Nat} {x y : LiveState} (h1 : x.state = y.state) (h2 : x.nextState = y.nextState)
    (h3 : x.changed = y.changed) (h4 : x.time = y.time) : settled c now x = settled c now y := by
  unfold settled cellEnded; rw [h1, h2, h3, h4]

/-- R139: in a settled state the loop has nothing to do. -/
theorem runEngine_of_settled {now : Nat} {s : State} (h : settled c now s.cur = true) : runEngine c now now s = s := by
  rcases settled_iff.mp h with hi | ⟨hs, hn, -, -, he⟩
  · exact runEngine_idle hi
  · rw [runEngine_eq, settlePass_quiet hs hn]; simp [he]

theorem settled_time_le {now : Nat} {x : LiveState} (hidle : x.time = none ↔ x.state = .idle)
    (h : settled c now x = true) : ∀ t, x.time = some t → t ≤ now := by
  intro t ht
  rcases settled_iff.mp h with hi | ⟨-, -, -, hle, -⟩
  · rw [hidle.mpr hi] at ht; cases ht
  · rw [ht] at hle; simpa [timeAtOrBefore] using hle

theorem commitWrites_settled {now : Nat} {s : State} (h : settled c now s.cur = true) :
    settled c now (commitWrites s).cur = true := by
  rcases commitWrites_cur s with k | ⟨w, t, -, -, -, k⟩
  · rw [k]; exact h
  · rw [k]; exact h

/-- A commit that takes no violation leaves an empty interval, or none. -/
theorem commitWrites_closes {s : State} (hinv : LiveInv c s.cur) (hf : s.fault = none) (h : (commitWrites s).fault = none) :
    (commitWrites s).cur.writeStartTime = none ∨ (commitWrites s).cur.writeStartTime = (commitWrites s).cur.time := by
  rcases commitWrites_cases s with ⟨k, hle⟩ | ⟨w, t, hw, ht, hlt, ⟨-, -, k⟩ | ⟨-, hne, -⟩ | ⟨-, k⟩⟩
  · rw [k]
    cases hw : s.cur.writeStartTime with
    | none => exact .inl rfl
    | some w =>
      cases ht : s.cur.time with
      | none =>
        have hi := hinv.time_never_iff_idle.mp ht
        have := hinv.interval_open_iff_writing.mpr (.inr hi)
        rw [this] at hw; cases hw
      | some t =>
        have h1 := hle w t hw ht
        have h2 := hinv.interval_ordered w t hw ht
        exact .inr (by congr 1; omega)
  · rw [k] at h; cases h
  · exact absurd hf hne
  · refine .inr ?_
    rw [k, andThen_of_none _ (by simpa using hf)]
    exact ht.symm

/-! ## Rollback inside `SYNC` -/

/-- Discarding speculation: the live copy, or its checkpoint. -/
theorem discardSpeculation_cases (now : Nat) (s : State) :
    (timeAfter s.cur.time now = false ∧ discardSpeculation now s = s) ∨
    (timeAfter s.cur.time now = true ∧ discardSpeculation now s = rollbackEngine s) := by
  unfold discardSpeculation
  cases h : timeAfter s.cur.time now <;> simp

/-- R158: a settled live copy has no speculation to discard. -/
theorem discardSpeculation_of_settled {now : Nat} {s : State} (hidle : s.cur.time = none ↔ s.cur.state = .idle)
    (h : settled c now s.cur = true) : discardSpeculation now s = s := by
  have := settled_time_le hidle h
  rcases discardSpeculation_cases now s with ⟨-, k⟩ | ⟨ht, -⟩
  · exact k
  · cases hx : s.cur.time with
    | none => rw [hx] at ht; cases ht
    | some t => rw [hx] at ht; have := this t hx; simp [timeAfter] at ht; omega

theorem timeAfter_false {x : Time} {now : Nat} (h : timeAfter x now = false) : ∀ t, x = some t → t ≤ now := by
  intro t ht; subst ht; simpa [timeAfter] using h

/-- What `SYNC` needs of a state: the invariant of both copies, and a checkpoint that is not ahead of `now`. -/
structure Syncable (c : Config) (now : Nat) (s : State) : Prop where
  live : LiveInv c s.cur
  saved : LiveInv c s.chk
  saved_not_ahead : ∀ t, s.chk.time = some t → t ≤ now
  latches_agree : sameLatches s.cur s.chk

/-- The state the stepping loop of `SYNC` starts from. -/
theorem discardSpeculation_spec {now : Nat} {s : State} (h : Syncable c now s) :
    LiveInv c (discardSpeculation now s).cur ∧ (∀ t, (discardSpeculation now s).cur.time = some t → t ≤ now) ∧
    sameLatches s.cur (discardSpeculation now s).cur ∧
    { discardSpeculation now s with cur := s.cur, nextEdge := s.nextEdge } = s := by
  rcases discardSpeculation_cases now s with ⟨ht, k⟩ | ⟨ht, k⟩
  · rw [k]; exact ⟨h.live, timeAfter_false ht, ⟨rfl, rfl, rfl, rfl, rfl, rfl⟩, rfl⟩
  · have hs : s.cur.state ≠ .idle := fun hi => by
      rw [h.live.time_never_iff_idle.mpr hi] at ht; cases ht
    rw [k, rollbackEngine_cur_running hs]
    exact ⟨h.saved, h.saved_not_ahead, h.latches_agree, rfl⟩

/-- Two states that agree on everything but the live copy, the cached edge, the events, the media and the violation. -/
def sameBesideSync (s t : State) : Prop :=
  { t with cur := s.cur, nextEdge := s.nextEdge, events := s.events, medium := s.medium, fault := s.fault } = s

theorem commitWrites_sameBesideSync (s : State) : sameBesideSync s (commitWrites s) := by
  have h := commitWrites_frame s
  unfold sameBesideCommit at h
  unfold sameBesideSync
  conv_rhs => rw [← h]
  simp

theorem sameBesideSync_trans {s t u : State} (h : sameBesideSync s t) (k : sameBesideSync t u) : sameBesideSync s u := by
  unfold sameBesideSync at *; rw [← h, ← k]

theorem sameBesideSync.same_chk {s t : State} (h : sameBesideSync s t) : t.chk = s.chk := by rw [← h]
theorem sameBesideSync.same_drives {s t : State} (h : sameBesideSync s t) : t.drives = s.drives := by rw [← h]
theorem sameBesideSync.same_stepperEnable {s t : State} (h : sameBesideSync s t) : t.stepperEnable = s.stepperEnable := by rw [← h]
theorem sameBesideSync.same_spindleCtl {s t : State} (h : sameBesideSync s t) : t.spindleCtl = s.spindleCtl := by rw [← h]
theorem sameBesideSync.same_lastNow {s t : State} (h : sameBesideSync s t) : t.lastNow = s.lastNow := by rw [← h]
theorem sameBesideSync.same_queue {s t : State} (h : sameBesideSync s t) : t.queue = s.queue := by rw [← h]
theorem sameBesideSync.same_now {s t : State} (h : sameBesideSync s t) : t.now = s.now := by rw [← h]
theorem sameBesideSync.same_limit {s t : State} (h : sameBesideSync s t) : t.limit = s.limit := by rw [← h]
theorem sameBesideSync.same_index {s t : State} (h : sameBesideSync s t) : t.index = s.index := by rw [← h]
theorem sameBesideSync.same_result {s t : State} (h : sameBesideSync s t) : t.result = s.result := by rw [← h]

theorem sameBesideCell.toSync {s t : State} (h : sameBesideCell s t) : sameBesideSync s t := by
  unfold sameBesideCell at h; unfold sameBesideSync
  conv_rhs => rw [← h]
  rw [← h]

theorem rollbackEngine_sameBesideSync (s : State) : sameBesideSync s (rollbackEngine s) := rfl

theorem discardSpeculation_frame (now : Nat) (s : State) : sameBesideSync s (discardSpeculation now s) := by
  rcases discardSpeculation_cases now s with ⟨-, k⟩ | ⟨-, k⟩ <;> rw [k] <;> rfl

/-- R158: what `SYNC` leaves unchanged in every state. -/
theorem syncEngine_frame (c : Config) (now : Nat) (s : State) : sameBesideSync s (syncEngine c now s) := by
  unfold syncEngine
  split
  · rfl
  · exact sameBesideSync_trans (discardSpeculation_frame now s)
      (sameBesideSync_trans (runEngine_frame ..).toSync (commitWrites_sameBesideSync _))

@[simp] theorem syncEngine_chk (c : Config) (now : Nat) (s : State) : (syncEngine c now s).chk = s.chk :=
  (syncEngine_frame c now s).same_chk
@[simp] theorem syncEngine_drives (c : Config) (now : Nat) (s : State) : (syncEngine c now s).drives = s.drives :=
  (syncEngine_frame c now s).same_drives
@[simp] theorem syncEngine_stepperEnable (c : Config) (now : Nat) (s : State) : (syncEngine c now s).stepperEnable = s.stepperEnable :=
  (syncEngine_frame c now s).same_stepperEnable
@[simp] theorem syncEngine_spindleCtl (c : Config) (now : Nat) (s : State) : (syncEngine c now s).spindleCtl = s.spindleCtl :=
  (syncEngine_frame c now s).same_spindleCtl
@[simp] theorem syncEngine_lastNow (c : Config) (now : Nat) (s : State) : (syncEngine c now s).lastNow = s.lastNow :=
  (syncEngine_frame c now s).same_lastNow
@[simp] theorem syncEngine_queue (c : Config) (now : Nat) (s : State) : (syncEngine c now s).queue = s.queue :=
  (syncEngine_frame c now s).same_queue
@[simp] theorem syncEngine_now (c : Config) (now : Nat) (s : State) : (syncEngine c now s).now = s.now :=
  (syncEngine_frame c now s).same_now
@[simp] theorem syncEngine_limit (c : Config) (now : Nat) (s : State) : (syncEngine c now s).limit = s.limit :=
  (syncEngine_frame c now s).same_limit
@[simp] theorem syncEngine_index (c : Config) (now : Nat) (s : State) : (syncEngine c now s).index = s.index :=
  (syncEngine_frame c now s).same_index
@[simp] theorem syncEngine_result (c : Config) (now : Nat) (s : State) : (syncEngine c now s).result = s.result :=
  (syncEngine_frame c now s).same_result

/-- R158: everything `SYNC` comes to from a state that meets the invariant and holds no violation. -/
theorem syncEngine_spec {now : Nat} {s : State} (h : Syncable c now s) (hf : s.fault = none) :
    LiveInv c (syncEngine c now s).cur ∧ settled c now (syncEngine c now s).cur = true ∧
    sameLatches s.cur (syncEngine c now s).cur ∧
    ((syncEngine c now s).fault = none →
      (syncEngine c now s).cur.writeStartTime = none ∨
        (syncEngine c now s).cur.writeStartTime = (syncEngine c now s).cur.time) := by
  unfold syncEngine
  split
  · rename_i hi
    exact ⟨h.live, by simp [settled, hi], ⟨rfl, rfl, rfl, rfl, rfl, rfl⟩,
      fun _ => .inl (h.live.interval_open_iff_writing.mpr (.inr hi))⟩
  · obtain ⟨h1, h2, h3, h4⟩ := discardSpeculation_spec h
    have hrun := runEngine_liveInv (limit := now) (now := now) h1
    have hf' : (runEngine c now now (discardSpeculation now s)).fault = none := by
      rw [runEngine_fault]; rw [← h4] at hf; exact hf
    refine ⟨commitWrites_liveInv hrun, commitWrites_settled (runEngine_settled h1 h2), ?_, commitWrites_closes hrun hf'⟩
    obtain ⟨a1, a2, a3, a4, a5, a6⟩ := h3
    obtain ⟨b1, b2, b3, b4, b5, b6, -⟩ := runEngine_latches c now now (discardSpeculation now s)
    obtain ⟨d1, d2, d3, d4, d5, d6⟩ := commitWrites_latches (runEngine c now now (discardSpeculation now s))
    exact ⟨a1.trans (b1.trans d1), a2.trans (b2.trans d2), a3.trans (b3.trans d3), a4.trans (b4.trans d4),
      a5.trans (b5.trans d5), a6.trans (b6.trans d6)⟩

/-- With the write gate off, or a medium in the selected drive, whatever `SYNC` commits can be committed. -/
theorem canCommit_of_gate_or_medium {now : Nat} {s : State} (h : Syncable c now s)
    (hc : s.cur.writeGate = false ∨ (s.drv s.cur.drive).medium = true) :
    canCommit (runEngine c now now (discardSpeculation now s)) := by
  obtain ⟨h1, -, ⟨a1, -, a3, -⟩, h4⟩ := discardSpeculation_spec h
  obtain ⟨b1, -, b3, -⟩ := runEngine_latches c now now (discardSpeculation now s)
  intro w t hw _ _
  rcases hc with hc | hc
  · rw [(runEngine_liveInv h1).interval_open_iff_writing.mpr (.inl (by rw [← b3, ← a3]; exact hc))] at hw; cases hw
  · have hd : (runEngine c now now (discardSpeculation now s)).drives = s.drives := by
      rw [runEngine_drives]; conv_rhs => rw [← h4]
    rw [drv_congr hd, ← b1, ← a1]; exact hc

/-- In `Idle` there is nothing to commit. -/
theorem canCommit_of_idle {now : Nat} {s : State} (h : LiveInv c s.cur) (hi : s.cur.state = .idle) :
    canCommit (runEngine c now now (discardSpeculation now s)) := by
  have ht := h.time_never_iff_idle.mpr hi
  have hd : discardSpeculation now s = s := by simp [discardSpeculation, ht, timeAfter]
  intro w t _ h2
  rw [hd, runEngine_idle hi, ht] at h2; cases h2

/-- R43: `SYNC` takes no violation when its commit can be made. -/
theorem syncEngine_no_violation {now : Nat} {s : State} (hf : s.fault = none)
    (hc : canCommit (runEngine c now now (discardSpeculation now s))) : (syncEngine c now s).fault = none := by
  unfold syncEngine
  split
  · exact hf
  · rw [commitWrites_fault hc, runEngine_fault]
    rcases discardSpeculation_cases now s with ⟨-, k⟩ | ⟨-, k⟩ <;> rw [k] <;> exact hf

theorem syncEngine_medium_wf {now : Nat} {s : State} (h : Medium.wf s.medium) : Medium.wf (syncEngine c now s).medium := by
  unfold syncEngine
  split
  · exact h
  · refine commitWrites_medium_wf ?_
    rw [runEngine_medium]
    have := discardSpeculation_frame now s
    rcases discardSpeculation_cases now s with ⟨-, k⟩ | ⟨-, k⟩ <;> rw [k] <;> exact h

/-! ## Checkpoint -/

/-- R156: from a settled state with an empty interval, `CHECKPOINT` only copies. -/
theorem checkpointEngine_of_settled {now : Nat} {s : State} (h : settled c now s.cur = true) (hf : s.fault = none)
    (hw : s.cur.writeStartTime = none ∨ s.cur.writeStartTime = s.cur.time) :
    checkpointEngine c now s = copyToCheckpoint s := by
  unfold checkpointEngine
  rw [runEngine_of_settled h, commitWrites_nothing hw, andThen_of_none _ hf]

/-- The copy, in the terms of the claims. -/
theorem copyToCheckpoint_eq {s : State} (h : s.cur.time = none ↔ s.cur.state = .idle) :
    copyToCheckpoint s = checkpointed s s.cur := by
  unfold copyToCheckpoint checkpointed precomputeEdge edgeFor State.track
  by_cases hi : s.cur.state = .idle
  · simp [hi, h.mpr hi]
  · simp only [hi, if_false]
    cases ht : s.cur.time with
    | none => exact absurd (h.mp ht) hi
    | some t => rfl

/-- R156: `CHECKPOINT` from a live copy that is not ahead of `now`. -/
theorem checkpointEngine_spec {now : Nat} {s : State} (h : LiveInv c s.cur) (hle : ∀ t, s.cur.time = some t → t ≤ now)
    (hf : s.fault = none) (hc : (checkpointEngine c now s).fault = none) :
    ∃ r, r = commitWrites (runEngine c now now s) ∧ checkpointEngine c now s = checkpointed r r.cur ∧ r.fault = none ∧
      LiveInv c r.cur ∧ settled c now r.cur = true ∧ sameLatches s.cur r.cur ∧
      (r.cur.writeStartTime = none ∨ r.cur.writeStartTime = r.cur.time) := by
  have hrun := runEngine_liveInv (limit := now) (now := now) h
  have hr := commitWrites_liveInv hrun
  refine ⟨_, rfl, ?_⟩
  have hfr : (commitWrites (runEngine c now now s)).fault = none := by
    unfold checkpointEngine at hc
    rcases andThen_cases (commitWrites (runEngine c now now s)) copyToCheckpoint with ⟨k, -⟩ | ⟨k, e⟩
    · exact k
    · rw [e] at hc; exact hc
  refine ⟨?_, hfr, hr, commitWrites_settled (runEngine_settled h hle), ?_, commitWrites_closes hrun (by simpa using hf) hfr⟩
  · unfold checkpointEngine
    rw [andThen_of_none _ hfr, copyToCheckpoint_eq hr.time_never_iff_idle]
  · obtain ⟨b1, b2, b3, b4, b5, b6, -⟩ := runEngine_latches c now now s
    obtain ⟨d1, d2, d3, d4, d5, d6⟩ := commitWrites_latches (runEngine c now now s)
    exact ⟨b1.trans d1, b2.trans d2, b3.trans d3, b4.trans d4, b5.trans d5, b6.trans d6⟩

/-! ## The wrapper -/

theorem ControllerInv.syncable {s : State} (h : ControllerInv c s) {now : Nat} (hle : s.lastNow ≤ now) :
    Syncable c now { s with lastNow := now } :=
  { live := h.live, saved := h.saved, latches_agree := h.latches_agree
    saved_not_ahead := fun t ht => le_trans (h.saved_not_ahead t ht) hle }

/-- R170: the wrapper in a state without a violation at a time not earlier than the last operation's. -/
theorem externalOp_eq {body tail : State → State} {s : State} (hf : s.fault = none) (hle : s.lastNow ≤ s.now) :
    externalOp c body tail s =
      ((((syncEngine c s.now { s with lastNow := s.now }).andThen body).andThen (refreshCodec c)).andThen
        (checkpointEngine c s.now)).andThen tail := by
  simp [externalOp, hf, Nat.not_lt.mpr hle]

/-- R170: an external operation whose body takes no violation, leaves a settled live copy and opens no interval but an
empty one: the synchronised state, the body, the refreshed codec pair, the checkpoint, the tail. -/
theorem externalOp_spec {body tail : State → State} {s u : State} (hf : s.fault = none) (hle : s.lastNow ≤ s.now)
    (hu : u = syncEngine c s.now { s with lastNow := s.now }) (huf : u.fault = none) (hbf : (body u).fault = none)
    (hbs : settled c s.now (body u).cur = true) (hbt : (body u).cur.time = none ↔ (body u).cur.state = .idle)
    (hbw : (body u).cur.writeStartTime = none ∨ (body u).cur.writeStartTime = (body u).cur.time) :
    externalOp c body tail s = tail (checkpointed (body u) (refreshLive c (body u).cur)) := by
  have hrf : (refreshCodec c (body u)).fault = none := hbf
  have hck : checkpointEngine c s.now (refreshCodec c (body u)) = checkpointed (body u) (refreshLive c (body u).cur) := by
    rw [checkpointEngine_of_settled (s := refreshCodec c (body u)) hbs hrf hbw,
      copyToCheckpoint_eq (s := refreshCodec c (body u)) hbt]
    rfl
  have hcf : (checkpointed (body u) (refreshLive c (body u).cur)).fault = none := hbf
  rw [externalOp_eq hf hle, ← hu, andThen_of_none body huf, andThen_of_none (refreshCodec c) hbf,
    andThen_of_none (checkpointEngine c s.now) hrf, hck, andThen_of_none tail hcf]

end Sys2Proof.Machine
end

