-- ==== Sys2Proof/Laws/External.lean ====
section
/-! SUPPORT. An external operation that gets past its `SYNC` (spec/46_frontend_ops.md R170): what its `SYNC` leaves, and the whole
operation as its body between that state and the checkpoint. -/

namespace Sys2Proof.Machine

/-- What the body of an external operation finds (R158, R170). -/
structure SyncedSpec (s u : State) : Prop where
  no_violation : u.fault = none
  live : LiveInv Config.machine u.cur
  is_settled : settled Config.machine s.now u.cur = true
  latches : sameLatches s.cur u.cur
  interval_empty : u.cur.writeStartTime = none ∨ u.cur.writeStartTime = u.cur.time
  same_chk : u.chk = s.chk
  same_drives : u.drives = s.drives
  same_stepperEnable : u.stepperEnable = s.stepperEnable
  same_spindleCtl : u.spindleCtl = s.spindleCtl
  same_lastNow : u.lastNow = s.now
  same_queue : u.queue = s.queue
  same_now : u.now = s.now
  same_limit : u.limit = s.limit
  same_index : u.index = s.index
  same_result : u.result = s.result

/-- A state in which an external operation gets past its `SYNC` (R170). -/
structure Proceeds (s : State) : Prop where
  inv : Inv Config.machine s
  no_violation : s.fault = none
  time_order : s.lastNow ≤ s.now
  sync_completes : (synced s).fault = none

theorem Proceeds.syncable {s : State} (h : Proceeds s) : Syncable Config.machine s.now { s with lastNow := s.now } :=
  (h.inv.controller h.no_violation).syncable h.time_order

/-- A ready state is one: its `SYNC` takes no violation. -/
theorem Ready.proceeds {s : State} (h : Ready s) : Proceeds s :=
  { inv := h.inv, no_violation := h.no_violation, time_order := h.time_order
    sync_completes := syncEngine_no_violation (s := { s with lastNow := s.now }) h.no_violation h.can_commit }

theorem Proceeds.synced_spec {s : State} (h : Proceeds s) : SyncedSpec s (synced s) := by
  obtain ⟨h1, h2, h3, h4⟩ := syncEngine_spec h.syncable h.no_violation
  exact
    { no_violation := h.sync_completes, live := h1, is_settled := h2, latches := h3, interval_empty := h4 h.sync_completes
      same_chk := by simp [synced], same_drives := by simp [synced], same_stepperEnable := by simp [synced]
      same_spindleCtl := by simp [synced], same_lastNow := by simp [synced], same_queue := by simp [synced]
      same_now := by simp [synced], same_limit := by simp [synced], same_index := by simp [synced]
      same_result := by simp [synced] }

theorem SyncedSpec.drv_eq {s u : State} (h : SyncedSpec s u) (d : DriveId) : u.drv d = s.drv d := drv_congr h.same_drives d

/-- R170: the whole operation, for a body that takes no violation and leaves the sequencing fields settled and the write
interval empty. -/
theorem Proceeds.externalOp {s v : State} (h : Proceeds s) {body tail : State → State} (hv : v = body (synced s))
    (hf : v.fault = none) (hs : settled Config.machine s.now v.cur = true)
    (ht : v.cur.time = none ↔ v.cur.state = .idle)
    (hw : v.cur.writeStartTime = none ∨ v.cur.writeStartTime = v.cur.time) :
    externalOp Config.machine body tail s = tail (checkpointed v (refreshLive Config.machine v.cur)) := by
  subst hv
  exact externalOp_spec h.no_violation h.time_order rfl h.synced_spec.no_violation hf hs ht hw

/-- R170: a body that writes no sequencing field, no change flag and not the interval. -/
theorem Proceeds.externalOp_quiet {s v : State} (h : Proceeds s) {body tail : State → State} (hv : v = body (synced s))
    (hf : v.fault = (synced s).fault) (h1 : v.cur.state = (synced s).cur.state)
    (h2 : v.cur.nextState = (synced s).cur.nextState) (h3 : v.cur.changed = (synced s).cur.changed)
    (h4 : v.cur.time = (synced s).cur.time) (h5 : v.cur.writeStartTime = (synced s).cur.writeStartTime) :
    Sys2Proof.Machine.externalOp Config.machine body tail s = tail (checkpointed v (refreshLive Config.machine v.cur)) := by
  have k := h.synced_spec
  refine h.externalOp hv (hf.trans k.no_violation) ?_ ?_ ?_
  · rw [settled_congr h1 h2 h3 h4]; exact k.is_settled
  · rw [h4, h1]; exact k.live.time_never_iff_idle
  · rw [h5, h4]; exact k.interval_empty

/-- R43, R124: `SYNC` stores only to the interval it commits. -/
theorem syncEngine_outside {now : Nat} {s : State} (h : Syncable Config.machine now s) (tr : Track) (x : Nat)
    (hn : ¬ inCommitInterval (beforeCommit now s) tr x) :
    mediumHas (syncEngine Config.machine now s).medium tr x = mediumHas s.medium tr x := by
  unfold syncEngine
  split
  · rfl
  · obtain ⟨d1, -, -, d4⟩ := discardSpeculation_spec h
    have hrun := runEngine_liveInv (limit := now) (now := now) d1
    have hmed : (runEngine Config.machine now now (discardSpeculation now s)).medium = s.medium := by
      rw [runEngine_medium]; conv_rhs => rw [← d4]
    unfold beforeCommit at hn
    generalize runEngine Config.machine now now (discardSpeculation now s) = r at *
    rw [← hmed]
    rcases commitWrites_cases r with ⟨k, -⟩ | ⟨w, t, hw, ht, -, ⟨-, -, k⟩ | ⟨-, -, k⟩ | ⟨-, k⟩⟩
    · rw [k]
    · rw [k]
    · rw [k]
    · have : (commitWrites r).medium = mediumReplace r.medium r.track w t r.cur.writeBuffer := by
        rw [k]
        rcases andThen_cases (emit (.commit r.track w t r.cur.writeBuffer)
          { r with medium := mediumReplace r.medium r.track w t r.cur.writeBuffer }) (closeInterval t) with
          ⟨-, e⟩ | ⟨-, e⟩ <;> rw [e] <;> rfl
      rw [this, Bool.eq_iff_iff, mediumHas_replace]
      have hn' : ¬ (tr = r.track ∧ w ≤ x ∧ x < t) := fun ⟨a, b, c⟩ => hn ⟨a, w, t, hw, ht, b, c⟩
      constructor
      · rintro (⟨a, b⟩ | ⟨a, -⟩)
        · obtain ⟨w', n', e1, e2, e3, e4⟩ := hrun.buffer_in_interval x b
          rw [hw] at e1; rw [ht] at e2; cases e1; cases e2
          exact absurd ⟨a, e3, e4⟩ hn'
        · exact a
      · intro a; exact .inr ⟨a, hn'⟩

/-! ## Everything an external operation can do -/

/-- What holds between the body of an external operation and its checkpoint (R170). -/
structure AfterBody (s v : State) : Prop where
  no_violation : v.fault = none
  live : LiveInv Config.machine (refreshLive Config.machine v.cur)
  is_settled : settled Config.machine s.now v.cur = true
  interval_empty : v.cur.writeStartTime = none ∨ v.cur.writeStartTime = v.cur.time
  same_events : v.events = (synced s).events
  same_medium : v.medium = (synced s).medium
  same_lastNow : v.lastNow = s.now
  same_now : v.now = s.now
  cylinders_in_range : ∀ d, (v.drv d).cylinder ≤ Config.machine.maxCylinder
  side_mirror : (v.drv v.cur.drive).side = v.cur.side

/-- A body that writes some of the latches `write_data`, `write_sync_gate`, `erase_gate`, `drive`, `side` only. -/
theorem LiveInv.latched {x : LiveState} (h : LiveInv Config.machine x) (d : DriveId) (side : Side) (wd : Byte) (ws eg : Bool) :
    LiveInv Config.machine (refreshLive Config.machine
      { x with drive := d, side := side, writeData := wd, writeSyncGate := ws, eraseGate := eg }) :=
  { h with codec_input := rfl, codec_output := rfl }

theorem LiveInv.gated {x : LiveState} (h : LiveInv Config.machine x)
    (he : x.writeStartTime = none ∨ x.writeStartTime = x.time) (g : Bool) :
    LiveInv Config.machine (refreshLive Config.machine { x with writeGate := g, writeStartTime := gateInterval g x }) := by
  have hb := h.buffer_empty he
  have hi := h.interval_open_iff_writing
  refine { h with
    codec_input := rfl, codec_output := rfl, buffer_in_interval := ?_, interval_open_iff_writing := ?_
    interval_ordered := ?_ }
  · intro t ht
    rw [show (refreshLive Config.machine { x with writeGate := g, writeStartTime := gateInterval g x }).writeBuffer =
      x.writeBuffer from rfl, hb] at ht
    cases ht
  · show gateInterval g x = none ↔ (g = false ∨ x.state = .idle)
    unfold gateInterval
    by_cases hs : x.state = .idle
    · have := hi.mpr (.inr hs)
      cases x.writeGate <;> cases g <;> simp [hs, this]
    · obtain ⟨t, ht⟩ := h.time_some hs
      cases hg : x.writeGate <;> cases g <;> simp [hs, ht] <;> simp [hg, hs] at hi <;> exact hi
  · intro w n h1 h2
    have h2' : x.time = some n := h2
    have h1' : gateInterval g x = some w := h1
    unfold gateInterval at h1'
    split at h1'
    · cases h1'
    · split at h1'
      · rw [h2'] at h1'; cases h1'; exact le_refl _
      · exact h.interval_ordered w n h1' h2'

theorem startEngine_live {now : Nat} {s : State} (h : LiveInv Config.machine s.cur) (hs : s.cur.state = .idle) :
    LiveInv Config.machine (startEngine Config.machine now s).cur ∧
      settled Config.machine now (startEngine Config.machine now s).cur = true ∧
      ((startEngine Config.machine now s).cur.writeStartTime = none ∨
        (startEngine Config.machine now s).cur.writeStartTime = (startEngine Config.machine now s).cur.time) := by
  have hw := h.interval_open_iff_writing.mpr (.inr hs)
  have hb := h.buffer_empty (.inl hw)
  have hc := h.changed_clear (h.idle_defers_nothing hs)
  have hp := (period_pos Config.machine).ne'
  have he : (startEngine Config.machine now s).cur = refreshLive Config.machine
      { s.cur with
        state := .running, time := some now, nextState := none, bitCounter := 0, syncBitCounter := 0, syncByteCounter := 0
        writeStartTime := if s.cur.writeGate then some now else none } := by
    rw [← hw]; rfl
  rw [he]
  refine ⟨?_, ?_, ?_⟩
  · exact
      { time_never_iff_idle := by simp [refreshLive]
        not_at_syncpoint := by simp [refreshLive]
        deferred_value := .inl rfl
        idle_defers_nothing := fun _ => rfl
        change_is_deferred := by simp [refreshLive, hc, StatusFlags.clear, StatusFlags.any]
        bit_counters_equal := rfl
        codec_input := rfl
        codec_output := rfl
        position_is_length := h.position_is_length
        buffer_rising := h.buffer_rising
        buffer_in_interval := by simp [refreshLive, hb]
        interval_open_iff_writing := by cases hg : s.cur.writeGate <;> simp [refreshLive, hg]
        interval_ordered := by cases s.cur.writeGate <;> simp [refreshLive] }
  · simp [settled, refreshLive, hc, timeAtOrBefore, cellEnded, hp]
  · cases s.cur.writeGate <;> simp [refreshLive]

theorem haltEngine_live {s : State} (h : LiveInv Config.machine s.cur) (hn : s.cur.nextState = none)
    (he : s.cur.writeBuffer = []) : LiveInv Config.machine (haltEngine s).cur :=
  { time_never_iff_idle := by simp [haltEngine, State.setCur]
    not_at_syncpoint := by simp [haltEngine, State.setCur]
    deferred_value := .inl rfl
    idle_defers_nothing := fun _ => rfl
    change_is_deferred := by simp [haltEngine, State.setCur, h.changed_clear hn, StatusFlags.clear, StatusFlags.any]
    bit_counters_equal := h.bit_counters_equal
    codec_input := h.codec_input
    codec_output := h.codec_output
    position_is_length := h.position_is_length
    buffer_rising := h.buffer_rising
    buffer_in_interval := by simp [haltEngine, State.setCur, he]
    interval_open_iff_writing := by simp [haltEngine, State.setCur]
    interval_ordered := by simp [haltEngine, State.setCur] }

/-- R136: with nothing to commit, `STOP` only halts. -/
theorem stopEngine_of_empty {s : State} (hf : s.fault = none)
    (hw : s.cur.writeStartTime = none ∨ s.cur.writeStartTime = s.cur.time) : stopEngine s = haltEngine s := by
  unfold stopEngine; rw [commitWrites_nothing hw, andThen_of_none _ hf]

theorem settled_defers_nothing {now : Nat} {x : LiveState} (h : LiveInv Config.machine x)
    (hs : settled Config.machine now x = true) : x.nextState = none := by
  rcases settled_iff.mp hs with hi | hr
  · exact h.idle_defers_nothing hi
  · exact hr.2.1

theorem moveCylinder_le (c : Config) (n : Nat) (delta : Int) : moveCylinder c n delta ≤ c.maxCylinder := by
  unfold moveCylinder; omega

/-- The state a body starts in, as the state after the body that does nothing. -/
theorem Proceeds.after_nothing {s : State} (h : Proceeds s) : AfterBody s (synced s) := by
  have k := h.synced_spec
  refine
    { no_violation := k.no_violation, live := ?_, is_settled := k.is_settled, interval_empty := k.interval_empty
      same_events := rfl, same_medium := rfl, same_lastNow := k.same_lastNow, same_now := k.same_now
      cylinders_in_range := fun d => by rw [k.drv_eq]; exact h.inv.cylinders_in_range d, side_mirror := ?_ }
  · rw [k.live.refresh_self]; exact k.live
  · rw [k.drv_eq, ← k.latches.1, ← k.latches.2.1]; exact (h.inv.controller h.no_violation).side_mirror

theorem setDrv_drv_cases (s : State) (d e : DriveId) (x : Drive) :
    (s.setDrv d x).drv e = if e = d then x else s.drv e := by
  split
  · rename_i h; rw [h]; exact drv_setDrv_self s d x
  · rename_i h; exact drv_setDrv_other s h x

/-- The bodies of the operations that read or write latches. -/
theorem Proceeds.after_latches {s : State} (h : Proceeds s) (d : DriveId) (side : Side) (wd : Byte) (ws eg : Bool) (v : State)
    (hv : v = { synced s with
      cur := { (synced s).cur with drive := d, side := side, writeData := wd, writeSyncGate := ws, eraseGate := eg }
      drives := v.drives, stepperEnable := v.stepperEnable, result := v.result })
    (hc : ∀ e, (v.drv e).cylinder ≤ Config.machine.maxCylinder) (hm : (v.drv d).side = side) : AfterBody s v := by
  have k := h.synced_spec
  have hcur : v.cur = { (synced s).cur with
      drive := d, side := side, writeData := wd, writeSyncGate := ws, eraseGate := eg } := by rw [hv]
  exact
    { no_violation := by rw [hv]; exact k.no_violation
      live := by rw [hcur]; exact k.live.latched d side wd ws eg
      is_settled := by rw [hcur]; exact k.is_settled
      interval_empty := by rw [hcur]; exact k.interval_empty
      same_events := by rw [hv]
      same_medium := by rw [hv]
      same_lastNow := by rw [hv]; exact k.same_lastNow
      same_now := by rw [hv]; exact k.same_now
      cylinders_in_range := hc
      side_mirror := by rw [hcur]; exact hm }

theorem AfterBody.exec_eq {s v : State} (h : Proceeds s) (a : AfterBody s v) {body tail : State → State}
    (hv : v = body (synced s)) : Sys2Proof.Machine.externalOp Config.machine body tail s =
      tail (checkpointed v (refreshLive Config.machine v.cur)) :=
  h.externalOp hv a.no_violation a.is_settled
    (by have := a.live.time_never_iff_idle; exact this) a.interval_empty

/-- What an external operation leaves, given the state after its body: the checkpoint, and for `SPEC n` its run ahead. -/
def afterCheckpoint (i : Instr) (s v : State) : State :=
  match i with
  | .spec n => specTail Config.machine n (checkpointed v (refreshLive Config.machine v.cur))
  | .wrdata _ | .drvsel _ | .sidesel _ | .wrgate _ | .ergate _ | .wrsync _ | .stpen _ | .stpph _ _ | .motor _ _
  | .rddata | .rdstat | .timer => checkpointed v (refreshLive Config.machine v.cur)
  | .lookup | .refresh | .step | .fire | .run | .start | .stop | .commit | .checkpoint | .rollback | .sync | .reset => s

theorem motorBody_after {s : State} (h : Proceeds s) (d : DriveId) (k : SpindleCommand) :
    AfterBody s (motorBody Config.machine d k (synced s)) := by
  have a := h.after_nothing
  have sp := h.synced_spec
  obtain ⟨v, hv⟩ : ∃ v, v = spindleBody d k (synced s) := ⟨_, rfl⟩
  have hcur : v.cur = (synced s).cur := by rw [hv]; rfl
  have hf : v.fault = none := by rw [hv]; exact a.no_violation
  have hdrv : ∀ e, (v.drv e).cylinder = ((synced s).drv e).cylinder ∧ (v.drv e).side = ((synced s).drv e).side := by
    intro e
    have : v.drv e = if e = d then { (synced s).drv d with
        motorEnabled := motorDecode ((synced s).drv d).motorEnabled k } else (synced s).drv e := by
      rw [hv]; exact setDrv_drv_cases (synced s) d e _
    rw [this]
    split
    · rename_i he; rw [he]; exact ⟨rfl, rfl⟩
    · exact ⟨rfl, rfl⟩
  have rest : ∀ w : State, w.drives = v.drives → w.cur.drive = v.cur.drive → w.cur.side = v.cur.side →
      w.fault = v.fault → w.events = v.events → w.medium = v.medium → w.lastNow = v.lastNow → w.now = v.now →
      LiveInv Config.machine w.cur → settled Config.machine s.now w.cur = true →
      (w.cur.writeStartTime = none ∨ w.cur.writeStartTime = w.cur.time) → AfterBody s w := by
    intro w e1 e2 e3 e4 e5 e6 e7 e8 e9 e10 e11
    exact
      { no_violation := by rw [e4]; exact hf
        live := by rw [e9.refresh_self]; exact e9
        is_settled := e10
        interval_empty := e11
        same_events := by rw [e5, hv]; rfl
        same_medium := by rw [e6, hv]; rfl
        same_lastNow := by rw [e7, hv]; exact a.same_lastNow
        same_now := by rw [e8, hv]; exact a.same_now
        cylinders_in_range := fun e => by
          rw [drv_congr e1, (hdrv e).1]; exact a.cylinders_in_range e
        side_mirror := by
          rw [drv_congr e1, e2, e3, (hdrv _).2, hcur]; exact a.side_mirror }
  have hb : motorBody Config.machine d k (synced s) = followMotors Config.machine s.now v := by
    rw [hv]; unfold motorBody; rw [sp.same_now]
  rw [hb]
  unfold followMotors
  split
  · rename_i hc
    have hi : v.cur.state = .idle := by simp only [Bool.and_eq_true, beq_iff_eq] at hc; exact hc.2
    obtain ⟨s1, s2, s3⟩ := startEngine_live (now := s.now) (by rw [hcur]; exact sp.live) hi
    exact rest _ rfl rfl rfl rfl rfl rfl rfl rfl s1 s2 s3
  · split
    · rw [stopEngine_of_empty hf (by rw [hcur]; exact sp.interval_empty)]
      have hn := settled_defers_nothing sp.live sp.is_settled
      refine rest _ rfl rfl rfl rfl rfl rfl rfl rfl (haltEngine_live (by rw [hcur]; exact sp.live) (by rw [hcur]; exact hn)
        (by rw [hcur]; exact sp.live.buffer_empty sp.interval_empty)) ?_ (.inl rfl)
      simp [settled, haltEngine, State.setCur]
    · exact rest v rfl rfl rfl rfl rfl rfl rfl rfl (by rw [hcur]; exact sp.live) (by rw [hcur]; exact sp.is_settled)
        (by rw [hcur]; exact sp.interval_empty)

/-- R70: the commands of a well-formed `MOTOR`. -/
theorem spindleCommand_of_wellFormed {d : DriveId} {cmd : BitVec 2} (h : (Instr.motor d cmd).wellFormed = true) :
    ∃ k, spindleCommand cmd = some k := by
  rcases cmd with ⟨⟨v, hv⟩⟩
  interval_cases v <;> simp [Instr.wellFormed, motorCommandLegal, spindleCommand] at h ⊢

/-- R170: everything an external operation can do once past its `SYNC`: it completes, with the checkpoint of the state its body
leaves. -/
theorem Proceeds.exec_external {s : State} (h : Proceeds s) {i : Instr} (he : isExternal i = true) (hw : i.wellFormed = true) :
    ∃ v, AfterBody s v ∧ exec i s = .next (afterCheckpoint i s v) := by
  have a := h.after_nothing
  have cyl := a.cylinders_in_range
  have mir := a.side_mirror
  cases i with
  | wrdata b =>
    have k : AfterBody s (wrdataBody b (synced s)) :=
      h.after_latches (synced s).cur.drive (synced s).cur.side b _ _ _ rfl cyl mir
    exact ⟨_, k, congrArg _ (k.exec_eq h rfl)⟩
  | drvsel d =>
    have k : AfterBody s (drvselBody d (synced s)) := by
      refine h.after_latches d (synced s).cur.side _ _ _ _ rfl (fun e => ?_) ?_
      · unfold drvselBody; rw [setDrv_drv_cases]; split
        · exact cyl d
        · exact cyl e
      · unfold drvselBody; rw [drv_setDrv_self]
    exact ⟨_, k, congrArg _ (k.exec_eq h rfl)⟩
  | sidesel d =>
    have k : AfterBody s (sideselBody d (synced s)) := by
      refine h.after_latches (synced s).cur.drive d _ _ _ _ rfl (fun e => ?_) ?_
      · unfold sideselBody; rw [setDrv_drv_cases]; split
        · exact cyl _
        · exact cyl e
      · unfold sideselBody; rw [drv_setDrv_self]
    exact ⟨_, k, congrArg _ (k.exec_eq h rfl)⟩
  | wrgate g =>
    have k : AfterBody s (wrgateBody g (synced s)) :=
      { a with
        live := (h.synced_spec.live).gated h.synced_spec.interval_empty g
        is_settled := a.is_settled
        interval_empty := by
          show gateInterval g (synced s).cur = none ∨ gateInterval g (synced s).cur = (synced s).cur.time
          unfold gateInterval
          split
          · exact .inl rfl
          · split
            · exact .inr rfl
            · exact a.interval_empty }
    exact ⟨_, k, congrArg _ (k.exec_eq h rfl)⟩
  | ergate g =>
    have k : AfterBody s (ergateBody g (synced s)) :=
      h.after_latches (synced s).cur.drive (synced s).cur.side _ _ g _ rfl cyl mir
    exact ⟨_, k, congrArg _ (k.exec_eq h rfl)⟩
  | wrsync g =>
    have k : AfterBody s (wrsyncBody g (synced s)) :=
      h.after_latches (synced s).cur.drive (synced s).cur.side _ g _ _ rfl cyl mir
    exact ⟨_, k, congrArg _ (k.exec_eq h rfl)⟩
  | stpen g =>
    have k : AfterBody s (stpenBody g (synced s)) :=
      h.after_latches (synced s).cur.drive (synced s).cur.side _ _ _ _ rfl cyl mir
    exact ⟨_, k, congrArg _ (k.exec_eq h rfl)⟩
  | stpph d code =>
    have k : AfterBody s (stpphBody Config.machine d code (synced s)) := by
      refine h.after_latches (synced s).cur.drive (synced s).cur.side _ _ _ _ rfl (fun e => ?_) ?_
      · unfold stpphBody; rw [setDrv_drv_cases]; split
        · exact moveCylinder_le ..
        · exact cyl e
      · unfold stpphBody; rw [setDrv_drv_cases]; split
        · rename_i hd; rw [← hd]; exact mir
        · exact mir
    exact ⟨_, k, congrArg _ (k.exec_eq h rfl)⟩
  | motor d cmd =>
    obtain ⟨k, hk⟩ := spindleCommand_of_wellFormed hw
    have m := motorBody_after h d k
    refine ⟨_, m, ?_⟩
    simp only [exec, execMotor, motorOp, hk]
    exact congrArg _ (m.exec_eq h rfl)
  | rddata =>
    have k : AfterBody s (rddataBody (synced s)) :=
      h.after_latches (synced s).cur.drive (synced s).cur.side _ _ _ _ rfl cyl mir
    exact ⟨_, k, congrArg _ (k.exec_eq h rfl)⟩
  | rdstat =>
    have k : AfterBody s (rdstatBody (synced s)) :=
      h.after_latches (synced s).cur.drive (synced s).cur.side _ _ _ _ rfl cyl mir
    exact ⟨_, k, congrArg _ (k.exec_eq h rfl)⟩
  | timer => exact ⟨_, a, congrArg _ (a.exec_eq (body := id) h rfl)⟩
  | spec n => exact ⟨_, a, congrArg _ (a.exec_eq (body := id) (tail := specTail Config.machine n) h rfl)⟩
  | lookup | refresh | step | fire | run | start | stop | commit | checkpoint | rollback | sync | reset =>
    simp [isExternal, Instr.opClass] at he

end Sys2Proof.Machine
end

