-- ==== Sys2Proof/Laws/PerInstr.lean ====
section
/-! SUPPORT. Per-instruction laws about the instruction as syntax: where its encoding puts its fields (spec/30_encoding.md
R65, R66), and which words the outside may not issue (R70). -/

namespace Sys2Proof.Laws

theorem append_toNat (x : BitVec 8) (y : Byte) : BitVec.toNat (w := 16) (x ++ y) = 256 * x.toNat + y.toNat := by
  refine (BitVec.toNat_append x y).trans ?_
  have := y.isLt
  rw [← Nat.shiftLeft_add_eq_or_of_lt this, Nat.shiftLeft_eq]
  omega

theorem opField_append (x : BitVec 8) (y : Byte) : opField (x ++ y) = x := by
  have h := y.isLt
  apply BitVec.eq_of_toNat_eq
  simp only [opField, BitVec.extractLsb'_toNat, append_toNat, Nat.shiftRight_eq_div_pow]
  have := x.isLt
  omega

theorem operandField_append (x : BitVec 8) (y : Byte) : operandField (x ++ y) = y := by
  have h := y.isLt
  apply BitVec.eq_of_toNat_eq
  simp only [operandField, BitVec.extractLsb'_toNat, append_toNat, Nat.shiftRight_eq_div_pow]
  omega

/-- R65, R66: the identifier stands in bits 15:8 and the operand byte in bits 7:0, and the class `I` identifiers are
0xC0 to 0xCA. -/
def EncodingFields.Statement (i : Instr) : Prop :=
  opField (encode i) = i.op ∧ operandField (encode i) = i.operand ∧
    (i.opClass = .internal ↔ 0xC0 ≤ i.op.toNat ∧ i.op.toNat ≤ 0xCA)

theorem encodingFields_of_class {i : Instr} (h : i.opClass = .internal ↔ 0xC0 ≤ i.op.toNat ∧ i.op.toNat ≤ 0xCA) :
    EncodingFields.Statement i :=
  ⟨opField_append .., operandField_append .., h⟩

theorem EncodingFields.wrdata (b : Byte) : EncodingFields.Statement (.wrdata b) :=
  encodingFields_of_class (by simp [Instr.opClass, Instr.op])
theorem EncodingFields.drvsel (d : DriveId) : EncodingFields.Statement (.drvsel d) :=
  encodingFields_of_class (by simp [Instr.opClass, Instr.op])
theorem EncodingFields.sidesel (side : Side) : EncodingFields.Statement (.sidesel side) :=
  encodingFields_of_class (by simp [Instr.opClass, Instr.op])
theorem EncodingFields.wrgate (g : Bool) : EncodingFields.Statement (.wrgate g) :=
  encodingFields_of_class (by simp [Instr.opClass, Instr.op])
theorem EncodingFields.ergate (g : Bool) : EncodingFields.Statement (.ergate g) :=
  encodingFields_of_class (by simp [Instr.opClass, Instr.op])
theorem EncodingFields.wrsync (g : Bool) : EncodingFields.Statement (.wrsync g) :=
  encodingFields_of_class (by simp [Instr.opClass, Instr.op])
theorem EncodingFields.stpen (g : Bool) : EncodingFields.Statement (.stpen g) :=
  encodingFields_of_class (by simp [Instr.opClass, Instr.op])
theorem EncodingFields.stpph (d : DriveId) (code : BitVec 4) : EncodingFields.Statement (.stpph d code) :=
  encodingFields_of_class (by simp [Instr.opClass, Instr.op])
theorem EncodingFields.motor (d : DriveId) (cmd : BitVec 2) : EncodingFields.Statement (.motor d cmd) :=
  encodingFields_of_class (by simp [Instr.opClass, Instr.op])
theorem EncodingFields.rddata : EncodingFields.Statement .rddata :=
  encodingFields_of_class (by decide)
theorem EncodingFields.rdstat : EncodingFields.Statement .rdstat :=
  encodingFields_of_class (by decide)
theorem EncodingFields.timer : EncodingFields.Statement .timer :=
  encodingFields_of_class (by decide)
theorem EncodingFields.spec (n : Byte) : EncodingFields.Statement (.spec n) :=
  encodingFields_of_class (by simp [Instr.opClass, Instr.op])
theorem EncodingFields.lookup : EncodingFields.Statement .lookup :=
  encodingFields_of_class (by decide)
theorem EncodingFields.refresh : EncodingFields.Statement .refresh :=
  encodingFields_of_class (by decide)
theorem EncodingFields.step : EncodingFields.Statement .step :=
  encodingFields_of_class (by decide)
theorem EncodingFields.fire : EncodingFields.Statement .fire :=
  encodingFields_of_class (by decide)
theorem EncodingFields.run : EncodingFields.Statement .run :=
  encodingFields_of_class (by decide)
theorem EncodingFields.start : EncodingFields.Statement .start :=
  encodingFields_of_class (by decide)
theorem EncodingFields.stop : EncodingFields.Statement .stop :=
  encodingFields_of_class (by decide)
theorem EncodingFields.commit : EncodingFields.Statement .commit :=
  encodingFields_of_class (by decide)
theorem EncodingFields.checkpoint : EncodingFields.Statement .checkpoint :=
  encodingFields_of_class (by decide)
theorem EncodingFields.rollback : EncodingFields.Statement .rollback :=
  encodingFields_of_class (by decide)
theorem EncodingFields.sync : EncodingFields.Statement .sync :=
  encodingFields_of_class (by decide)
theorem EncodingFields.reset : EncodingFields.Statement .reset :=
  encodingFields_of_class (by decide)

end Sys2Proof.Laws
end

