-- ==== Sys2Proof/Laws/Speculation.lean ====
section
/-! SUPPORT. Running ahead of real time (spec/46_frontend_ops.md R185): the loop whose cells all end after `now` is a number
of bit cells and nothing else, and a later loop passes through them. -/

namespace Sys2Proof.Machine

variable {c : Config}

/-- `k` bit cells in a row. -/
def stepped (c : Config) (k : Nat) (s : State) : State := (stepCell c)^[k] s

theorem stepped_succ (k : Nat) (s : State) : stepped c (k + 1) s = stepCell c (stepped c k s) :=
  Function.iterate_succ_apply' ..

theorem stepped_frame (k : Nat) (s : State) : sameBesideCell s (stepped c k s) ∧
    (stepped c k s).events = s.events ∧ sameLatchesAndStart s.cur (stepped c k s).cur := by
  induction k with
  | zero => exact ⟨rfl, rfl, rfl, rfl, rfl, rfl, rfl, rfl, rfl⟩
  | succ k ih =>
    obtain ⟨h1, h2, h3⟩ := ih
    rw [stepped_succ]
    exact ⟨sameBesideCell_trans h1 (stepCell_frame c _), by simpa using h2,
      sameLatchesAndStart_trans h3 (stepCell_latches c _)⟩

/-- R139, R185: from a running state whose pending cell ends after `now`, `RUN(limit, now)` is `k` bit cells. It emits
nothing, and stops before the last cell that ends by `limit` only at a cell that defers a syncpoint. -/
theorem runEngine_ahead {limit now : Nat} : ∀ (n : Nat) (s : State), cellsEnding c limit s.cur = n → LiveInv c s.cur →
    s.cur.state = .running → s.cur.nextState = none → ∀ a, s.cur.time = some a → now < a + c.period →
    ∃ k, runEngine c limit now s = stepped c k s ∧ k ≤ n ∧ (stepped c k s).cur.time = some (a + k * c.period) ∧
      (∀ j, j < k → (stepped c j s).cur.nextState = none ∧ (stepped c j s).cur.state = .running ∧
        (stepped c j s).cur.time = some (a + j * c.period)) ∧
      (stepped c k s).cur.state = .running ∧ ((stepped c k s).cur.nextState = none → k = n) := by
  intro n
  induction n with
  | zero =>
    intro s hs hl h1 h2 a ha hn
    refine ⟨0, ?_, le_refl _, by simpa [stepped] using ha, by omega, h1, fun _ => rfl⟩
    rw [runEngine_eq, settlePass_quiet h1 h2]
    by_cases he : cellEnded c limit s.cur = true
    · have := cellsEnding_stepCell he; omega
    · simp [he, stepped]
  | succ n ih =>
    intro s hs hl h1 h2 a ha hn
    have hp := period_pos c
    have he : cellEnded c limit s.cur = true := by
      rw [cellEnded_iff]
      refine ⟨a, ha, ?_⟩
      simp only [cellsEnding, ha] at hs
      have h3 := Nat.div_mul_le_self (limit - a) c.period
      rw [hs] at h3
      have : c.period ≤ (n + 1) * c.period := Nat.le_mul_of_pos_left _ (by omega)
      omega
    have hc := cellsEnding_stepCell he
    have hl' := stepCell_liveInv hl h1 h2
    have ht' : (stepCell c s).cur.time = some (a + c.period) := stepCell_time ha
    have hst' : (stepCell c s).cur.state = .running := by rw [stepCell_state, h1]
    rw [runEngine_eq, settlePass_quiet h1 h2]
    simp only [he, if_true]
    rcases hl'.deferred_value with hd | hd
    · obtain ⟨k, k1, k2, k3, k4, k5, k6⟩ := ih (stepCell c s) (by omega) hl' hst' hd _ ht' (by omega)
      refine ⟨k + 1, k1, by omega, ?_, ?_, k5, fun h => by rw [k6 h]⟩
      · show (stepped c k (stepCell c s)).cur.time = _
        rw [k3]; congr 1; ring
      · intro j hj
        cases j with
        | zero => exact ⟨h2, h1, by simpa [stepped] using ha⟩
        | succ j =>
          obtain ⟨a1, a2, a3⟩ := k4 j (by omega)
          refine ⟨a1, a2, ?_⟩
          show (stepped c j (stepCell c s)).cur.time = _
          rw [a3]; congr 1; ring
    · refine ⟨1, ?_, by omega, ?_, ?_, hst', ?_⟩
      · rw [runEngine_eq, settlePass_not_due (by rw [hd]; simp)]
        · rfl
        · simp [ht', timeAtOrBefore]; omega
      · simpa [stepped] using ht'
      · intro j hj
        cases j with
        | zero => exact ⟨h2, h1, by simpa [stepped] using ha⟩
        | succ j => omega
      · intro h; simp [stepped, hd] at h

/-- R139: a loop passes through cells that have all ended and defer nothing. -/
theorem runEngine_through {limit now : Nat} (k : Nat) (s : State) (a : Nat)
    (h : ∀ j, j < k → (stepped c j s).cur.nextState = none ∧ (stepped c j s).cur.state = .running ∧
      (stepped c j s).cur.time = some (a + j * c.period))
    (hle : a + k * c.period ≤ limit) : runEngine c limit now s = runEngine c limit now (stepped c k s) := by
  induction k with
  | zero => rfl
  | succ k ih =>
    obtain ⟨h1, h2, h3⟩ := h k (by omega)
    rw [add_mul, one_mul] at hle
    rw [ih (fun j hj => h j (by omega)) (by omega), stepped_succ]
    conv_lhs => rw [runEngine_eq, settlePass_quiet h2 h1]
    have : cellEnded c limit (stepped c k s).cur = true := by rw [cellEnded_iff]; exact ⟨_, h3, by omega⟩
    simp [this]

end Sys2Proof.Machine
end

