-- ==== Sys2Proof/Machine/Program.lean ====
section
/-! DEFINITION. Programs as lines of operations, and the pseudo-operations (spec/30_encoding.md R71, R72). -/

namespace Sys2Proof.Machine

/-- R71: a line `@<time>: <MNEMONIC> <operands>`, one external operation. -/
structure Line where
  time : Nat
  instr : Instr
  deriving DecidableEq, Repr

/-- R71: the operation a line issues; its word is the encoding of the line. R71's forms name no operation of class `I`: that a
line which holds one is an entry of the engine, and so a micro-operation and not R70's `IllegalOp`, is the model's choice
(log 4). -/
def Line.issue (l : Line) : Issue :=
  { agent := issuingAgent l.instr, now := l.time, word := encode l.instr, limit := l.time, index := 0 }

/-- R71: the lines of a program, issued after what is in the queue already. -/
def State.withLines (s : State) (ls : List Line) : State := { s with queue := s.queue ++ ls.map Line.issue }

/-- R72: `SELECT d, s`. -/
def expandSelect (t : Nat) (d : DriveId) (side : Side) : List Line :=
  [{ time := t, instr := .drvsel d }, { time := t, instr := .sidesel side }]

/-- R72: `TICK n` at time `t`. -/
def expandTick (c : Config) (t : Nat) (n : Nat) : List Line :=
  (List.range n).map (fun k => { time := t + k * c.period, instr := .timer })

/-- R72: `WRBYTE #b`. -/
def expandWrbyte (t : Nat) (b : Byte) : List Line := [{ time := t, instr := .wrdata b }]

end Sys2Proof.Machine
end

