-- ==== Sys2Proof/Machine/Reference.lean ====
section
/-! DEFINITION. The reference instances of spec/40_codec.md R84 and R85, which the vectors of spec/95_test_vectors.md use and
nothing normative does: no definition of the machine reads this file. -/

namespace Sys2Proof.Machine

/-- R84: `enc5`, the 4-to-5 group code. -/
def enc5 (n : BitVec 4) : BitVec 5 :=
  match n.toNat with
  | 0 => 0b01010
  | 1 => 0b01011
  | 2 => 0b10010
  | 3 => 0b10011
  | 4 => 0b01110
  | 5 => 0b01111
  | 6 => 0b10110
  | 7 => 0b10111
  | 8 => 0b01001
  | 9 => 0b11001
  | 10 => 0b11010
  | 11 => 0b11011
  | 12 => 0b01101
  | 13 => 0b11101
  | 14 => 0b11110
  | _ => 0b10101

/-- R84: `dec5`, the inverse of `enc5` on the 16 codes, if `c` is one of them. -/
def dec5 (c : BitVec 5) : Option (BitVec 4) := ((List.range 16).map (BitVec.ofNat 4)).find? (fun n => enc5 n == c)

/-- R84: one of the 16 codes. -/
def valid5 (c : BitVec 5) : Bool := (dec5 c).isSome

/-- R84: `REF_ROM`. -/
def refRom (i : CodecIndex) : Byte :=
  if i.getLsbD 10 = false then ((dec5 (i.extractLsb' 5 5)).getD 0) ++ ((dec5 (i.extractLsb' 0 5)).getD 0)
  else if i.getLsbD 8 then 0x00
  else if i.getLsbD 9 then 0x1F
  else 0#3 ++ enc5 (i.extractLsb' 0 4)

/-- R85: `REF_ERROR`. -/
def refError (i : CodecIndex) (_ : Byte) : Bool :=
  !i.getLsbD 10 && !(valid5 (i.extractLsb' 5 5) && valid5 (i.extractLsb' 0 5))

/-- The parameters of spec/95_test_vectors.md: `P` = 2130, `TB` = 1, `MAX_CYL` = 34, `T_reset` = 0, the default `PHASE_SEQ`,
both drives with a medium and not write-protected, at cylinder 0. -/
def refConfig : Config :=
  { gcrRom := refRom
    gcrError := refError
    cellPeriodLessOne := 2129
    transitionBit := true
    maxCylinder := 34
    initCylinder := fun _ => 0
    phaseCodes := .standard
    zoneSpeed := fun _ => 0
    resetTime := 0
    initWriteProtect := fun _ => false
    initMedium := fun _ => true }

end Sys2Proof.Machine
end

