-- ==== Sys2Proof/Tests/Slice0.lean ====
section
/-! SUPPORT. Tests. Words are written out from spec/30_encoding.md R66; the values of the vector tests are those of
spec/95_test_vectors.md, named in each comment, under its parameters (`refConfig`). The witnesses at the end meet the
hypotheses of the statements, one for each clause, at the ends of its range. -/

namespace Sys2Proof.Tests
open Sys2Proof.Machine

/-! ## Well-formedness: the one check, refused and passed -/

theorem test_wellFormed_refuses_motor_three : (Instr.motor 0 3).wellFormed = false ∧ (Instr.motor 1 3).wellFormed = false := by
  decide

theorem test_wellFormed_passes : (Instr.motor 1 2).wellFormed = true ∧ (Instr.spec 0xFF).wellFormed = true := by decide

/-! ## Decoding: one word of every row, bit by bit -/

theorem test_decode_latches :
    decode 0b00000001_10100101 = .ok (.wrdata 0xA5) ∧ decode 0b00000010_00000001 = .ok (.drvsel 1) ∧
    decode 0b00000011_00000000 = .ok (.sidesel 0) ∧ decode 0b00000100_00000001 = .ok (.wrgate true) ∧
    decode 0b00000101_00000001 = .ok (.ergate true) ∧ decode 0b00000110_00000000 = .ok (.wrsync false) := by decide

theorem test_decode_mechanics :
    decode 0b00000111_00000001 = .ok (.stpen true) ∧ decode 0b00001000_00010010 = .ok (.stpph 1 0b0010) ∧
    decode 0b00001000_00001101 = .ok (.stpph 0 0b1101) ∧ decode 0b00001001_00000001 = .ok (.motor 0 1) ∧
    decode 0b00001001_00010010 = .ok (.motor 1 2) := by decide

theorem test_decode_reads_and_scheduler :
    decode 0b00010000_00000000 = .ok .rddata ∧ decode 0b00010001_00000000 = .ok .rdstat ∧
    decode 0b00100000_00000000 = .ok .timer ∧ decode 0b00100001_11001000 = .ok (.spec 200) ∧
    decode 0b11111111_00000000 = .ok .reset := by decide

theorem test_decode_micro_operations :
    decode 0b11000000_00000000 = .ok .lookup ∧ decode 0b11000001_00000000 = .ok .refresh ∧
    decode 0b11000010_00000000 = .ok .step ∧ decode 0b11000011_00000000 = .ok .fire ∧
    decode 0b11000100_00000000 = .ok .run ∧ decode 0b11000101_00000000 = .ok .start ∧
    decode 0b11000110_00000000 = .ok .stop ∧ decode 0b11000111_00000000 = .ok .commit ∧
    decode 0b11001000_00000000 = .ok .checkpoint ∧ decode 0b11001001_00000000 = .ok .rollback ∧
    decode 0b11001010_00000000 = .ok .sync := by decide

/-- V86, V87, V89, R70: what is refused, and by which name. -/
theorem test_decode_refuses :
    decode 0x0402 = .error .reservedOperandBits ∧ decode 0x0903 = .error .reservedMotorCommand ∧
    decode 0x3000 = .error .unknownOp ∧ decode 0x0820 = .error .reservedOperandBits ∧
    decode 0x0904 = .error .reservedOperandBits ∧ decode 0xFF01 = .error .reservedOperandBits ∧
    decode 0xC201 = .error .reservedOperandBits := by decide

/-- R70, V88: which words the outside may issue. -/
theorem test_legal_outside :
    legalOutside 0x21FF = true ∧ legalOutside 0xFF00 = true ∧ legalOutside 0xC200 = false ∧ legalOutside 0x0903 = false := by
  decide

theorem test_decodeTableWord :
    decodeTableWord 16 0x0812 = some (.stpph 1 0b0010) ∧ decodeTableWord 16 0xC900 = some .rollback ∧
    decodeTableWord 16 0x0903 = none := by decide

/-! ## Vectors -/

/-- The reset state of the vectors. -/
def s0 : State := State.construct refConfig

/-- An operation is executed at `t`. -/
def atTime (t : Nat) (s : State) : State := { s with now := t, result := none }

/-- The state a `STEP` vector starts from, with the cell that starts at 0: the fields `f` sets, the transitions `m`. -/
def atCell (c : Config) (f : LiveState → LiveState) (m : List Nat) : State :=
  precomputeEdge
    { s0 with
      cur := refreshLive c (f { s0.cur with state := .running, time := some 0 })
      medium := m.map (fun t => { track := { drive := 0, cylinder := 0, side := 0 }, time := t }) }

/-- The five flags as a number, `byte_ready` first. -/
def flagsOf (f : StatusFlags) : Nat :=
  16 * f.byteReady.toNat + 8 * f.latchedByteReady.toNat + 4 * f.syncDetected.toNat + 2 * f.synMarker.toNat + f.gcrError.toNat

/-- V60: reset and `@0: MOTOR 0, START`. -/
def running0 (m : List Nat) : State :=
  motorOp refConfig 0 1 { s0 with medium := m.map (fun t => { track := { drive := 0, cylinder := 0, side := 0 }, time := t }) }

/-- V83, V84: in write mode with the byte 0xA5 since time 0, as after `WRDATA`, `WRGATE 1`, `MOTOR 0, START`. -/
def writing0 : State :=
  motorOp refConfig 0 1
    { s0 with cur := refreshLive refConfig { s0.cur with writeData := 0xA5, writeGate := true }
              chk := refreshLive refConfig { s0.cur with writeData := 0xA5, writeGate := true } }

/-- V1, V7, V10, V14. -/
theorem test_lookup : ((lookupCodec refConfig { s0 with index := 0x34F }).result = some 0xA5) ∧ refRom 0x3FE = 0x0E ∧
    refRom 0x40A = 0x1A ∧ refRom 0x700 = 0x00 ∧ refError 0x3FE 0x0E = true ∧ refError 0x34F 0xA5 = false := by decide

/-- V18, V19: the lookup input follows the bit counter over the two nibbles. -/
theorem test_refresh :
    (refreshCodec refConfig (s0.setCur { s0.cur with writeGate := true, writeData := 0xA5, bitCounter := 4 })).cur.gcrInput = 0x40A ∧
    (refreshCodec refConfig (s0.setCur { s0.cur with writeGate := true, writeData := 0xA5, bitCounter := 5 })).cur.gcrInput = 0x415 := by
  decide

/-- V25: the tenth bit of the fifteenth byte, with a transition at the last tick of the cell. -/
theorem test_step_read :
    let x := (stepCell refConfig (atCell refConfig (fun x => { x with
      shiftRegister := 0x0A4, bitCounter := 9, syncBitCounter := 9, syncByteCounter := 14
      flags := { StatusFlags.clear with gcrError := true } }) [2129])).cur
    x.shiftRegister = 0x149 ∧ x.bitCounter = 0 ∧ x.syncByteCounter = 15 ∧ x.gcrOutput = 0x08 ∧ flagsOf x.flags = 0b11010 ∧
      flagsOf x.changed = 0b11011 ∧ x.time = some 2130 ∧ x.nextState = some .runningSyncpoint := by decide

/-- V34, V35: the tenth bit of a written byte; no mark in write mode. -/
theorem test_step_write :
    (let x := (stepCell refConfig (atCell refConfig (fun x => { x with
      writeGate := true, writeData := 0xA5, shiftRegister := 0x1A7, bitCounter := 9, syncBitCounter := 9
      syncByteCounter := 3 }) [])).cur
    x.shiftRegister = 0x34F ∧ x.bitCounter = 0 ∧ x.syncByteCounter = 4 ∧ flagsOf x.flags = 0b11000 ∧ x.writeBuffer = [0]) ∧
    (let x := (stepCell refConfig (atCell refConfig (fun x => { x with
      writeGate := true, writeSyncGate := true, shiftRegister := 0x1FF, bitCounter := 7, syncBitCounter := 7 }) [])).cur
    x.shiftRegister = 0x3FF ∧ x.bitCounter = 8 ∧ x.gcrInput = 0x610 ∧ flagsOf x.flags = 0) := by decide

/-- V66: the order of the events of one syncpoint. -/
theorem test_fire_order :
    fireEvents 2130 { s0.cur with
      flags := { byteReady := true, latchedByteReady := true, syncDetected := false, synMarker := true, gcrError := false }
      changed := { byteReady := true, latchedByteReady := true, syncDetected := true, synMarker := true, gcrError := true } } =
    [.lbrdy 2130 true, .syn 2130 true, .brdyPulse 2130, .syncEdge 2130 false, .errorEdge 2130 false] := by decide

/-- V67: a falling `byte_ready` gives no pulse. -/
theorem test_fire_falling :
    fireEvents 7 { s0.cur with
      changed := { byteReady := true, latchedByteReady := true, syncDetected := false, synMarker := false, gcrError := false } } =
    [.lbrdy 7 false] := by decide

/-- V61, V62: the cell that ends at 2130 is processed at 2130 and not at 2129. -/
theorem test_run_boundary :
    (runEngine refConfig 2129 2129 (running0 [])).cur.time = some 0 ∧
    (runEngine refConfig 2130 2130 (running0 [])).cur.time = some 2130 ∧
    (runEngine refConfig 2130 2130 (running0 [])).events = [.errorEdge 2130 true] := by decide

/-- V64: beyond `now` a flag change stops the loop and nothing is emitted. -/
theorem test_run_ahead :
    (runEngine refConfig 426000 0 (running0 [])).cur.time = some 2130 ∧
    (runEngine refConfig 426000 0 (running0 [])).events = [] ∧
    (runEngine refConfig 426000 0 (running0 [])).wakeAt refConfig = some 2130 := by decide

/-- R135 (example), V84. -/
theorem test_start :
    (startEngine refConfig 1000 s0).cur.time = some 1000 ∧ (startEngine refConfig 1000 s0).cur.writeStartTime = none ∧
    writing0.cur.writeStartTime = some 0 ∧ writing0.cur.gcrOutput = 0x1A := by decide

/-- V65: `@5000: MOTOR 0, STOP` on a read track. -/
theorem test_motor_stop :
    let s := motorOp refConfig 0 0 (atTime 5000 (running0 []))
    s.cur.state = .idle ∧ s.cur.time = none ∧ s.cur.bitCounter = 2 ∧ flagsOf s.cur.flags = 1 ∧
      s.events = [.errorEdge 2130 true] ∧ s.wakeAt refConfig = none := by decide

/-- V60, V93: what `MOTOR 0, START` and `MOTOR 0, SELECT` leave. -/
theorem test_motor_start_select :
    (running0 []).cur.time = some 0 ∧ (running0 []).wakeAt refConfig = some 2130 ∧
    (let s := motorOp refConfig 0 2 (atTime 10 (running0 []))
     s.spindleCtl.d0 = .select ∧ s.drives.d0.motorEnabled = true ∧ s.cur.state = .running) := by decide

/-- R136 (example): an empty interval is not committed by `STOP`. -/
theorem test_stop :
    let s := stopEngine (s0.setCur { s0.cur with state := .running, time := some 21300, writeGate := true, writeStartTime := some 21300 })
    s.cur.state = .idle ∧ s.cur.time = none ∧ s.cur.writeStartTime = none ∧ s.events = [] := by decide

/-- V73, on track (0, 0, 1). -/
theorem test_commit :
    let tr : Track := { drive := 0, cylinder := 0, side := 1 }
    let s := commitWrites
      { s0 with
        cur := { s0.cur with
          state := .running, side := 1, writeGate := true, writeStartTime := some 0, time := some 21300
          writePosition := 3, writeBuffer := [0, 2130, 6390] }
        medium := [100, 21300, 30000].map (Mark.mk tr) }
    s.medium = [0, 2130, 6390, 21300, 30000].map (Mark.mk tr) ∧ s.cur.writeStartTime = some 21300 ∧
      s.cur.writeBuffer = [] ∧ s.events = [.commit tr 0 21300 [0, 2130, 6390]] := by decide

/-- V76: a commit with an empty list erases. -/
theorem test_commit_erases :
    let tr : Track := { drive := 0, cylinder := 0, side := 0 }
    (commitWrites
      { s0 with
        cur := { s0.cur with state := .running, writeGate := true, writeStartTime := some 0, time := some 4260 }
        medium := [100, 5000].map (Mark.mk tr) }).medium = [5000].map (Mark.mk tr) := by decide

/-- V72: `chk.time` and `next_edge` after a checkpoint at 5000, and the second one changes nothing. -/
theorem test_checkpoint :
    let s := checkpointEngine refConfig 5000 (running0 [6390])
    s.chk.time = some 4260 ∧ s.nextEdge = some 6390 ∧
      (let t := checkpointEngine refConfig 5000 s
       t.chk = s.chk ∧ t.nextEdge = s.nextEdge ∧ t.events = s.events) := by decide

/-- V70: `@4300: SPEC 6` runs ahead to 17040 and leaves the checkpoint at 4260. -/
theorem test_spec :
    let s := specOp refConfig 6 (atTime 4300 (running0 [6390]))
    s.chk.time = some 4260 ∧ s.cur.time = some 17040 ∧ s.cur.shiftRegister = 0x010 ∧ s.cur.bitCounter = 8 ∧
      s.nextEdge = none ∧ s.events = [.errorEdge 2130 true] := by decide

/-- V70: the rollback inside the next `TIMER`, seen in `ROLLBACK` and in `SYNC`. -/
theorem test_rollback_sync :
    let s := specOp refConfig 6 (atTime 4300 (running0 [6390]))
    (rollbackEngine s).cur.time = some 4260 ∧ (rollbackEngine s).nextEdge = some 6390 ∧
      (syncEngine refConfig 9000 s).cur.time = some 8520 ∧ (syncEngine refConfig 9000 s).cur.shiftRegister = 0x001 := by decide

/-- R138 (log 16): a `ROLLBACK` after a `STOP` issued alone leaves `Idle`, though the checkpoint is `Running`. -/
theorem test_rollback_idle :
    let s := stopEngine (running0 [6390])
    s.chk.state = .running ∧ (rollbackEngine s).cur = s.cur ∧ (rollbackEngine s).nextEdge = none := by decide

/-- V71: with the speculated cells all ended, `TIMER` keeps them. -/
theorem test_timer :
    let s := timerOp refConfig (atTime 17100 (specOp refConfig 6 (atTime 4300 (running0 [6390]))))
    s.cur.time = some 17040 ∧ s.chk.time = some 17040 ∧ s.events = [.errorEdge 2130 true] := by decide

/-- P1, lines 3 and 4: ten cells of 0xA5 and `WRGATE 0`. -/
theorem test_wrgate_closes :
    let s := wrgateOp refConfig false (atTime 21300 writing0)
    s.events = [.lbrdy 21300 true, .brdyPulse 21300,
      .commit { drive := 0, cylinder := 0, side := 0 } 0 21300 [0, 2130, 6390, 12780, 14910, 17040, 19170]] ∧
      s.cur.shiftRegister = 0x34F ∧ s.cur.gcrOutput = 0xA5 ∧ s.cur.writeStartTime = none := by decide

/-- V85: the interval opens at the pending boundary. -/
theorem test_wrgate_opens :
    (wrgateOp refConfig true (atTime 5000 (running0 []))).cur.writeStartTime = some 4260 := by decide

/-- V83: `WRDATA` in write mode changes the lookup at once. -/
theorem test_wrdata :
    let s := wrdataOp refConfig 0xA5 (s0.setCur { s0.cur with writeGate := true })
    s.cur.writeData = 0xA5 ∧ s.cur.gcrInput = 0x40A ∧ s.cur.gcrOutput = 0x1A ∧ s.chk = s.cur := by decide

/-- R62: the two gates are bits 8 and 9 of the write-mode input (V12, V13). -/
theorem test_ergate_wrsync :
    (ergateOp refConfig true (s0.setCur { s0.cur with writeGate := true })).cur.gcrInput = 0x500 ∧
    (wrsyncOp refConfig true (s0.setCur { s0.cur with writeGate := true })).cur.gcrInput = 0x600 := by decide

/-- R172, R174, R175: selecting mirrors the side. -/
theorem test_select :
    let s := drvselOp refConfig 1 (sideselOp refConfig 1 s0)
    s.cur.drive = 1 ∧ s.cur.side = 1 ∧ s.drives.d0.side = 1 ∧ s.drives.d1.side = 1 := by decide

/-- R180 (example), V113: a forward step, and none while the stepper is off, where the code is latched all the same. -/
theorem test_stpph :
    (stpphOp refConfig 0 0b0001 (stpenOp refConfig true s0)).drives.d0.cylinder = 1 ∧
    (stpphOp refConfig 0 0b0001 s0).drives.d0.cylinder = 0 ∧ (stpphOp refConfig 0 0b0001 s0).drives.d0.phase = 0b0001 := by
  decide

/-- V103, V104, V108, V112. -/
theorem test_stepDecode :
    stepDecode refConfig 0b0010 0b0000 true = 1 ∧ stepDecode refConfig 0b0000 0b0010 true = -1 ∧
    stepDecode refConfig 0b0000 0b0011 true = 0 ∧ stepDecode refConfig 0b0100 0b0001 true = 0 := by decide

/-- V115 to V117. -/
theorem test_cylinder :
    moveCylinder refConfig 0 (-1) = 0 ∧ moveCylinder refConfig 34 1 = 34 ∧ moveCylinder refConfig 1 (-1) = 0 := by decide

/-- V81, V82. -/
theorem test_reads :
    (rdstatOp refConfig { s0 with drives := { s0.drives with d0 := { s0.drives.d0 with writeProtect := true, cylinder := 5 } } }).result =
      some 0x20 ∧ (rddataOp refConfig s0).result = some 0x00 := by decide

/-- P1, line 5: the status byte after a byte has been written. -/
theorem test_rdstat_after_byte :
    (rdstatOp refConfig (wrgateOp refConfig false (atTime 21300 writing0))).result = some 0x43 := by decide

/-- V91. -/
theorem test_reset :
    let s := resetOp refConfig (raise (.timeRegression 50) (atTime 100 (running0 [6390])))
    s.fault = none ∧ s.cur.state = .idle ∧ s.lastNow = 100 ∧ s.medium = (running0 [6390]).medium ∧ s.events = [] := by decide

/-- V90, and `CommitNoMedium` (R43) with its codes (R215). -/
theorem test_violations :
    (timerOp refConfig { s0 with lastNow := 100, now := 50 }).fault = some (.timeRegression 50) ∧
    (timerOp refConfig (atTime 2130 { writing0 with drives := { writing0.drives with d0 := { writing0.drives.d0 with medium := false } } })).fault =
      some (.commitNoMedium 0) ∧ (Violation.commitNoMedium 0).code = 1 ∧ (Violation.timeRegression 0).code = 4 := by decide

/-- The violation a step leaves, if it gives a next state. -/
def faultAfter : StepResult → Option (Option Violation)
  | .next s => some s.fault
  | .fault _ => none
  | .refused _ => none

/-- One word issued by an agent. -/
def issued (a : Agent) (w : Word) : State := { s0 with queue := [{ agent := a, now := 0, word := w, limit := 0, index := 0 }] }

/-- V86 to V89. -/
theorem test_illegal_words :
    faultAfter (step (issued .host 0x0402)) = some (some (.illegalOp 0x0402)) ∧
    faultAfter (step (issued .host 0x0903)) = some (some (.illegalOp 0x0903)) ∧
    faultAfter (step (issued .host 0xC200)) = some (some (.illegalOp 0xC200)) ∧
    faultAfter (step (issued .scheduler 0x3000)) = some (some (.illegalOp 0x3000)) := by decide

/-- R43: a commit is read back; R42: the search is inclusive. -/
theorem test_medium :
    let tr : Track := { drive := 1, cylinder := 2, side := 0 }
    mediumHas (mediumReplace [] tr 0 10 [3, 7]) tr 7 = true ∧ mediumHas (mediumReplace [⟨tr, 5⟩] tr 0 10 [3]) tr 5 = false ∧
    mediumNext (mediumReplace [] tr 0 10 [3, 7]) tr 7 = some 7 ∧ mediumNext (mediumReplace [] tr 0 10 [3, 7]) tr 8 = none := by
  decide

/-- R72: the pseudo-operations. -/
theorem test_program :
    ((expandSelect 5 1 0).map Line.issue).map Issue.word = [0x0201, 0x0300] := by decide

theorem test_program_tick :
    (expandTick refConfig 5 2).map Line.time = [5, 2135] ∧ (expandWrbyte 0 0x11).map Line.instr = [.wrdata 0x11] := by decide

/-- R86: `REF_ROM` has the round-trip property on the bytes V40 names. -/
theorem test_round_trip :
    refRom (0#1 ++ (enc5 0xA ++ enc5 0x5)) = 0xA5 ∧ refRom (0#1 ++ (enc5 0x0 ++ enc5 0x0)) = 0x00 ∧
    refRom (0#1 ++ (enc5 0xF ++ enc5 0xF)) = 0xFF ∧ enc5 0xA ++ enc5 0x5 = 0x34F#10 := by decide

/-! ## Witnesses

The states below have the parameters of `Config.machine`, which nothing can be proved about; so each witness is found for
whatever the parameters are. `P` is the cell period. -/

/-- The cell period. -/
abbrev P : Nat := Config.machine.period

/-- A live state with the codec pair of its latches. -/
def live (f : LiveState → LiveState) : LiveState := refreshLive Config.machine (f (LiveState.reset Config.machine))

/-- Motors off, media inserted, time 0. -/
def idle : State :=
  { State.reset with
    lastNow := 0, now := 0, limit := 0
    drives := { d0 := { Drive.construct Config.machine 0 with medium := true }
                d1 := { Drive.construct Config.machine 1 with medium := true } } }

/-- Motor 0 on at time `n`, with the live state `x`, the checkpoint `y` and the transition of time 0 on the medium. -/
def spinning (n : Nat) (x y : LiveState) : State :=
  let s : State :=
    { idle with
      cur := x, chk := y, lastNow := n, now := n, limit := n
      medium := [{ track := { drive := 0, cylinder := Config.machine.initialCylinder 0, side := 0 }, time := 0 }]
      drives := { d0 := { Drive.construct Config.machine 0 with medium := true, motorEnabled := true }
                  d1 := { Drive.construct Config.machine 1 with medium := true } } }
  { s with nextEdge := edgeFor s x }

/-- Reading, at the boundary `t`. -/
def readingAt (t : Nat) : LiveState := live fun x => { x with state := .running, time := some t }

/-- Writing since time 0, at the boundary 0: an empty interval. -/
def writingLive : LiveState :=
  live fun x => { x with state := .running, time := some 0, writeGate := true, writeStartTime := some 0 }

/-- Writing since time 0, at the boundary `P`, with one transition queued. -/
def writtenLive : LiveState :=
  live fun x => { x with
    state := .running, time := some P, writeGate := true, writeStartTime := some 0, writeBuffer := [0], writePosition := 1
    bitCounter := 1, syncBitCounter := 1 }

/-- A deferred syncpoint at the boundary `t`. -/
def deferredAt (t : Nat) : LiveState :=
  live fun x => { x with
    state := .running, time := some t, nextState := some .runningSyncpoint
    changed := { StatusFlags.clear with gcrError := true } }

/-- At a syncpoint of time 0. -/
def syncpointLive : LiveState :=
  live fun x => { x with
    state := .runningSyncpoint, time := some 0, changed := { StatusFlags.clear with gcrError := true } }

/-- `State.reset`'s live state. -/
def idleLive : LiveState := LiveState.reset Config.machine

def reading : State := spinning 0 (readingAt 0) (readingAt 0)
def writing : State := spinning 0 writingLive writingLive
def written : State := spinning P writtenLive writingLive
/-- The live copy one cell ahead of real time, the checkpoint at real time. -/
def ahead : State := spinning 0 (readingAt P) (readingAt 0)
def deferred (t : Nat) : State := spinning 0 (deferredAt t) (readingAt 0)
def syncpoint : State := spinning 0 syncpointLive (readingAt 0)
def faulted : State := { idle with fault := some (.timeRegression 0) }

theorem idleLive_inv : LiveInv Config.machine idleLive := by
  constructor <;>
    simp [idleLive, LiveState.reset, StatusFlags.clear, StatusFlags.any, codecInput]

theorem readingAt_inv (t : Nat) : LiveInv Config.machine (readingAt t) := by
  constructor <;>
    simp [readingAt, live, refreshLive, LiveState.reset, StatusFlags.clear, StatusFlags.any, codecInput]

theorem deferredAt_inv (t : Nat) : LiveInv Config.machine (deferredAt t) := by
  constructor <;>
    simp [deferredAt, live, refreshLive, LiveState.reset, StatusFlags.clear, StatusFlags.any, codecInput]

theorem writingLive_inv : LiveInv Config.machine writingLive := by
  constructor <;>
    simp [writingLive, live, refreshLive, LiveState.reset, StatusFlags.clear, StatusFlags.any, codecInput, secondHalf, writeNibble]

theorem writtenLive_inv : LiveInv Config.machine writtenLive := by
  have : 0 < Config.machine.period := period_pos _
  constructor <;>
    simp [writtenLive, live, refreshLive, LiveState.reset, StatusFlags.clear, StatusFlags.any, codecInput, secondHalf, writeNibble, this]

theorem spinning_inv {n : Nat} {x y : LiveState} (hx : LiveInv Config.machine x) (hy : LiveInv Config.machine y)
    (h1 : y.nextState = none) (h2 : ∀ t, y.time = some t → t ≤ n) (h3 : sameLatches x y) (h4 : x.drive = 0) (h5 : x.side = 0) :
    Inv Config.machine (spinning n x y) :=
  { medium_wf := List.pairwise_singleton _ _
    cylinders_in_range := fun d => match d with
      | 0 => Nat.min_le_right _ _
      | 1 => Nat.min_le_right _ _
    controller := fun _ =>
      { live := hx, saved := hy, saved_defers_nothing := h1, saved_not_ahead := h2, latches_agree := h3
        side_mirror := by show ((spinning n x y).drv x.drive).side = x.side; rw [h4, h5]; rfl } }

theorem idle_inv : Inv Config.machine idle :=
  { medium_wf := List.Pairwise.nil
    cylinders_in_range := fun d => match d with
      | 0 => Nat.min_le_right _ _
      | 1 => Nat.min_le_right _ _
    controller := fun _ =>
      { live := idleLive_inv, saved := idleLive_inv, saved_defers_nothing := rfl, saved_not_ahead := fun _ h => by cases h
        latches_agree := ⟨rfl, rfl, rfl, rfl, rfl, rfl⟩, side_mirror := rfl } }

theorem zero_of_some {a t : Nat} (h : (some a : Time) = some t) : t ≤ a := by cases h; exact le_refl _

theorem reading_inv : Inv Config.machine reading :=
  spinning_inv (readingAt_inv 0) (readingAt_inv 0) rfl (fun _ h => zero_of_some h) ⟨rfl, rfl, rfl, rfl, rfl, rfl⟩ rfl rfl

theorem ahead_inv : Inv Config.machine ahead :=
  spinning_inv (readingAt_inv P) (readingAt_inv 0) rfl (fun _ h => zero_of_some h) ⟨rfl, rfl, rfl, rfl, rfl, rfl⟩ rfl rfl

theorem written_inv : Inv Config.machine written :=
  spinning_inv writtenLive_inv writingLive_inv rfl (fun _ h => (zero_of_some h).trans (Nat.zero_le _))
    ⟨rfl, rfl, rfl, rfl, rfl, rfl⟩ rfl rfl

theorem writing_inv : Inv Config.machine writing :=
  spinning_inv writingLive_inv writingLive_inv rfl (fun _ h => zero_of_some h) ⟨rfl, rfl, rfl, rfl, rfl, rfl⟩ rfl rfl

/-- `idle` with the write gate on (P6, line 1). -/
def idleGated : State :=
  let x : LiveState := live fun x => { x with writeGate := true }
  { idle with cur := x, chk := x }

theorem idleGated_inv : Inv Config.machine idleGated := by
  have hx : LiveInv Config.machine idleGated.cur := by
    constructor <;>
      simp [idleGated, live, refreshLive, LiveState.reset, StatusFlags.clear, StatusFlags.any, codecInput, secondHalf, writeNibble]
  exact { idle_inv with controller := fun _ => { idle_inv.controller rfl with
    live := hx, saved := hx, saved_defers_nothing := rfl, saved_not_ahead := fun _ h => by cases h
    latches_agree := ⟨rfl, rfl, rfl, rfl, rfl, rfl⟩ } }

/-- `s` with the medium of drive 0 taken out. -/
def noMedium (s : State) : State := { s with drives := { s.drives with d0 := { s.drives.d0 with medium := false } } }

theorem noMedium_drv (s : State) (d : DriveId) :
    ((noMedium s).drv d).side = (s.drv d).side ∧ ((noMedium s).drv d).cylinder = (s.drv d).cylinder := by
  match d with
  | 0 => exact ⟨rfl, rfl⟩
  | 1 => exact ⟨rfl, rfl⟩

theorem noMedium_inv {s : State} (h : Inv Config.machine s) : Inv Config.machine (noMedium s) :=
  { medium_wf := h.medium_wf
    cylinders_in_range := fun d => by rw [(noMedium_drv s d).2]; exact h.cylinders_in_range d
    controller := fun hf => { h.controller hf with
      side_mirror := (noMedium_drv s _).1.trans (h.controller hf).side_mirror } }

/-- The state that `SYNC` commits in, of a settled state at its own time. -/
theorem beforeCommit_settled {s : State} (h : Inv Config.machine s) (hf : s.fault = none)
    (hs : settled Config.machine s.lastNow s.cur = true) : beforeCommit s.lastNow s = s := by
  unfold beforeCommit
  rw [discardSpeculation_of_settled (h.controller hf).live.time_never_iff_idle hs, runEngine_of_settled hs]

theorem ready_of {s : State} (h : Inv Config.machine s) (hf : s.fault = none) (hn : s.lastNow = s.now)
    (hc : canCommit (beforeCommit s.lastNow s)) : Ready s := by
  have e : ({ s with lastNow := s.now } : State) = s := by cases s; cases hn; rfl
  exact ⟨h, hf, hn.le, by rw [e, ← hn]; exact hc⟩

theorem canCommit_before {s : State} (h : Inv Config.machine s) (hf : s.fault = none)
    (hc : s.cur.writeGate = false ∨ (s.drv s.cur.drive).medium = true) : canCommit (beforeCommit s.lastNow s) :=
  canCommit_of_gate_or_medium ((h.controller hf).syncable (le_refl _)) hc

/-- An empty interval can be committed. -/
theorem canCommit_of_empty {s : State} (h : s.cur.writeStartTime = s.cur.time) : canCommit s := by
  intro w t hw ht hlt
  rw [h, ht] at hw; cases hw; omega

theorem writing_settled : settled Config.machine writing.lastNow writing.cur = true := by
  have hp := period_pos Config.machine
  simp [settled, writing, spinning, writingLive, live, refreshLive, LiveState.reset, timeAtOrBefore, cellEnded, hp.ne']

/-- P6, lines 2 and 3: writing to a drive without a medium, no cell ended. -/
theorem noMedium_writing : canCommit (beforeCommit (noMedium writing).lastNow (noMedium writing)) := by
  rw [beforeCommit_settled (noMedium_inv writing_inv) rfl writing_settled]
  exact canCommit_of_empty rfl

/-- Every statement with the premise `Ready` (`DataAndGateLatches` to `ExternalOperationsStoreOnlyTheirCommit`): an idle engine,
a reading one, a writing one with a transition queued, one that has speculated, and, with the write gate on and no medium, an
idle one and a writing one before its first cell has ended. -/
theorem witness_Ready : Ready idle ∧ Ready reading ∧ Ready written ∧ Ready ahead ∧ Ready (noMedium idleGated) ∧
    Ready (noMedium writing) :=
  ⟨ready_of idle_inv rfl rfl (canCommit_before idle_inv rfl (.inl rfl)),
    ready_of reading_inv rfl rfl (canCommit_before reading_inv rfl (.inl rfl)),
    ready_of written_inv rfl rfl (canCommit_before written_inv rfl (.inr rfl)),
    ready_of ahead_inv rfl rfl (canCommit_before ahead_inv rfl (.inl rfl)),
    ready_of (noMedium_inv idleGated_inv) rfl rfl
      (canCommit_of_idle ((noMedium_inv idleGated_inv).controller rfl).live rfl),
    ready_of (noMedium_inv writing_inv) rfl rfl noMedium_writing⟩

/-- `SyncLandsAtRealTime`, `SyncFrame`, `LatchesAreWrittenByTheirOwnOperation`. -/
theorem witness_Inv : (Inv Config.machine idle ∧ idle.fault = none ∧ canCommit (beforeCommit idle.lastNow idle)) ∧
    (Inv Config.machine ahead ∧ ahead.fault = none ∧ canCommit (beforeCommit ahead.lastNow ahead)) ∧
    (Inv Config.machine written ∧ canCommit (beforeCommit written.lastNow written)) ∧
    (Inv Config.machine (noMedium writing) ∧ (noMedium writing).fault = none ∧
      canCommit (beforeCommit (noMedium writing).lastNow (noMedium writing))) :=
  ⟨⟨idle_inv, rfl, canCommit_before idle_inv rfl (.inl rfl)⟩, ⟨ahead_inv, rfl, canCommit_before ahead_inv rfl (.inl rfl)⟩,
    ⟨written_inv, canCommit_before written_inv rfl (.inr rfl)⟩, noMedium_inv writing_inv, rfl, noMedium_writing⟩

/-- `LookupReturnsTableEntry`, `RefreshRecomputesTheCodecPair`, and `IllegalWordIsAViolation` for `MOTOR` 3. -/
theorem witness_no_violation : idle.fault = none ∧ ahead.fault = none := ⟨rfl, rfl⟩

/-- `RollbackRestoresTheCheckpoint`, its two clauses. -/
theorem witness_RollbackRestoresTheCheckpoint : (ahead.fault = none ∧ ahead.cur.state ≠ .idle) ∧
    (idle.fault = none ∧ idle.cur.state = .idle) := ⟨⟨rfl, fun h => by cases h⟩, rfl, rfl⟩

/-- `CodecInputFormats`: read mode, and write mode in both halves of the byte, on each side of the switch. -/
theorem witness_CodecInputFormats :
    (readingAt 0).writeGate = false ∧
    (let x : LiveState := { writingLive with bitCounter := 4 }; x.writeGate = true ∧ ¬ 5 ≤ x.bitCounter.val) ∧
    (let x : LiveState := { writingLive with bitCounter := 5 }; x.writeGate = true ∧ 5 ≤ x.bitCounter.val) := by decide

/-- `StepReadsItsCell`. -/
theorem witness_StepReadsItsCell : reading.fault = none ∧ reading.cur.state = .running ∧ reading.cur.nextState = none ∧
    reading.cur.time = some 0 ∧ reading.cur.writeGate = false ∧ Medium.wf reading.medium ∧
    reading.nextEdge = fluxNext reading reading.track 0 :=
  ⟨rfl, rfl, rfl, rfl, rfl, List.pairwise_singleton _ _, rfl⟩

/-- `StepWritesItsCell`, and the premises of `StepCounts`, `StepSetsTheStatusFlags` and `StepDefersChangedFlags`. -/
theorem witness_StepWritesItsCell : writing.fault = none ∧ writing.cur.state = .running ∧ writing.cur.nextState = none ∧
    writing.cur.time = some 0 ∧ writing.cur.writeGate = true := ⟨rfl, rfl, rfl, rfl, rfl⟩

/-- Reading, one bit short of a mark that the next cell completes, whichever bit value a transition has. -/
def beforeMark : State :=
  { reading with
    cur := { readingAt 0 with shiftRegister := 0x1FF, bitCounter := 9, syncBitCounter := 9 }
    nextEdge := if Config.machine.transitionBit then some 0 else none }

/-- Reading, nine cells into a byte, no transition bit in the next cell. -/
def beforeByte : State :=
  { reading with
    cur := { readingAt 0 with bitCounter := 9, syncBitCounter := 9 }
    nextEdge := if Config.machine.transitionBit then none else some 0 }

/-- `StepCounts` and `StepSetsTheStatusFlags`, the clause with a mark. -/
theorem witness_StepCounts_mark : beforeMark.fault = none ∧ beforeMark.cur.state = .running ∧
    beforeMark.cur.nextState = none ∧ beforeMark.cur.time = some 0 ∧
    ∃ u, exec .step beforeMark = .next u ∧ u.cur.shiftRegister = 0x3FF#10 ∧ beforeMark.cur.writeGate = false := by
  refine ⟨rfl, rfl, rfl, rfl, _, rfl, ?_, rfl⟩
  have hp := period_pos Config.machine
  show shiftIn 0x1FF (readBit Config.machine 0 beforeMark) = _
  cases h : Config.machine.transitionBit <;> simp [readBit, beforeMark, h, hp, shiftIn]

/-- `StepCounts` and `StepSetsTheStatusFlags`, the clause without a mark, at the tenth bit of a byte. -/
theorem witness_StepCounts_byte : beforeByte.fault = none ∧ beforeByte.cur.state = .running ∧
    beforeByte.cur.nextState = none ∧ beforeByte.cur.time = some 0 ∧ beforeByte.cur.syncBitCounter.val = 9 ∧
    ∃ u, exec .step beforeByte = .next u ∧ ¬ (u.cur.shiftRegister = 0x3FF#10 ∧ beforeByte.cur.writeGate = false) := by
  refine ⟨rfl, rfl, rfl, rfl, rfl, _, rfl, ?_⟩
  have hp := period_pos Config.machine
  show ¬ (shiftIn 0 (readBit Config.machine 0 beforeByte) = _ ∧ _)
  cases h : Config.machine.transitionBit <;> simp [readBit, beforeByte, h, hp, shiftIn]

/-- `StepFrame`, `RunAndFireFrame`, `SyncFrame`: the operations that answer a next state. -/
theorem witness_frames : (∃ u, exec .step reading = .next u) ∧ (∃ u, exec .step writing = .next u) ∧
    (∃ u, exec .run reading = .next u) ∧ (∃ u, exec .fire syncpoint = .next u) ∧
    (Inv Config.machine written ∧ ∃ u, exec .sync written = .next u) :=
  ⟨⟨_, rfl⟩, ⟨_, rfl⟩, ⟨_, rfl⟩, ⟨_, rfl⟩, written_inv, _, rfl⟩

/-- `writing` after `j` cells, each processed by `RUN` when it ends. -/
def writingAfter : Nat → State
  | 0 => writing
  | j + 1 => runEngine Config.machine (0 + (j + 1) * P) (0 + (j + 1) * P)
      { writingAfter j with lastNow := 0 + (j + 1) * P, limit := 0 + (j + 1) * P }

theorem writingAfter_gate (j : Nat) : (writingAfter j).fault = none ∧ (writingAfter j).cur.writeGate = true := by
  induction j with
  | zero => exact ⟨rfl, rfl⟩
  | succ j ih =>
    refine ⟨(runEngine_fault ..).trans ih.1, ?_⟩
    obtain ⟨-, -, h, -⟩ := runEngine_latches Config.machine (0 + (j + 1) * P) (0 + (j + 1) * P)
      { writingAfter j with lastNow := 0 + (j + 1) * P, limit := 0 + (j + 1) * P }
    exact h.symm.trans ih.2

/-- `FramingCountersAfterAMark`, for every number of cells: in write mode there is no mark. -/
theorem witness_FramingCountersAfterAMark (k : Nat) : (writingAfter 0).fault = none ∧
    (writingAfter 0).cur.state = .running ∧ (writingAfter 0).cur.nextState = none ∧ (writingAfter 0).cur.time = some 0 ∧
    (writingAfter 0).cur.bitCounter = 0 ∧ (writingAfter 0).cur.syncBitCounter = 0 ∧ (writingAfter 0).cur.syncByteCounter = 0 ∧
    ∀ j, j < k →
      exec .run { writingAfter j with lastNow := 0 + (j + 1) * P, limit := 0 + (j + 1) * P } = .next (writingAfter (j + 1)) ∧
      ¬ ((writingAfter (j + 1)).cur.shiftRegister = 0x3FF#10 ∧ (writingAfter (j + 1)).cur.writeGate = false) := by
  refine ⟨rfl, rfl, rfl, rfl, rfl, rfl, rfl, fun j _ => ⟨?_, fun h => ?_⟩⟩
  · have hf : ({ writingAfter j with lastNow := 0 + (j + 1) * P, limit := 0 + (j + 1) * P } : State).fault = none :=
      (writingAfter_gate j).1
    simp only [exec, execRun, microOp]
    rw [andThen_of_none _ hf]
    rfl
  · rw [(writingAfter_gate (j + 1)).2] at h; cases h.2

/-- The clause about `syn_marker` on both sides of its two edges. -/
theorem witness_FramingCountersAfterAMark_edges :
    (0 < 149 ∧ 149 < 300 ∧ ¬ 150 ≤ 149) ∧ (0 < 150 ∧ 150 < 300 ∧ 150 ≤ 150 ∧ 150 < 160) ∧
      (0 < 159 ∧ 159 < 300 ∧ 150 ≤ 159 ∧ 159 < 160) ∧ (0 < 160 ∧ 160 < 300 ∧ ¬ 160 < 160) := by decide

/-- Writing since time 0, at real time ten cells later. -/
def tenCellsLater : State := spinning (10 * P) writingLive writingLive

/-- `TenCellsSendOneByte`. -/
theorem witness_TenCellsSendOneByte : tenCellsLater.fault = none ∧ tenCellsLater.cur.state = .running ∧
    tenCellsLater.cur.nextState = none ∧ tenCellsLater.cur.time = some 0 ∧ tenCellsLater.cur.writeGate = true ∧
    tenCellsLater.cur.bitCounter.val = 0 ∧ tenCellsLater.cur.gcrOutput = Config.machine.gcrRom (codecInput tenCellsLater.cur) ∧
    tenCellsLater.limit = tenCellsLater.lastNow ∧ 0 + 10 * P ≤ tenCellsLater.lastNow ∧ tenCellsLater.lastNow < 0 + 11 * P := by
  have hp := period_pos Config.machine
  refine ⟨rfl, rfl, rfl, rfl, rfl, rfl, rfl, rfl, ?_, ?_⟩
  · show 0 + 10 * P ≤ 10 * P; omega
  · show 10 * P < 0 + 11 * P; unfold P; omega

/-- `MicroOperationsStopOutsideTheirPreconditions`, its five clauses; the last one at one tick past real time. -/
theorem witness_MicroOperationsStop : idle.fault = none ∧
    ¬ (idle.cur.state = .running ∧ idle.cur.nextState = none ∧ idle.cur.time ≠ none) ∧
    (deferred 0).fault = none ∧
    ¬ ((deferred 0).cur.state = .running ∧ (deferred 0).cur.nextState = none ∧ (deferred 0).cur.time ≠ none) ∧
    ¬ (idle.cur.state = .runningSyncpoint ∧ idle.cur.time ≠ none) ∧
    reading.fault = none ∧ reading.cur.state ≠ .idle ∧
    ¬ (idle.cur.state = .running ∧ settled Config.machine idle.lastNow idle.cur = true) ∧
    ¬ ((deferred 1).cur.state = .idle ∨ ∃ t, (deferred 1).cur.time = some t ∧ t ≤ (deferred 1).lastNow) := by
  refine ⟨rfl, by decide, rfl, ?_, by decide, rfl, ?_, ?_, ?_⟩
  · rintro ⟨-, h, -⟩; cases h
  · intro h; cases h
  · rintro ⟨h, -⟩; cases h
  · rintro (h | ⟨t, h, h'⟩)
    · cases h
    · cases h; exact absurd h' (by decide)

/-- `FireDeliversThePendingEvents`. -/
theorem witness_FireDeliversThePendingEvents :
    syncpoint.fault = none ∧ syncpoint.cur.state = .runningSyncpoint ∧ syncpoint.cur.time = some 0 := ⟨rfl, rfl, rfl⟩

/-- Reading at the boundary 0, with a limit. -/
def readingTo (limit : Nat) : State := { reading with limit := limit }

/-- `deferred 0` with a return to `Running` deferred. -/
def returning : State := { deferred 0 with cur := { (deferred 0).cur with nextState := some .running } }

/-- `RunIsItsLoop`, its clauses: idle; a syncpoint one tick ahead; the same, due exactly; a return due exactly; an undelivered
syncpoint; a cell that ends one tick past the limit; one that ends exactly at it. -/
theorem witness_RunIsItsLoop : (idle.fault = none ∧ idle.cur.state = .idle) ∧
    ((deferred 1).fault = none ∧ (deferred 1).cur.state ≠ .idle ∧ (deferred 1).cur.nextState ≠ none ∧
      (deferred 1).cur.time = some 1 ∧ (deferred 1).lastNow < 1) ∧
    ((deferred 0).fault = none ∧ (deferred 0).cur.state ≠ .idle ∧ (deferred 0).cur.nextState = some .runningSyncpoint ∧
      (deferred 0).cur.time = some 0 ∧ 0 ≤ (deferred 0).lastNow) ∧
    (returning.fault = none ∧ returning.cur.state ≠ .idle ∧ returning.cur.nextState = some .running ∧
      returning.cur.time = some 0 ∧ 0 ≤ returning.lastNow) ∧
    (syncpoint.fault = none ∧ syncpoint.cur.state = .runningSyncpoint ∧ syncpoint.cur.nextState = none ∧
      syncpoint.cur.time = some 0) ∧
    ((readingTo (P - 1)).fault = none ∧ (readingTo (P - 1)).cur.state = .running ∧ (readingTo (P - 1)).cur.nextState = none ∧
      (readingTo (P - 1)).cur.time = some 0 ∧ (readingTo (P - 1)).limit < 0 + P) ∧
    ((readingTo P).fault = none ∧ (readingTo P).cur.state = .running ∧ (readingTo P).cur.nextState = none ∧
      (readingTo P).cur.time = some 0 ∧ 0 + P ≤ (readingTo P).limit) := by
  have hp := period_pos Config.machine
  refine ⟨⟨rfl, rfl⟩, ⟨rfl, (fun h => by cases h), (fun h => by cases h), rfl, Nat.zero_lt_one⟩,
    ⟨rfl, (fun h => by cases h), rfl, rfl, Nat.zero_le _⟩, ⟨rfl, (fun h => by cases h), rfl, rfl, Nat.zero_le _⟩,
    ⟨rfl, rfl, rfl, rfl⟩, ⟨rfl, rfl, rfl, rfl, ?_⟩, ⟨rfl, rfl, rfl, rfl, ?_⟩⟩
  · show P - 1 < 0 + P; unfold P; omega
  · show 0 + P ≤ P; omega

/-- `RunSettlesTheEngine`. -/
theorem witness_RunSettlesTheEngine : reading.fault = none ∧ LiveInv Config.machine reading.cur ∧
    reading.limit = reading.lastNow ∧ ∀ t, reading.cur.time = some t → t ≤ reading.lastNow :=
  ⟨rfl, readingAt_inv 0, rfl, fun _ h => zero_of_some h⟩

/-- `StartBeginsTheFirstCell`. -/
theorem witness_StartBeginsTheFirstCell : idle.fault = none ∧ idle.cur.state = .idle := ⟨rfl, rfl⟩

theorem reading_settled : settled Config.machine reading.lastNow reading.cur = true := by
  have hp := period_pos Config.machine
  simp [settled, reading, spinning, readingAt, live, refreshLive, LiveState.reset, timeAtOrBefore, cellEnded, hp.ne']

theorem written_settled : settled Config.machine written.lastNow written.cur = true := by
  have hp := (period_pos Config.machine).ne'
  simp [settled, written, spinning, writtenLive, live, refreshLive, LiveState.reset, timeAtOrBefore, cellEnded, hp]

/-- `StopFlushesAndHalts`: nothing being written, an empty interval, without a medium too, and one with a transition. -/
theorem witness_StopFlushesAndHalts :
    (reading.fault = none ∧ LiveInv Config.machine reading.cur ∧ reading.cur.state = .running ∧
      settled Config.machine reading.lastNow reading.cur = true ∧ canCommit reading ∧ reading.cur.writeStartTime = none) ∧
    (writing.fault = none ∧ LiveInv Config.machine writing.cur ∧ writing.cur.state = .running ∧
      settled Config.machine writing.lastNow writing.cur = true ∧ canCommit writing ∧
      writing.cur.writeStartTime = writing.cur.time) ∧
    ((noMedium writing).fault = none ∧ canCommit (noMedium writing)) ∧
    (written.fault = none ∧ LiveInv Config.machine written.cur ∧ written.cur.state = .running ∧
      settled Config.machine written.lastNow written.cur = true ∧ canCommit written ∧
      written.cur.writeStartTime = some 0 ∧ written.cur.time = some P ∧ 0 < P) := by
  exact ⟨⟨rfl, readingAt_inv 0, rfl, reading_settled, (fun _ _ h => by cases h), rfl⟩,
    ⟨rfl, writingLive_inv, rfl, writing_settled, canCommit_of_empty rfl, rfl⟩, ⟨rfl, canCommit_of_empty rfl⟩,
    ⟨rfl, writtenLive_inv, rfl, written_settled, (fun _ _ _ _ _ => rfl), rfl, rfl, period_pos _⟩⟩

/-- `CommitReplacesTheInterval`. -/
theorem witness_CommitReplacesTheInterval : written.fault = none ∧ written.cur.writeStartTime = some 0 ∧
    written.cur.time = some P ∧ 0 < P ∧ (∀ x ∈ written.cur.writeBuffer, 0 ≤ x ∧ x < P) ∧
    (written.drv written.cur.drive).medium = true := by
  have hp := period_pos Config.machine
  refine ⟨rfl, rfl, rfl, hp, ?_, rfl⟩
  intro x hx
  have : x = 0 := by simpa [written, spinning, writtenLive, live, refreshLive] using hx
  exact ⟨Nat.zero_le _, this ▸ hp⟩

/-- `written` with the medium taken out. -/
abbrev withoutMedium : State := noMedium written

/-- `CommitWithoutAnIntervalOrAMedium`, its clauses. -/
theorem witness_CommitWithoutAnIntervalOrAMedium : reading.cur.writeStartTime = none ∧
    writing.cur.writeStartTime = writing.cur.time ∧
    (withoutMedium.fault = none ∧ withoutMedium.cur.writeStartTime = some 0 ∧ withoutMedium.cur.time = some P ∧ 0 < P ∧
      (withoutMedium.drv withoutMedium.cur.drive).medium = false) :=
  ⟨rfl, rfl, rfl, rfl, rfl, period_pos _, rfl⟩

/-- `CommitWithoutAnIntervalOrAMedium`, an external operation whose `SYNC` commits to a drive without a medium. -/
theorem witness_external_without_medium : isExternal .timer = true ∧ Instr.timer.wellFormed = true ∧
    Inv Config.machine withoutMedium ∧ withoutMedium.fault = none ∧ withoutMedium.lastNow ≤ withoutMedium.now ∧
    (let r := beforeCommit withoutMedium.now { withoutMedium with lastNow := withoutMedium.now }
     r.cur.writeStartTime = some 0 ∧ r.cur.time = some P ∧ 0 < P ∧ (r.drv r.cur.drive).medium = false) := by
  have hr : beforeCommit withoutMedium.now { withoutMedium with lastNow := withoutMedium.now } = withoutMedium :=
    beforeCommit_settled (noMedium_inv (s := written) written_inv) rfl written_settled
  rw [hr]
  exact ⟨rfl, rfl, noMedium_inv (s := written) written_inv, rfl, le_refl _, rfl, rfl, period_pos _, rfl⟩

/-- `CheckpointCopiesTheSettledState`: with a transition to commit, and without a medium and nothing to commit. -/
theorem witness_CheckpointCopiesTheSettledState : (written.fault = none ∧ LiveInv Config.machine written.cur ∧
      (∀ t, written.cur.time = some t → t ≤ written.lastNow) ∧
      canCommit (runEngine Config.machine written.lastNow written.lastNow written)) ∧
    ((noMedium writing).fault = none ∧ LiveInv Config.machine (noMedium writing).cur ∧
      (∀ t, (noMedium writing).cur.time = some t → t ≤ (noMedium writing).lastNow) ∧
      canCommit (runEngine Config.machine (noMedium writing).lastNow (noMedium writing).lastNow (noMedium writing))) := by
  rw [runEngine_of_settled written_settled,
    runEngine_of_settled (now := (noMedium writing).lastNow) (s := noMedium writing) writing_settled]
  exact ⟨⟨rfl, writtenLive_inv, fun _ h => zero_of_some h, fun _ _ _ _ _ => rfl⟩,
    rfl, writingLive_inv, fun _ h => zero_of_some h, canCommit_of_empty rfl⟩

/-- `SyncRollsBackOnlySpeculation`: one cell ahead of real time, and exactly at it. -/
theorem witness_SyncRollsBackOnlySpeculation :
    (ahead.fault = none ∧ ahead.cur.state ≠ .idle ∧ ahead.cur.time = some P ∧ ahead.lastNow < P ∧
      (∀ n, ahead.chk.time = some n → n ≤ ahead.lastNow) ∧ LiveInv Config.machine ahead.chk) ∧
    (reading.fault = none ∧ reading.cur.state ≠ .idle ∧ reading.cur.time = some 0 ∧ 0 ≤ reading.lastNow ∧
      reading.limit = reading.lastNow) :=
  ⟨⟨rfl, (fun h => by cases h), rfl, period_pos _, fun _ h => zero_of_some h, readingAt_inv 0⟩,
    rfl, (fun h => by cases h), rfl, Nat.zero_le _, rfl⟩

/-- `TimeRegressionIsAViolation`: one tick too early. -/
theorem witness_TimeRegressionIsAViolation :
    let s : State := { idle with lastNow := 1 }
    isExternal .timer = true ∧ Instr.timer.wellFormed = true ∧ s.fault = none ∧ s.now < s.lastNow :=
  ⟨rfl, rfl, rfl, Nat.zero_lt_one⟩

/-- `AViolationIsSticky`. -/
theorem witness_AViolationIsSticky : faulted.fault ≠ none ∧ Instr.timer ≠ .reset := by
  constructor
  · intro h; cases h
  · decide

/-- One word in the queue of `idle`. -/
def idleWith (a : Agent) (w : Word) : State := { idle with queue := [{ agent := a, now := 0, word := w, limit := 0, index := 0 }] }

/-- `IllegalWordIsAViolation`: a reserved bit, an unknown identifier, and a micro-operation from outside. -/
theorem witness_IllegalWordIsAViolation :
    (∀ w ∈ [0x0402#16, 0x3000#16, 0xC200#16], ∃ q rest, (idleWith .host w).queue = q :: rest ∧ q.agent ≠ .engine ∧
      (idleWith .host w).fault = none ∧ legalOutside q.word = false) := by
  intro w hw
  refine ⟨_, _, rfl, (fun h => by cases h), rfl, ?_⟩
  simp only [List.mem_cons, List.not_mem_nil, or_false] at hw
  rcases hw with rfl | rfl | rfl <;> decide

/-- `NoStepRecordsMutateWithoutSync`, `EveryStepKeepsTheInvariant`: an operation in the queue that gives a next state. -/
theorem witness_EveryStepKeepsTheInvariant :
    (idleWith .host 0x0901).fault ≠ some .mutateWithoutSync ∧ Inv Config.machine (idleWith .host 0x0901) ∧
    ∃ t, step (idleWith .host 0x0901) = .next t :=
  ⟨(fun h => by cases h), { idle_inv with controller := fun h => { idle_inv.controller rfl with } }, _, rfl⟩

/-- `StepRunsTheDecodedInstruction`: an outside word, and a micro-operation of the engine. -/
theorem witness_StepRunsTheDecodedInstruction :
    (∃ q rest i, (idleWith .host 0x0901).queue = q :: rest ∧ decode q.word = .ok i ∧
      (q.agent = .engine ∨ i.opClass ≠ .internal)) ∧
    (∃ q rest i, (idleWith .engine 0xC100).queue = q :: rest ∧ decode q.word = .ok i ∧
      (q.agent = .engine ∨ i.opClass ≠ .internal)) :=
  ⟨⟨_, _, .motor 0 1, rfl, rfl, .inr (by decide)⟩, ⟨_, _, .refresh, rfl, rfl, .inl rfl⟩⟩

/-- `MotorStartsAndStopsTheEngine`: the three commands. -/
theorem witness_motor_commands : ∀ cmd ∈ [0#2, 1#2, 2#2], ∃ k : SpindleCommand,
    (cmd = 0 ∧ k = .stop ∨ cmd = 1 ∧ k = .start ∨ cmd = 2 ∧ k = .select) := by
  intro cmd h
  simp only [List.mem_cons, List.not_mem_nil, or_false] at h
  rcases h with rfl | rfl | rfl
  · exact ⟨.stop, .inl ⟨rfl, rfl⟩⟩
  · exact ⟨.start, .inr (.inl ⟨rfl, rfl⟩)⟩
  · exact ⟨.select, .inr (.inr ⟨rfl, rfl⟩)⟩

/-- `MotorStartsAndStopsTheEngine`, the engine's three clauses: `MOTOR 0, START` in `Idle`, `MOTOR 0, STOP` with motor 0 on,
`MOTOR 0, SELECT` with motor 0 on. -/
theorem witness_motor_engine :
    (∃ t, exec (.motor 0 1) idle = .next t ∧ anyMotor t = true ∧ (synced idle).cur.state = .idle) ∧
    (∃ t, exec (.motor 0 0) reading = .next t ∧ anyMotor t = false ∧ (synced reading).cur.state ≠ .idle) ∧
    (∃ t, exec (.motor 0 2) reading = .next t ∧ anyMotor t = true ∧ (synced reading).cur.state ≠ .idle) := by
  have hr : synced reading = reading := by
    show commitWrites (runEngine Config.machine reading.lastNow reading.lastNow reading) = reading
    rw [runEngine_of_settled reading_settled]; rfl
  have hm : ∀ k v, motorBody Config.machine 0 k reading = v → ∃ t,
      externalOp Config.machine (motorBody Config.machine 0 k) id reading = t ∧ t.drives = v.drives := by
    intro k v hv
    refine ⟨_, rfl, ?_⟩
    rw [(motorBody_after witness_Ready.2.1.proceeds 0 k).exec_eq witness_Ready.2.1.proceeds rfl, hr, hv]; rfl
  have hi : ∃ t, externalOp Config.machine (motorBody Config.machine 0 .start) id idle = t ∧
      t.drives = (motorBody Config.machine 0 .start idle).drives := by
    refine ⟨_, rfl, ?_⟩
    rw [(motorBody_after witness_Ready.1.proceeds 0 .start).exec_eq witness_Ready.1.proceeds rfl]; rfl
  obtain ⟨t1, e1, d1⟩ := hi
  obtain ⟨t2, e2, d2⟩ := hm .stop _ rfl
  obtain ⟨t3, e3, d3⟩ := hm .select _ rfl
  refine ⟨⟨t1, congrArg Host.Outcome.next e1, ?_, rfl⟩, ⟨t2, congrArg Host.Outcome.next e2, ?_, by rw [hr]; intro h; cases h⟩,
    ⟨t3, congrArg Host.Outcome.next e3, ?_, by rw [hr]; intro h; cases h⟩⟩
  · unfold anyMotor; rw [drv_congr d1, drv_congr d1]; rfl
  · unfold anyMotor; rw [drv_congr d2, drv_congr d2]; rfl
  · unfold anyMotor; rw [drv_congr d3, drv_congr d3]; rfl

/-- `SpecRunsAheadByAtMostNCells`: no cells, from a running engine and from an idle one, and the most cells. -/
theorem witness_SpecRunsAheadByAtMostNCells : Ready reading ∧ Ready idle ∧ (0#8 : Byte) = 0 ∧
    (∃ t, exec (.spec 0) reading = .next t) ∧ (∃ t, exec (.spec 0) idle = .next t) ∧ (∃ t, exec (.spec 255) reading = .next t) :=
  ⟨witness_Ready.2.1, witness_Ready.1, rfl, ⟨_, rfl⟩, ⟨_, rfl⟩, ⟨_, rfl⟩⟩

/-- `SpeculationIsUnobservable`: at the time of the speculation and later. -/
theorem witness_SpeculationIsUnobservable : Ready reading ∧ (∃ a, exec (.spec 200) reading = .next a) ∧
    (∃ b, exec .timer reading = .next b) ∧ reading.now ≤ 0 ∧ reading.now ≤ 9000 ∧
    (isExternal (.wrgate true) = true ∨ Instr.wrgate true = .reset) ∧ (Instr.wrgate true).wellFormed = true ∧
    (isExternal .reset = true ∨ Instr.reset = .reset) ∧ Instr.reset.wellFormed = true :=
  ⟨witness_Ready.2.1, ⟨_, rfl⟩, ⟨_, rfl⟩, le_refl _, Nat.zero_le _, .inl rfl, rfl, .inr rfl, rfl⟩

/-- `EngineBetweenOperations`, `EventsAreNeverInTheFuture`, `EngineRunsWhileAMotorIsOn`, `ExternalOperationsKeepTheEdgeRight`,
`ExternalOperationsStoreOnlyTheirCommit`: an external operation from a running engine. -/
theorem witness_external : Ready reading ∧ engineFollowsMotors reading ∧ isExternal (.wrgate true) = true ∧
    (Instr.wrgate true).wellFormed = true ∧ (∃ t, exec (.wrgate true) reading = .next t) ∧
    isExternal (.spec 6) = true ∧ (Instr.spec 6).wellFormed = true ∧ (∃ t, exec (.spec 6) reading = .next t) := by
  refine ⟨witness_Ready.2.1, ⟨?_, ?_⟩, rfl, rfl, ⟨_, rfl⟩, rfl, rfl, ⟨_, rfl⟩⟩ <;>
    exact ⟨(fun h => by cases h), (fun h => by cases h)⟩

/-- `LatchesAreWrittenByTheirOwnOperation`, `MediumChangesOnlyByCommitEvents`, `WriteProtectGatesNothing`. -/
theorem witness_latches : Inv Config.machine ahead ∧ Instr.stop ≠ .reset ∧ Instr.stop ≠ .rdstat ∧ Instr.sync ≠ .reset ∧
    (∃ t, exec .sync ahead = .next t) ∧ Instr.drvsel 1 ≠ .reset ∧ (∃ t, exec (.drvsel 1) ahead = .next t) :=
  ⟨ahead_inv, by decide, by decide, by decide, ⟨_, rfl⟩, by decide, ⟨_, rfl⟩⟩

/-- `IdleEngineIsLeftAlone`, with its inner premise. -/
theorem witness_IdleEngineIsLeftAlone : Inv Config.machine idle ∧ idle.fault = none ∧ idle.cur.state = .idle ∧
    idle.lastNow ≤ idle.now := ⟨idle_inv, rfl, rfl, le_refl _⟩

/-- `WakeUpTime`, its three clauses. -/
theorem witness_WakeUpTime : idle.cur.state = .idle ∧ ((deferred 1).cur.state ≠ .idle ∧ (deferred 1).cur.nextState ≠ none) ∧
    (reading.cur.state ≠ .idle ∧ reading.cur.nextState = none ∧ reading.cur.time = some 0) :=
  ⟨rfl, ⟨(fun h => by cases h), (fun h => by cases h)⟩, (fun h => by cases h), rfl, rfl⟩

/-- `StepDecodeTable`: the reference order of the phases, and a code outside it, as the old code and as the new one. -/
theorem witness_StepDecodeTable : refConfig.phaseSeq.codes = [0b0000, 0b0001, 0b0011, 0b0010] ∧
    0b0100#4 ∉ refConfig.phaseSeq.codes := by decide

/-- Codes that coincide are no `PHASE_SEQ` (R5). -/
theorem test_phaseSeq_distinct :
    ({ refConfig with phaseCodes := { phase0 := 1, phase1 := 2, phase2 := 1, phase3 := 4 } } : Config).phaseSeq = .standard ∧
    ({ refConfig with phaseCodes := { phase0 := 1, phase1 := 2, phase2 := 8, phase3 := 4 } } : Config).phaseSeq =
      { phase0 := 1, phase1 := 2, phase2 := 8, phase3 := 4 } := by decide

/-- `CylinderMovesWithinItsRange`: both stops. -/
theorem witness_CylinderMovesWithinItsRange : 0 ≤ refConfig.maxCylinder ∧ refConfig.maxCylinder ≤ refConfig.maxCylinder := by
  decide

/-- `FluxNextIsTheFirstTransition`: a medium with a transition, and an empty one. -/
theorem witness_FluxNextIsTheFirstTransition : Medium.wf reading.medium ∧ Medium.wf idle.medium :=
  ⟨List.pairwise_singleton _ _, List.Pairwise.nil⟩

/-- `DecodeOfEncode`, `EncodeOfDecode`: each class of operand at the end of its range. -/
theorem witness_encoding : (Instr.motor 1 2).wellFormed = true ∧ (Instr.spec 0xFF).wellFormed = true ∧
    (Instr.stpph 1 0xF).wellFormed = true ∧ decode 0x0912 = .ok (.motor 1 2) ∧ decode 0x21FF = .ok (.spec 0xFF) := by decide

end Sys2Proof.Tests
end

section
/-! SUPPORT. What `exec` comes to for each class of operation, said once: the external operations are one wrapper around a body
and a tail (spec/46_frontend_ops.md R170), a micro-operation is its shared operation or nothing (spec/60_exceptions.md R216). -/

namespace Sys2Proof.Machine

/-! ## External operations -/

/-- R173 to R183: the body of an external operation; of the others, of `TIMER` and of `SPEC` (R184, R185) it is empty. -/
def externalBody : Instr → State → State
  | .wrdata b => wrdataBody b
  | .drvsel d => drvselBody d
  | .sidesel side => sideselBody side
  | .wrgate g => wrgateBody g
  | .ergate g => ergateBody g
  | .wrsync g => wrsyncBody g
  | .stpen g => stpenBody g
  | .stpph d code => stpphBody Config.machine d code
  | .motor d cmd =>
    match spindleCommand cmd with
    | some k => motorBody Config.machine d k
    | none => id
  | .rddata => rddataBody
  | .rdstat => rdstatBody
  | .timer | .spec _ | .lookup | .refresh | .step | .fire | .run | .start | .stop | .commit | .checkpoint | .rollback | .sync
  | .reset => id

/-- R185: what follows the checkpoint of an external operation. -/
def externalTail : Instr → State → State
  | .spec n => specTail Config.machine n
  | _ => id

theorem motorOp_of_command {c : Config} {d : DriveId} {cmd : BitVec 2} {k : SpindleCommand}
    (hk : spindleCommand cmd = some k) (s : State) : motorOp c d cmd s = externalOp c (motorBody c d k) id s := by
  simp [motorOp, hk]

theorem motorOp_of_no_command {c : Config} {d : DriveId} {cmd : BitVec 2} (hk : spindleCommand cmd = none) (s : State) :
    motorOp c d cmd s = raise (.illegalOp (encode (.motor d cmd))) s := by
  simp [motorOp, hk]

theorem externalBody_motor {d : DriveId} {cmd : BitVec 2} {k : SpindleCommand} (hk : spindleCommand cmd = some k) :
    externalBody (.motor d cmd) = motorBody Config.machine d k := by
  simp [externalBody, hk]

theorem externalBody_motor_of_no_command {d : DriveId} {cmd : BitVec 2} (hk : spindleCommand cmd = none) :
    externalBody (.motor d cmd) = id := by
  simp [externalBody, hk]

/-- R240: the reset signal issues `RESET` only. -/
theorem eq_reset_of_class {i : Instr} (hc : i.opClass = .resetSignal) : i = .reset := by
  cases i with
  | reset => rfl
  | _ => cases hc

/-- R170: a well-formed external operation is its body and its tail in the wrapper. -/
theorem exec_eq_externalOp {i : Instr} (he : isExternal i = true) (hw : i.wellFormed = true) (s : State) :
    exec i s = .next (externalOp Config.machine (externalBody i) (externalTail i) s) := by
  cases i with
  | motor d cmd =>
    obtain ⟨k, hk⟩ := spindleCommand_of_wellFormed hw
    rw [externalBody_motor hk]
    exact congrArg _ (motorOp_of_command hk s)
  | wrdata | drvsel | sidesel | wrgate | ergate | wrsync | stpen | stpph | rddata | rdstat | timer | spec => rfl
  | lookup | refresh | step | fire | run | start | stop | commit | checkpoint | rollback | sync | reset =>
    simp [isExternal, Instr.opClass] at he

/-- R70: an instruction that is not well formed takes a violation. -/
theorem exec_of_not_wellFormed {i : Instr} (hw : i.wellFormed = false) : ∃ v, ∀ s, exec i s = .next (raise v s) := by
  cases i with
  | motor d cmd =>
    have hc : cmd = 3#2 := by simpa [Instr.wellFormed, motorCommandLegal] using hw
    subst hc
    exact ⟨_, fun s => congrArg Host.Outcome.next (motorOp_of_no_command rfl s)⟩
  | _ => cases hw

/-- R170: everything the wrapper can do. -/
theorem externalOp_cases (body tail : State → State) (s : State) :
    (s.fault ≠ none ∧ externalOp Config.machine body tail s = s) ∨
    (s.fault = none ∧ s.now < s.lastNow ∧
      externalOp Config.machine body tail s = raise (.timeRegression s.now) s) ∨
    (s.fault = none ∧ s.lastNow ≤ s.now ∧ (synced s).fault ≠ none ∧
      externalOp Config.machine body tail s = synced s) ∨
    (s.fault = none ∧ s.lastNow ≤ s.now ∧ (synced s).fault = none ∧
      externalOp Config.machine body tail s =
        (((body (synced s)).andThen (refreshCodec Config.machine)).andThen
          (checkpointEngine Config.machine s.now)).andThen tail) := by
  cases hf : s.fault with
  | some v => exact .inl ⟨by simp, by simp [externalOp, hf]⟩
  | none =>
    by_cases hlt : s.now < s.lastNow
    · exact .inr (.inl ⟨rfl, hlt, by simp [externalOp, hf, hlt]⟩)
    have hle := Nat.not_lt.mp hlt
    rw [externalOp_eq hf hle, ← synced]
    cases hs : (synced s).fault with
    | some v => exact .inr (.inr (.inl ⟨rfl, hle, by simp, by simp [State.andThen, hs]⟩))
    | none => exact .inr (.inr (.inr ⟨rfl, hle, rfl, by rw [andThen_of_none body hs]⟩))

/-- R29: the wrapper in a faulted state. -/
theorem externalOp_of_fault {body tail : State → State} {s : State} (hf : s.fault ≠ none) :
    externalOp Config.machine body tail s = s := by
  rcases externalOp_cases body tail s with ⟨-, h⟩ | ⟨h, -⟩ | ⟨h, -⟩ | ⟨h, -⟩
  · exact h
  all_goals exact absurd h hf

/-- What an external operation leaves is its checkpoint, and after `SPEC n` the run ahead from it (R170, R185). -/
theorem afterCheckpoint_cases {i : Instr} (he : isExternal i = true) (s v : State) :
    afterCheckpoint i s v = checkpointed v (refreshLive Config.machine v.cur) ∨
    ∃ n, afterCheckpoint i s v = specTail Config.machine n (checkpointed v (refreshLive Config.machine v.cur)) := by
  cases i with
  | spec n => exact .inr ⟨n, rfl⟩
  | wrdata | drvsel | sidesel | wrgate | ergate | wrsync | stpen | stpph | motor | rddata | rdstat | timer => exact .inl rfl
  | lookup | refresh | step | fire | run | start | stop | commit | checkpoint | rollback | sync | reset =>
    simp [isExternal, Instr.opClass] at he

/-! ## Micro-operations -/

/-- R216: what holds before `andThen`, and after `f` where `f` runs, holds after it. -/
theorem andThen_keeps {P : State → Prop} {f : State → State} {s : State} (h : P s) (hk : s.fault = none → P (f s)) :
    P (s.andThen f) := by
  rcases andThen_cases s f with ⟨hf, e⟩ | ⟨-, e⟩ <;> rw [e]
  · exact hk hf
  · exact h

theorem microOp_keeps {P : State → Prop} {f : State → State} {s t : State} (h : microOp f s = .next t) (hs : P s)
    (hk : s.fault = none → P (f s)) : P t := by
  cases h
  exact andThen_keeps hs hk

theorem guardedOp_keeps {P : State → Prop} {pre : Bool} {why : Fault} {f : State → State} {s t : State}
    (h : guardedOp pre why f s = .next t) (hs : P s) (hk : s.fault = none → pre = true → P (f s)) : P t := by
  unfold guardedOp at h
  split at h
  · cases h; exact hs
  · rename_i hf
    split at h
    · rename_i hp
      cases h; exact hk hf hp
    · cases h

/-- R29: a micro-operation in a faulted state. -/
theorem microOp_of_fault {f : State → State} {s : State} (hf : s.fault ≠ none) : microOp f s = .next s := by
  obtain ⟨v, hv⟩ := Option.ne_none_iff_exists'.mp hf
  exact congrArg _ (andThen_of_some f hv)

theorem guardedOp_of_fault {pre : Bool} {why : Fault} {f : State → State} {s : State} (hf : s.fault ≠ none) :
    guardedOp pre why f s = .next s := by
  obtain ⟨v, hv⟩ := Option.ne_none_iff_exists'.mp hf
  simp [guardedOp, hv]

/-! ## Faulted states -/

theorem raise_of_fault (v : Violation) {s : State} (hf : s.fault ≠ none) : raise v s = s := by
  obtain ⟨w, hw⟩ := Option.ne_none_iff_exists'.mp hf
  exact raise_of_some v hw

theorem raise_fault_ne_none (v : Violation) (s : State) : (raise v s).fault ≠ none := by
  by_cases hf : s.fault = none
  · simp [hf]
  · rw [raise_of_fault v hf]; exact hf

/-- R29, R216: a violation is sticky. -/
theorem exec_of_fault {i : Instr} {s : State} (hf : s.fault ≠ none) (hr : i ≠ .reset) : exec i s = .next s := by
  cases hw : i.wellFormed with
  | false =>
    obtain ⟨v, hv⟩ := exec_of_not_wellFormed hw
    rw [hv, raise_of_fault v hf]
  | true =>
    cases i with
    | wrdata | drvsel | sidesel | wrgate | ergate | wrsync | stpen | stpph | motor | rddata | rdstat | timer | spec =>
      rw [exec_eq_externalOp rfl hw, externalOp_of_fault hf]
    | lookup | refresh | run | commit | rollback | sync => exact microOp_of_fault hf
    | step | fire | start | stop | checkpoint => exact guardedOp_of_fault hf
    | reset => exact absurd rfl hr

/-- Settles O27: every class of operation looks at `fault` first. -/
theorem aViolationIsSticky : Obligations.AViolationIsSticky := fun _ _ hf hr => exec_of_fault hf hr

end Sys2Proof.Machine
end

section
/-! SUPPORT. Which operations write the latches and the drives, and the invariant under each shared operation
(spec/10_state.md R16, R17, R22, R25 to R27). -/

namespace Sys2Proof.Machine

/-! ## The registers that front-end operations write -/

/-- R16, R17, R25 to R27: two states with the same latches, drives and front-end registers. -/
structure SameRegisters (s t : State) : Prop where
  latches : sameLatches s.cur t.cur
  drives : t.drives = s.drives
  stepperEnable : t.stepperEnable = s.stepperEnable
  spindleCtl : t.spindleCtl = s.spindleCtl

theorem sameLatches_refl (x : LiveState) : sameLatches x x := ⟨rfl, rfl, rfl, rfl, rfl, rfl⟩

theorem sameLatches_symm {x y : LiveState} (h : sameLatches x y) : sameLatches y x := by
  obtain ⟨h1, h2, h3, h4, h5, h6⟩ := h
  exact ⟨h1.symm, h2.symm, h3.symm, h4.symm, h5.symm, h6.symm⟩

theorem sameLatches_trans {x y z : LiveState} (h : sameLatches x y) (k : sameLatches y z) : sameLatches x z := by
  obtain ⟨h1, h2, h3, h4, h5, h6⟩ := h
  obtain ⟨k1, k2, k3, k4, k5, k6⟩ := k
  exact ⟨h1.trans k1, h2.trans k2, h3.trans k3, h4.trans k4, h5.trans k5, h6.trans k6⟩

theorem sameLatchesAndStart.latches {x y : LiveState} (h : sameLatchesAndStart x y) : sameLatches x y := by
  obtain ⟨h1, h2, h3, h4, h5, h6, -⟩ := h
  exact ⟨h1, h2, h3, h4, h5, h6⟩

theorem SameRegisters.refl (s : State) : SameRegisters s s := ⟨sameLatches_refl _, rfl, rfl, rfl⟩

theorem SameRegisters.trans {s t u : State} (h : SameRegisters s t) (k : SameRegisters t u) : SameRegisters s u :=
  { latches := sameLatches_trans h.latches k.latches
    drives := k.drives.trans h.drives
    stepperEnable := k.stepperEnable.trans h.stepperEnable
    spindleCtl := k.spindleCtl.trans h.spindleCtl }

theorem SameRegisters.of_sameBesideSync {s t : State} (h : sameBesideSync s t) (hl : sameLatches s.cur t.cur) :
    SameRegisters s t :=
  ⟨hl, h.same_drives, h.same_stepperEnable, h.same_spindleCtl⟩

theorem stepCell_registers (c : Config) (s : State) : SameRegisters s (stepCell c s) :=
  .of_sameBesideSync (stepCell_frame c s).toSync (stepCell_latches c s).latches

theorem runEngine_registers (c : Config) (limit now : Nat) (s : State) : SameRegisters s (runEngine c limit now s) :=
  .of_sameBesideSync (runEngine_frame c limit now s).toSync (runEngine_latches c limit now s).latches

theorem commitWrites_registers (s : State) : SameRegisters s (commitWrites s) :=
  .of_sameBesideSync (commitWrites_sameBesideSync s) (commitWrites_latches s)

/-- R157: the checkpoint has the latches of the live copy (R170), so a rollback writes none. -/
theorem rollbackEngine_registers {s : State} (h : sameLatches s.cur s.chk) : SameRegisters s (rollbackEngine s) := by
  refine .of_sameBesideSync (rollbackEngine_sameBesideSync s) ?_
  rw [rollbackEngine_cur]
  split
  · exact sameLatches_refl _
  · exact h

theorem discardSpeculation_registers {now : Nat} {s : State} (h : sameLatches s.cur s.chk) :
    SameRegisters s (discardSpeculation now s) := by
  rcases discardSpeculation_cases now s with ⟨-, e⟩ | ⟨-, e⟩ <;> rw [e]
  · exact .refl s
  · exact rollbackEngine_registers h

theorem syncEngine_registers {c : Config} {now : Nat} {s : State} (h : sameLatches s.cur s.chk) :
    SameRegisters s (syncEngine c now s) := by
  unfold syncEngine
  split
  · exact .refl s
  · exact ((discardSpeculation_registers h).trans (runEngine_registers ..)).trans (commitWrites_registers _)

theorem checkpointEngine_registers (c : Config) (now : Nat) (s : State) : SameRegisters s (checkpointEngine c now s) := by
  have hr := (runEngine_registers c now now s).trans (commitWrites_registers _)
  exact andThen_keeps hr fun _ => hr.trans ⟨sameLatches_refl _, rfl, rfl, rfl⟩

theorem refreshCodec_registers (c : Config) (s : State) : SameRegisters s (refreshCodec c s) :=
  ⟨sameLatches_refl _, rfl, rfl, rfl⟩

theorem startEngine_registers (c : Config) (now : Nat) (s : State) : SameRegisters s (startEngine c now s) :=
  ⟨sameLatches_refl _, rfl, rfl, rfl⟩

theorem stopEngine_registers (s : State) : SameRegisters s (stopEngine s) := by
  have hr := commitWrites_registers s
  exact andThen_keeps hr fun _ => hr.trans ⟨sameLatches_refl _, rfl, rfl, rfl⟩

theorem raise_registers (v : Violation) (s : State) : SameRegisters s (raise v s) :=
  ⟨by rw [raise_cur]; exact sameLatches_refl _, raise_drives v s, raise_stepperEnable v s, raise_spindleCtl v s⟩

theorem setResult_registers (s : State) (b : Byte) : SameRegisters s (s.setResult b) :=
  ⟨sameLatches_refl _, rfl, rfl, rfl⟩

/-- R170: the latches of the two copies agree, so the wrapper's `SYNC` writes none. -/
theorem synced_registers {s : State} (h : sameLatches s.cur s.chk) : SameRegisters s (synced s) :=
  SameRegisters.trans (t := { s with lastNow := s.now }) ⟨sameLatches_refl _, rfl, rfl, rfl⟩ (syncEngine_registers h)

/-- R29, R16: no micro-operation writes a latch or a drive. -/
theorem exec_internal_registers {i : Instr} {s t : State} (h : Inv Config.machine s) (hc : i.opClass = .internal)
    (he : exec i s = .next t) : SameRegisters s t := by
  have hr := SameRegisters.refl s
  cases i with
  | lookup => exact microOp_keeps he hr fun _ => setResult_registers ..
  | refresh => exact microOp_keeps he hr fun _ => refreshCodec_registers ..
  | step => exact guardedOp_keeps he hr fun _ _ => stepCell_registers ..
  | fire => exact guardedOp_keeps he hr fun _ _ => ⟨sameLatches_refl _, rfl, rfl, rfl⟩
  | run => exact microOp_keeps he hr fun _ => runEngine_registers ..
  | start => exact guardedOp_keeps he hr fun _ _ => startEngine_registers ..
  | stop => exact guardedOp_keeps he hr fun _ _ => stopEngine_registers s
  | commit => exact microOp_keeps he hr fun _ => commitWrites_registers s
  | checkpoint => exact guardedOp_keeps he hr fun _ _ => checkpointEngine_registers ..
  | rollback => exact microOp_keeps he hr fun hf => rollbackEngine_registers (h.controller hf).latches_agree
  | sync => exact microOp_keeps he hr fun hf => syncEngine_registers (h.controller hf).latches_agree
  | wrdata | drvsel | sidesel | wrgate | ergate | wrsync | stpen | stpph | motor | rddata | rdstat | timer | spec | reset =>
    cases hc

/-! ## The invariant after reset -/

theorem LiveState.reset_liveInv (c : Config) : LiveInv c (.reset c) :=
  { time_never_iff_idle := ⟨fun _ => rfl, fun _ => rfl⟩
    not_at_syncpoint := fun h => by cases h
    deferred_value := .inl rfl
    idle_defers_nothing := fun _ => rfl
    change_is_deferred := fun h => by cases h
    bit_counters_equal := rfl
    codec_input := by simp [LiveState.reset, codecInput]
    codec_output := rfl
    position_is_length := rfl
    buffer_rising := .nil
    buffer_in_interval := fun _ h => by cases h
    interval_open_iff_writing := ⟨fun _ => .inl rfl, fun _ => rfl⟩
    interval_ordered := fun _ _ h => by cases h }

/-- R241: what `RESET` and construction leave of the controller. -/
theorem ControllerInv.of_reset {c : Config} {s : State} (hcur : s.cur = .reset c) (hchk : s.chk = .reset c)
    (hside : (s.drv 0).side = 0) : ControllerInv c s :=
  { live := by rw [hcur]; exact LiveState.reset_liveInv c
    saved := by rw [hchk]; exact LiveState.reset_liveInv c
    saved_defers_nothing := by rw [hchk]; rfl
    saved_not_ahead := fun t ht => by rw [hchk] at ht; cases ht
    latches_agree := by rw [hcur, hchk]; exact sameLatches_refl _
    side_mirror := by rw [hcur]; exact hside }

theorem State.construct_inv (c : Config) : Inv c (State.construct c) :=
  { medium_wf := .nil
    cylinders_in_range := fun d => by
      unfold State.drv PerDrive.get
      split <;> exact Nat.min_le_right ..
    controller := fun _ => .of_reset rfl rfl rfl }

theorem resetOp_cylinder (c : Config) (s : State) (d : DriveId) : ((resetOp c s).drv d).cylinder = (s.drv d).cylinder := by
  unfold State.drv PerDrive.get
  split <;> rfl

theorem resetOp_inv {c : Config} {s : State} (h : Inv c s) : Inv c (resetOp c s) :=
  { medium_wf := h.medium_wf
    cylinders_in_range := fun d => by rw [resetOp_cylinder]; exact h.cylinders_in_range d
    controller := fun _ => .of_reset rfl rfl rfl }

/-! ## The invariant under the shared operations -/

/-- A violation leaves only the media and the drives to look at. -/
theorem Inv.of_violation {c : Config} {s t : State} (h : Inv c s) (hd : t.drives = s.drives) (hm : Medium.wf t.medium)
    (hf : t.fault ≠ none) : Inv c t :=
  { medium_wf := hm
    cylinders_in_range := fun d => by rw [drv_congr hd]; exact h.cylinders_in_range d
    controller := fun k => absurd k hf }

/-- An operation that writes neither a latch, a drive, the checkpoint nor `last_now` keeps the invariant if it keeps the live
copy's. -/
theorem Inv.change_cur {c : Config} {s t : State} (h : Inv c s) (r : SameRegisters s t) (hchk : t.chk = s.chk)
    (hn : t.lastNow = s.lastNow) (hm : Medium.wf t.medium)
    (hl : t.fault = none → s.fault = none ∧ (ControllerInv c s → LiveInv c t.cur)) : Inv c t :=
  { medium_wf := hm
    cylinders_in_range := fun d => by rw [drv_congr r.drives]; exact h.cylinders_in_range d
    controller := fun hf => by
      obtain ⟨hs, live⟩ := hl hf
      have k := h.controller hs
      obtain ⟨hdrive, hside, -⟩ := r.latches
      exact
        { live := live k
          saved := by rw [hchk]; exact k.saved
          saved_defers_nothing := by rw [hchk]; exact k.saved_defers_nothing
          saved_not_ahead := by rw [hchk, hn]; exact k.saved_not_ahead
          latches_agree := by rw [hchk]; exact sameLatches_trans (sameLatches_symm r.latches) k.latches_agree
          side_mirror := by rw [drv_congr r.drives, ← hdrive, ← hside]; exact k.side_mirror } }

theorem loadIssue_inv {c : Config} {s : State} (h : Inv c s) (q : Issue) (rest : List Issue) :
    Inv c (loadIssue q rest s) :=
  h.change_cur ⟨sameLatches_refl _, rfl, rfl, rfl⟩ rfl rfl h.medium_wf fun hf => ⟨hf, ControllerInv.live⟩

theorem raise_inv {c : Config} {s : State} (h : Inv c s) (v : Violation) : Inv c (raise v s) :=
  h.of_violation (raise_drives v s) (by rw [raise_medium]; exact h.medium_wf) (raise_fault_ne_none v s)

theorem lookupCodec_inv {c : Config} {s : State} (h : Inv c s) : Inv c (lookupCodec c s) :=
  h.change_cur (setResult_registers ..) rfl rfl h.medium_wf fun hf => ⟨hf, ControllerInv.live⟩

theorem refreshCodec_inv {c : Config} {s : State} (h : Inv c s) : Inv c (refreshCodec c s) :=
  h.change_cur (refreshCodec_registers c s) rfl rfl h.medium_wf fun hf =>
    ⟨hf, fun k => by rw [refreshCodec_cur, k.live.refresh_self]; exact k.live⟩

theorem stepCell_inv {c : Config} {s : State} (h : Inv c s) (hs : s.cur.state = .running) (hn : s.cur.nextState = none) :
    Inv c (stepCell c s) :=
  h.change_cur (stepCell_registers c s) (stepCell_chk c s) (stepCell_lastNow c s)
    (by rw [stepCell_medium]; exact h.medium_wf) fun hf =>
      ⟨by rwa [stepCell_fault] at hf, fun k => stepCell_liveInv k.live hs hn⟩

theorem runEngine_inv {c : Config} {limit now : Nat} {s : State} (h : Inv c s) : Inv c (runEngine c limit now s) :=
  h.change_cur (runEngine_registers c limit now s) (runEngine_chk ..) (runEngine_lastNow ..)
    (by rw [runEngine_medium]; exact h.medium_wf) fun hf =>
      ⟨by rwa [runEngine_fault] at hf, fun k => runEngine_liveInv k.live⟩

/-- R216: `COMMIT` clears no violation. -/
theorem fault_of_commitWrites {s : State} (hf : (commitWrites s).fault = none) : s.fault = none := by
  by_contra hs
  obtain ⟨v, hv⟩ := Option.ne_none_iff_exists'.mp hs
  rcases commitWrites_cases s with ⟨e, -⟩ | ⟨w, t, -, -, -, ⟨h, -, -⟩ | ⟨-, -, e⟩ | ⟨-, e⟩⟩
  · rw [e] at hf; exact hs hf
  · exact hs h
  · rw [e] at hf; exact hs hf
  · rw [e.trans (andThen_of_some _ hv)] at hf; exact hs hf

theorem commitWrites_inv {c : Config} {s : State} (h : Inv c s) : Inv c (commitWrites s) :=
  h.change_cur (commitWrites_registers s) (commitWrites_chk s) (commitWrites_lastNow s)
    (commitWrites_medium_wf h.medium_wf) fun hf =>
      ⟨fault_of_commitWrites hf, fun k => commitWrites_liveInv k.live⟩

theorem rollbackEngine_inv {c : Config} {s : State} (h : Inv c s) (hf : s.fault = none) : Inv c (rollbackEngine s) :=
  h.change_cur (rollbackEngine_registers (h.controller hf).latches_agree) rfl rfl h.medium_wf fun _ =>
    ⟨hf, fun k => by rw [rollbackEngine_cur]; split; exacts [k.live, k.saved]⟩

theorem syncEngine_inv {c : Config} {now : Nat} {s : State} (h : Inv c s) (hf : s.fault = none) :
    Inv c (syncEngine c now s) := by
  unfold syncEngine
  split
  · exact h
  · refine commitWrites_inv (runEngine_inv ?_)
    rcases discardSpeculation_cases now s with ⟨-, e⟩ | ⟨-, e⟩ <;> rw [e]
    · exact h
    · exact rollbackEngine_inv h hf

theorem startEngine_inv {now : Nat} {s : State} (h : Inv Config.machine s) (hs : s.cur.state = .idle) :
    Inv Config.machine (startEngine Config.machine now s) :=
  h.change_cur (startEngine_registers ..) rfl rfl h.medium_wf fun hf => ⟨hf, fun k => (startEngine_live k.live hs).1⟩

/-- R136: `STOP` of a settled live copy. -/
theorem stopEngine_inv {now : Nat} {s : State} (h : Inv Config.machine s) (hf : s.fault = none)
    (hs : settled Config.machine now s.cur = true) : Inv Config.machine (stopEngine s) := by
  have hr := commitWrites_inv h
  refine andThen_keeps hr fun hrf => ?_
  refine hr.change_cur ⟨sameLatches_refl _, rfl, rfl, rfl⟩ rfl rfl hr.medium_wf fun _ => ⟨hrf, fun k => ?_⟩
  exact haltEngine_live k.live (settled_defers_nothing k.live (commitWrites_settled hs))
    (k.live.buffer_empty (commitWrites_closes (h.controller hf).live hf hrf))

/-- R156: the checkpoint of a settled live state, not ahead of real time. -/
theorem checkpointed_inv {s : State} {x : LiveState} (hm : Medium.wf s.medium)
    (hc : ∀ d, (s.drv d).cylinder ≤ Config.machine.maxCylinder) (hl : LiveInv Config.machine x)
    (hs : settled Config.machine s.lastNow x = true) (hside : (s.drv x.drive).side = x.side) :
    Inv Config.machine (checkpointed s x) :=
  { medium_wf := hm
    cylinders_in_range := hc
    controller := fun _ =>
      { live := hl
        saved := hl
        saved_defers_nothing := settled_defers_nothing hl hs
        saved_not_ahead := settled_time_le hl.time_never_iff_idle hs
        latches_agree := sameLatches_refl _
        side_mirror := hside } }

/-- R156: `CHECKPOINT` of a live copy that is not ahead of real time. -/
theorem checkpointEngine_inv {s : State} (h : Inv Config.machine s) (hf : s.fault = none)
    (hle : ∀ t, s.cur.time = some t → t ≤ s.lastNow) :
    Inv Config.machine (checkpointEngine Config.machine s.lastNow s) := by
  have hr := commitWrites_inv (runEngine_inv (limit := s.lastNow) (now := s.lastNow) h)
  refine andThen_keeps hr fun hrf => ?_
  have k := hr.controller hrf
  rw [copyToCheckpoint_eq k.live.time_never_iff_idle]
  refine checkpointed_inv hr.medium_wf hr.cylinders_in_range k.live (commitWrites_settled ?_) k.side_mirror
  rw [commitWrites_lastNow, runEngine_lastNow]
  exact runEngine_settled (h.controller hf).live hle

/-! ## The invariant under every operation -/

theorem timeAtOrBefore_some {x : Time} {n t : Nat} (h : timeAtOrBefore x n = true) (hx : x = some t) : t ≤ n := by
  subst hx; simpa [timeAtOrBefore] using h

/-- R156: where `CHECKPOINT` may be issued, the live copy is not ahead of real time. -/
theorem checkpointReady_not_ahead {s : State} (h : LiveInv Config.machine s.cur) (hp : checkpointReady s = true) :
    ∀ t, s.cur.time = some t → t ≤ s.lastNow := by
  intro t ht
  simp only [checkpointReady, Bool.or_eq_true, beq_iff_eq] at hp
  exact timeAtOrBefore_some (hp.resolve_left (h.not_idle_of_time ht)) ht

theorem stepReady_running {s : State} (h : stepReady s = true) : s.cur.state = .running ∧ s.cur.nextState = none := by
  simp only [stepReady, Bool.and_eq_true, beq_iff_eq] at h
  exact h.1

theorem exec_internal_inv {i : Instr} {s t : State} (h : Inv Config.machine s) (hc : i.opClass = .internal)
    (he : exec i s = .next t) : Inv Config.machine t := by
  cases i with
  | lookup => exact microOp_keeps he h fun _ => lookupCodec_inv h
  | refresh => exact microOp_keeps he h fun _ => refreshCodec_inv h
  | step =>
    exact guardedOp_keeps he h fun _ hp =>
      have ⟨hs, hn⟩ := stepReady_running hp
      stepCell_inv h hs hn
  | fire =>
    refine guardedOp_keeps he h fun hf hp => ?_
    simp only [fireReady, Bool.and_eq_true, beq_iff_eq] at hp
    exact absurd hp.1 (h.controller hf).live.not_at_syncpoint
  | run => exact microOp_keeps he h fun _ => runEngine_inv h
  | start => exact guardedOp_keeps he h fun _ hp => startEngine_inv h (by simpa [startReady] using hp)
  | stop =>
    refine guardedOp_keeps he h fun hf hp => ?_
    simp only [stopReady, Bool.and_eq_true] at hp
    exact stopEngine_inv h hf hp.2
  | commit => exact microOp_keeps he h fun _ => commitWrites_inv h
  | checkpoint =>
    exact guardedOp_keeps he h fun hf hp =>
      checkpointEngine_inv h hf (checkpointReady_not_ahead (h.controller hf).live hp)
  | rollback => exact microOp_keeps he h fun hf => rollbackEngine_inv h hf
  | sync => exact microOp_keeps he h fun hf => syncEngine_inv h hf
  | wrdata | drvsel | sidesel | wrgate | ergate | wrsync | stpen | stpph | motor | rddata | rdstat | timer | spec | reset =>
    cases hc

theorem synced_medium_wf {s : State} (h : Medium.wf s.medium) : Medium.wf (synced s).medium :=
  syncEngine_medium_wf (s := { s with lastNow := s.now }) h

/-- R170: what an external operation that gets past its `SYNC` leaves. -/
theorem AfterBody.afterCheckpoint_inv {i : Instr} {s v : State} (a : AfterBody s v) (h : Proceeds s)
    (he : isExternal i = true) : Inv Config.machine (afterCheckpoint i s v) := by
  have k : Inv Config.machine (checkpointed v (refreshLive Config.machine v.cur)) :=
    checkpointed_inv (by rw [a.same_medium]; exact synced_medium_wf h.inv.medium_wf) a.cylinders_in_range a.live
      (by rw [a.same_lastNow]; exact a.is_settled) a.side_mirror
  rcases afterCheckpoint_cases he s v with e | ⟨n, e⟩ <;> rw [e]
  · exact k
  · exact runEngine_inv k

theorem exec_external_inv {i : Instr} {s t : State} (h : Inv Config.machine s) (hx : isExternal i = true)
    (he : exec i s = .next t) : Inv Config.machine t := by
  cases hw : i.wellFormed with
  | false =>
    obtain ⟨v, hv⟩ := exec_of_not_wellFormed hw
    rw [hv] at he; cases he
    exact raise_inv h v
  | true =>
    have hop := exec_eq_externalOp hx hw s
    rw [hop] at he; cases he
    rcases externalOp_cases (externalBody i) (externalTail i) s with
      ⟨-, e⟩ | ⟨-, -, e⟩ | ⟨-, -, hv, e⟩ | ⟨hf, hle, hs, -⟩
    · rw [e]; exact h
    · rw [e]; exact raise_inv h _
    · rw [e]; exact h.of_violation (by simp [synced]) (synced_medium_wf h.medium_wf) hv
    · have p : Proceeds s := ⟨h, hf, hle, hs⟩
      obtain ⟨v, a, hv⟩ := p.exec_external hx hw
      rw [hop] at hv
      injection hv with hv
      rw [hv]; exact a.afterCheckpoint_inv p hx

theorem exec_inv {i : Instr} {s t : State} (h : Inv Config.machine s) (he : exec i s = .next t) : Inv Config.machine t := by
  cases hc : i.opClass with
  | host | scheduler => exact exec_external_inv h (by simp [isExternal, hc]) he
  | internal => exact exec_internal_inv h hc he
  | resetSignal => rw [eq_reset_of_class hc] at he; cases he; exact resetOp_inv h

/-- Settles O59: construction leaves both copies in reset, the media blank and the cylinders in their range. -/
theorem invariantHoldsAfterReset : Obligations.InvariantHoldsAfterReset := State.construct_inv Config.machine

/-- Settles O60: a step loads the entry's operands, and then executes it or takes a violation. -/
theorem everyStepKeepsTheInvariant : Obligations.EveryStepKeepsTheInvariant := by
  intro s t h hstep
  unfold step at hstep
  split at hstep
  · cases hstep; exact h
  · rename_i q rest _
    have hl := loadIssue_inv h q rest
    split at hstep
    · exact exec_inv hl hstep
    · cases hstep; exact raise_inv hl _
    · cases hstep

end Sys2Proof.Machine
end

section
/-! SUPPORT. The cached edge after an external operation (spec/10_state.md R24, spec/20_memory.md R53), and who writes each
latch and each drive register (R16, R17, R25 to R27). -/

namespace Sys2Proof.Machine

/-! ## The cached edge -/

/-- R156: the checkpoint of an external operation recomputes the edge. -/
theorem checkpointed_edgeValid (s : State) (x : LiveState) : edgeValid (checkpointed s x) := by
  intro t ht _
  have ht' : x.time = some t := ht
  show edgeFor s x = _
  unfold edgeFor
  rw [ht']
  rfl

theorem AfterBody.afterCheckpoint_edgeValid {i : Instr} {s v : State} (a : AfterBody s v) (h : Proceeds s)
    (he : isExternal i = true) : edgeValid (afterCheckpoint i s v) := by
  have hm : Medium.wf v.medium := by rw [a.same_medium]; exact synced_medium_wf h.inv.medium_wf
  rcases afterCheckpoint_cases he s v with e | ⟨n, e⟩ <;> rw [e]
  · exact checkpointed_edgeValid v _
  · exact runEngine_edgeValid hm (checkpointed_edgeValid v _)

/-- Settles O43: the checkpoint recomputes the edge, and the run ahead of `SPEC` keeps it right. -/
theorem externalOperationsKeepTheEdgeRight : Obligations.ExternalOperationsKeepTheEdgeRight := by
  intro i s t h hx hw he
  obtain ⟨v, a, hv⟩ := h.proceeds.exec_external hx hw
  rw [hv] at he; cases he
  exact a.afterCheckpoint_edgeValid h.proceeds hx

/-! ## Who writes each latch and each drive register -/

/-- R25: the registers of drive `e` that the operation `i` does not own are the same in `x` and `y`. -/
structure OwnDriveWritesOnly (i : Instr) (e : DriveId) (x y : Drive) : Prop where
  stepper : (∀ code, i ≠ .stpph e code) → y.cylinder = x.cylinder ∧ y.phase = x.phase
  motor : (∀ k, i ≠ .motor e k) → y.motorEnabled = x.motorEnabled
  side : (∀ d, i ≠ .drvsel d) → (∀ d, i ≠ .sidesel d) → y.side = x.side
  writeProtect : y.writeProtect = x.writeProtect
  medium : y.medium = x.medium

/-- R16, R17, R25 to R27: the latches and drive registers that the operation `i` does not own are the same in `s` and `t`. -/
structure OwnWritesOnly (i : Instr) (s t : State) : Prop where
  writeData : (∀ b, i ≠ .wrdata b) → t.cur.writeData = s.cur.writeData
  drive : (∀ d, i ≠ .drvsel d) → t.cur.drive = s.cur.drive
  side : (∀ d, i ≠ .sidesel d) → t.cur.side = s.cur.side
  writeGate : (∀ g, i ≠ .wrgate g) → t.cur.writeGate = s.cur.writeGate
  eraseGate : (∀ g, i ≠ .ergate g) → t.cur.eraseGate = s.cur.eraseGate
  writeSyncGate : (∀ g, i ≠ .wrsync g) → t.cur.writeSyncGate = s.cur.writeSyncGate
  stepperEnable : (∀ g, i ≠ .stpen g) → t.stepperEnable = s.stepperEnable
  spindleCtl : (∀ d k, i ≠ .motor d k) → t.spindleCtl = s.spindleCtl
  drives : ∀ e, OwnDriveWritesOnly i e (s.drv e) (t.drv e)

theorem OwnDriveWritesOnly.refl (i : Instr) (e : DriveId) (x : Drive) : OwnDriveWritesOnly i e x x :=
  ⟨fun _ => ⟨rfl, rfl⟩, fun _ => rfl, fun _ _ => rfl, rfl, rfl⟩

theorem OwnDriveWritesOnly.trans {i : Instr} {e : DriveId} {x y z : Drive} (h : OwnDriveWritesOnly i e x y)
    (k : OwnDriveWritesOnly i e y z) : OwnDriveWritesOnly i e x z :=
  { stepper := fun a => ⟨(k.stepper a).1.trans (h.stepper a).1, (k.stepper a).2.trans (h.stepper a).2⟩
    motor := fun a => (k.motor a).trans (h.motor a)
    side := fun a b => (k.side a b).trans (h.side a b)
    writeProtect := k.writeProtect.trans h.writeProtect
    medium := k.medium.trans h.medium }

theorem OwnWritesOnly.trans {i : Instr} {s t u : State} (h : OwnWritesOnly i s t) (k : OwnWritesOnly i t u) :
    OwnWritesOnly i s u :=
  { writeData := fun a => (k.writeData a).trans (h.writeData a)
    drive := fun a => (k.drive a).trans (h.drive a)
    side := fun a => (k.side a).trans (h.side a)
    writeGate := fun a => (k.writeGate a).trans (h.writeGate a)
    eraseGate := fun a => (k.eraseGate a).trans (h.eraseGate a)
    writeSyncGate := fun a => (k.writeSyncGate a).trans (h.writeSyncGate a)
    stepperEnable := fun a => (k.stepperEnable a).trans (h.stepperEnable a)
    spindleCtl := fun a => (k.spindleCtl a).trans (h.spindleCtl a)
    drives := fun e => (h.drives e).trans (k.drives e) }

theorem SameRegisters.ownWritesOnly {s t : State} (h : SameRegisters s t) (i : Instr) : OwnWritesOnly i s t := by
  obtain ⟨hdrive, hside, hgate, hdata, hsync, herase⟩ := h.latches
  exact
    { writeData := fun _ => hdata.symm
      drive := fun _ => hdrive.symm
      side := fun _ => hside.symm
      writeGate := fun _ => hgate.symm
      eraseGate := fun _ => herase.symm
      writeSyncGate := fun _ => hsync.symm
      stepperEnable := fun _ => h.stepperEnable
      spindleCtl := fun _ => h.spindleCtl
      drives := fun e => by rw [drv_congr h.drives e]; exact .refl i e _ }

theorem OwnWritesOnly.refl (i : Instr) (s : State) : OwnWritesOnly i s s := (SameRegisters.refl s).ownWritesOnly i

/-- An operation that writes one drive. -/
theorem OwnWritesOnly.setDrv {i : Instr} {s : State} {d : DriveId} {x : Drive} (h : OwnDriveWritesOnly i d (s.drv d) x) :
    OwnWritesOnly i s (s.setDrv d x) :=
  { OwnWritesOnly.refl i s with
    drives := fun e => by
      by_cases hd : e = d
      · subst hd; rw [drv_setDrv_self]; exact h
      · rw [drv_setDrv_other s hd]; exact .refl i e _ }

theorem followMotors_registers (c : Config) (now : Nat) (s : State) : SameRegisters s (followMotors c now s) := by
  unfold followMotors
  split
  · exact startEngine_registers ..
  · split
    · exact stopEngine_registers s
    · exact .refl s

/-- R181: `MOTOR` writes the motor of its drive and the spindle commands. -/
theorem motorBody_ownWritesOnly (c : Config) (d : DriveId) (cmd : BitVec 2) (k : SpindleCommand) (s : State) :
    OwnWritesOnly (.motor d cmd) s (motorBody c d k s) := by
  have hd : OwnWritesOnly (.motor d cmd) s (s.setDrv d { s.drv d with motorEnabled := motorDecode (s.drv d).motorEnabled k }) :=
    .setDrv { OwnDriveWritesOnly.refl _ d (s.drv d) with motor := fun h => absurd rfl (h cmd) }
  have hb : OwnWritesOnly (.motor d cmd) s (spindleBody d k s) :=
    { hd with spindleCtl := fun h => absurd rfl (h d cmd) }
  exact hb.trans ((followMotors_registers ..).ownWritesOnly _)

/-- R173 to R183: the body of an operation writes what the operation owns. -/
theorem externalBody_ownWritesOnly (i : Instr) (s : State) : OwnWritesOnly i s (externalBody i s) := by
  have hr := OwnWritesOnly.refl i s
  cases i with
  | wrdata b => exact { hr with writeData := fun h => absurd rfl (h b) }
  | drvsel d =>
    have hc : OwnWritesOnly (.drvsel d) s (s.setCur { s.cur with drive := d }) :=
      { hr with drive := fun h => absurd rfl (h d) }
    exact hc.trans (.setDrv { OwnDriveWritesOnly.refl _ d (s.drv d) with side := fun h _ => absurd rfl (h d) })
  | sidesel side =>
    have hc : OwnWritesOnly (.sidesel side) s (s.setCur { s.cur with side := side }) :=
      { hr with side := fun h => absurd rfl (h side) }
    exact hc.trans
      (.setDrv { OwnDriveWritesOnly.refl _ s.cur.drive (s.drv s.cur.drive) with side := fun _ h => absurd rfl (h side) })
  | wrgate g => exact { hr with writeGate := fun h => absurd rfl (h g) }
  | ergate g => exact { hr with eraseGate := fun h => absurd rfl (h g) }
  | wrsync g => exact { hr with writeSyncGate := fun h => absurd rfl (h g) }
  | stpen g => exact { hr with stepperEnable := fun h => absurd rfl (h g) }
  | stpph d code =>
    exact .setDrv { OwnDriveWritesOnly.refl _ d (s.drv d) with stepper := fun h => absurd rfl (h code) }
  | motor d cmd =>
    cases hk : spindleCommand cmd with
    | some k => rw [externalBody_motor hk]; exact motorBody_ownWritesOnly ..
    | none => rw [externalBody_motor_of_no_command hk]; exact hr
  | rddata | rdstat => exact (setResult_registers s _).ownWritesOnly _
  | timer | spec | lookup | refresh | step | fire | run | start | stop | commit | checkpoint | rollback | sync | reset =>
    exact hr

theorem externalTail_registers (i : Instr) (s : State) : SameRegisters s (externalTail i s) := by
  unfold externalTail
  split
  · exact runEngine_registers ..
  · exact .refl s

/-- R170: of an external operation only the body writes latches and drives. -/
theorem externalOp_ownWritesOnly {s : State} (h : Inv Config.machine s) (i : Instr) :
    OwnWritesOnly i s (externalOp Config.machine (externalBody i) (externalTail i) s) := by
  rcases externalOp_cases (externalBody i) (externalTail i) s with
    ⟨-, e⟩ | ⟨-, -, e⟩ | ⟨hf, -, -, e⟩ | ⟨hf, -, -, e⟩ <;> rw [e]
  · exact .refl i s
  · exact (raise_registers _ s).ownWritesOnly i
  · exact (synced_registers (h.controller hf).latches_agree).ownWritesOnly i
  · have hsync := (synced_registers (h.controller hf).latches_agree).ownWritesOnly i
    have hbody := hsync.trans (externalBody_ownWritesOnly i _)
    have hrefresh := andThen_keeps hbody fun _ => hbody.trans ((refreshCodec_registers Config.machine _).ownWritesOnly i)
    have hcheck := andThen_keeps hrefresh fun _ =>
      hrefresh.trans ((checkpointEngine_registers Config.machine s.now _).ownWritesOnly i)
    exact andThen_keeps hcheck fun _ => hcheck.trans ((externalTail_registers i _).ownWritesOnly i)

theorem exec_ownWritesOnly {i : Instr} {s t : State} (h : Inv Config.machine s) (hr : i ≠ .reset) (he : exec i s = .next t) :
    OwnWritesOnly i s t := by
  cases hw : i.wellFormed with
  | false =>
    obtain ⟨v, hv⟩ := exec_of_not_wellFormed hw
    rw [hv] at he; cases he
    exact (raise_registers v s).ownWritesOnly i
  | true =>
    cases hc : i.opClass with
    | host | scheduler =>
      rw [exec_eq_externalOp (by simp [isExternal, hc]) hw] at he; cases he
      exact externalOp_ownWritesOnly h i
    | internal => exact (exec_internal_registers h hc he).ownWritesOnly i
    | resetSignal => exact absurd (eq_reset_of_class hc) hr

/-- Settles O44: of an external operation only the body writes latches and drives, and it writes its own; a micro-operation
writes none. -/
theorem latchesAreWrittenByTheirOwnOperation : Obligations.LatchesAreWrittenByTheirOwnOperation := by
  intro i s t h hr he
  have k := exec_ownWritesOnly h hr he
  exact ⟨k.writeData, k.drive, k.side, k.writeGate, k.eraseGate, k.writeSyncGate, k.stepperEnable, k.spindleCtl, fun e =>
    ⟨(k.drives e).stepper, (k.drives e).motor, (k.drives e).side, (k.drives e).writeProtect, (k.drives e).medium⟩⟩

end Sys2Proof.Machine
end

section
/-! SUPPORT. The flux media under every operation: what `FluxNext` reads (spec/20_memory.md R42), which operations store and where
(R43, spec/43_write_path.md R124), and the operation a step runs (R48). -/

namespace Sys2Proof.Machine

/-! ## The operation a step runs -/

theorem classify_operation {q : Issue} {i : Instr} (hd : decode q.word = .ok i)
    (ha : q.agent = .engine ∨ i.opClass ≠ .internal) : classify q = .operation i := by
  simp [classify, hd, ha]

/-- R48: a step executes the oldest entry when its word may be issued. -/
theorem step_of_operation {s : State} {q : Issue} {rest : List Issue} {i : Instr} (hq : s.queue = q :: rest)
    (hc : classify q = .operation i) : step s = exec i (loadIssue q rest s) := by
  simp [step, hq, hc]

/-- Settles O58: the word decodes to an operation that its agent may issue. -/
theorem stepRunsTheDecodedInstruction : Obligations.StepRunsTheDecodedInstruction := fun _ _ _ _ hq hd ha =>
  step_of_operation hq (classify_operation hd ha)

/-! ## `FluxNext` -/

theorem fluxNext_of_medium {s : State} {tr : Track} (h : (s.drv tr.drive).medium = true) (t : Nat) :
    fluxNext s tr t = mediumNext s.medium tr t := by
  simp [fluxNext, h]

theorem fluxNext_of_no_medium {s : State} {tr : Track} (h : (s.drv tr.drive).medium = false) (t : Nat) :
    fluxNext s tr t = none := by
  simp [fluxNext, h]

/-- Settles O52: with a medium it is the canonical list's first mark at or after `t`, without one it is `never`. -/
theorem fluxNextIsTheFirstTransition : Obligations.FluxNextIsTheFirstTransition := by
  intro s tr t hwf
  cases hm : (s.drv tr.drive).medium with
  | false => simp [fluxNext_of_no_medium hm]
  | true => simp [fluxNext_of_medium hm, mediumNext_some hwf, mediumNext_none]

/-! ## Stores and `COMMIT` events -/

/-- R30, R40, R43: from `s` to `t` events were only appended, and the media are the same unless one of them is a `COMMIT`. -/
def LogsItsStores (s t : State) : Prop :=
  ∃ l, t.events = s.events ++ l ∧ ((∀ tr a b ts, Event.commit tr a b ts ∉ l) → t.medium = s.medium)

theorem LogsItsStores.of_same_medium {s t : State} {l : List Event} (he : t.events = s.events ++ l)
    (hm : t.medium = s.medium) : LogsItsStores s t :=
  ⟨l, he, fun _ => hm⟩

theorem LogsItsStores.of_same {s t : State} (he : t.events = s.events) (hm : t.medium = s.medium) : LogsItsStores s t :=
  .of_same_medium (l := []) (by simp [he]) hm

theorem LogsItsStores.refl (s : State) : LogsItsStores s s := .of_same rfl rfl

theorem LogsItsStores.trans {s t u : State} (h : LogsItsStores s t) (k : LogsItsStores t u) : LogsItsStores s u := by
  obtain ⟨l, hl, hm⟩ := h
  obtain ⟨l', hl', hm'⟩ := k
  refine ⟨l ++ l', by rw [hl', hl, List.append_assoc], fun hn => ?_⟩
  have hn' : ∀ tr a b ts, Event.commit tr a b ts ∉ l ∧ Event.commit tr a b ts ∉ l' := by
    simpa [List.mem_append, not_or] using hn
  exact (hm' fun tr a b ts => (hn' tr a b ts).2).trans (hm fun tr a b ts => (hn' tr a b ts).1)

theorem LogsItsStores.andThen {s t : State} {f : State → State} (h : LogsItsStores s t) (hf : LogsItsStores t (f t)) :
    LogsItsStores s (t.andThen f) :=
  andThen_keeps h fun _ => h.trans hf

theorem raise_logsItsStores (v : Violation) (s : State) : LogsItsStores s (raise v s) :=
  .of_same (raise_events v s) (raise_medium v s)

theorem stepCell_logsItsStores (c : Config) (s : State) : LogsItsStores s (stepCell c s) :=
  .of_same (stepCell_events c s) (stepCell_medium c s)

theorem fireSyncpoint_logsItsStores (s : State) : LogsItsStores s (fireSyncpoint s) := .of_same_medium rfl rfl

theorem settlePass_logsItsStores {now : Nat} {s s' : State} (h : settlePass now s = some s') : LogsItsStores s s' := by
  rcases (settlePass_cases h).2 with ⟨-, -, rfl⟩ | ⟨-, -, rfl⟩ | ⟨-, -, rfl⟩ | ⟨_, -, -, -, rfl⟩
  · exact .refl _
  · exact fireSyncpoint_logsItsStores s
  · exact .of_same_medium rfl rfl
  · exact .of_same rfl rfl

theorem runEngine_logsItsStores (c : Config) (limit now : Nat) (s : State) :
    LogsItsStores s (runEngine c limit now s) :=
  runEngine_induct (P := LogsItsStores s)
    (fun _ _ h hp => h.trans (settlePass_logsItsStores hp))
    (fun _ s' h hp _ => (h.trans (settlePass_logsItsStores hp)).trans (stepCell_logsItsStores c s'))
    (.refl s)

/-- R43: the only store, and the event that goes with it. -/
theorem fluxCommit_logsItsStores (tr : Track) (start stop : Nat) (ts : List Nat) (s : State) :
    LogsItsStores s (fluxCommit tr start stop ts s) := by
  unfold fluxCommit
  split
  · exact ⟨[.commit tr start stop ts], rfl, fun hn => absurd (List.mem_singleton_self _) (hn tr start stop ts)⟩
  · exact raise_logsItsStores ..

theorem commitWrites_logsItsStores (s : State) : LogsItsStores s (commitWrites s) := by
  unfold commitWrites
  split
  · split
    · exact (fluxCommit_logsItsStores ..).andThen (.of_same rfl rfl)
    · exact .refl s
  · exact .refl s

theorem rollbackEngine_logsItsStores (s : State) : LogsItsStores s (rollbackEngine s) := .of_same rfl rfl

theorem discardSpeculation_logsItsStores (now : Nat) (s : State) : LogsItsStores s (discardSpeculation now s) := by
  rcases discardSpeculation_cases now s with ⟨-, e⟩ | ⟨-, e⟩ <;> rw [e]
  · exact .refl s
  · exact rollbackEngine_logsItsStores s

theorem syncEngine_logsItsStores (c : Config) (now : Nat) (s : State) : LogsItsStores s (syncEngine c now s) := by
  unfold syncEngine
  split
  · exact .refl s
  · exact ((discardSpeculation_logsItsStores now s).trans (runEngine_logsItsStores ..)).trans (commitWrites_logsItsStores _)

theorem synced_logsItsStores (s : State) : LogsItsStores s (synced s) :=
  LogsItsStores.trans (t := { s with lastNow := s.now }) (.of_same rfl rfl) (syncEngine_logsItsStores ..)

theorem checkpointEngine_logsItsStores (c : Config) (now : Nat) (s : State) :
    LogsItsStores s (checkpointEngine c now s) :=
  ((runEngine_logsItsStores c now now s).trans (commitWrites_logsItsStores _)).andThen (.of_same rfl rfl)

theorem stopEngine_logsItsStores (s : State) : LogsItsStores s (stopEngine s) :=
  (commitWrites_logsItsStores s).andThen (.of_same rfl rfl)

theorem followMotors_logsItsStores (c : Config) (now : Nat) (s : State) : LogsItsStores s (followMotors c now s) := by
  unfold followMotors
  split
  · exact .of_same rfl rfl
  · split
    · exact stopEngine_logsItsStores s
    · exact .refl s

theorem motorBody_logsItsStores (c : Config) (d : DriveId) (k : SpindleCommand) (s : State) :
    LogsItsStores s (motorBody c d k s) :=
  LogsItsStores.trans (t := spindleBody d k s) (.of_same rfl rfl) (followMotors_logsItsStores ..)

/-- R173 to R183: of the bodies only `MOTOR`'s can store, through `STOP` (R136). -/
theorem externalBody_logsItsStores (i : Instr) (s : State) : LogsItsStores s (externalBody i s) := by
  cases i with
  | motor d cmd =>
    cases hk : spindleCommand cmd with
    | some k => rw [externalBody_motor hk]; exact motorBody_logsItsStores ..
    | none => rw [externalBody_motor_of_no_command hk]; exact .refl s
  | wrdata | drvsel | sidesel | wrgate | ergate | wrsync | stpen | stpph | rddata | rdstat | timer | spec | lookup | refresh
  | step | fire | run | start | stop | commit | checkpoint | rollback | sync | reset => exact .of_same rfl rfl

theorem externalTail_logsItsStores (i : Instr) (s : State) : LogsItsStores s (externalTail i s) := by
  unfold externalTail
  split
  · exact runEngine_logsItsStores ..
  · exact .refl s

/-- R170: every part of the wrapper logs its stores. -/
theorem externalOp_logsItsStores (i : Instr) (s : State) :
    LogsItsStores s (externalOp Config.machine (externalBody i) (externalTail i) s) := by
  rcases externalOp_cases (externalBody i) (externalTail i) s with
    ⟨-, e⟩ | ⟨-, -, e⟩ | ⟨-, -, -, e⟩ | ⟨-, -, -, e⟩ <;> rw [e]
  · exact .refl s
  · exact raise_logsItsStores ..
  · exact synced_logsItsStores s
  · have hbody := (synced_logsItsStores s).trans (externalBody_logsItsStores i _)
    have hrefresh := hbody.andThen (f := refreshCodec Config.machine) (.of_same rfl rfl)
    exact (hrefresh.andThen (checkpointEngine_logsItsStores ..)).andThen (externalTail_logsItsStores i _)

theorem exec_internal_logsItsStores {i : Instr} {s t : State} (hc : i.opClass = .internal) (he : exec i s = .next t) :
    LogsItsStores s t := by
  have hr := LogsItsStores.refl s
  cases i with
  | lookup | refresh => exact microOp_keeps he hr fun _ => .of_same rfl rfl
  | step => exact guardedOp_keeps he hr fun _ _ => stepCell_logsItsStores ..
  | fire => exact guardedOp_keeps he hr fun _ _ => fireSyncpoint_logsItsStores s
  | run => exact microOp_keeps he hr fun _ => runEngine_logsItsStores ..
  | start => exact guardedOp_keeps he hr fun _ _ => .of_same rfl rfl
  | stop => exact guardedOp_keeps he hr fun _ _ => stopEngine_logsItsStores s
  | commit => exact microOp_keeps he hr fun _ => commitWrites_logsItsStores s
  | checkpoint => exact guardedOp_keeps he hr fun _ _ => checkpointEngine_logsItsStores ..
  | rollback => exact microOp_keeps he hr fun _ => rollbackEngine_logsItsStores s
  | sync => exact microOp_keeps he hr fun _ => syncEngine_logsItsStores ..
  | wrdata | drvsel | sidesel | wrgate | ergate | wrsync | stpen | stpph | motor | rddata | rdstat | timer | spec | reset =>
    cases hc

theorem exec_logsItsStores {i : Instr} {s t : State} (hr : i ≠ .reset) (he : exec i s = .next t) : LogsItsStores s t := by
  cases hw : i.wellFormed with
  | false =>
    obtain ⟨v, hv⟩ := exec_of_not_wellFormed hw
    rw [hv] at he; cases he
    exact raise_logsItsStores v s
  | true =>
    cases hc : i.opClass with
    | host | scheduler =>
      rw [exec_eq_externalOp (by simp [isExternal, hc]) hw] at he; cases he
      exact externalOp_logsItsStores i s
    | internal => exact exec_internal_logsItsStores hc he
    | resetSignal => exact absurd (eq_reset_of_class hc) hr

/-- Settles O46: `FluxCommit` is the only store, and it emits its `COMMIT`; everything else appends events or leaves them. -/
theorem mediumChangesOnlyByCommitEvents : Obligations.MediumChangesOnlyByCommitEvents := fun _ _ _ hr he =>
  exec_logsItsStores hr he

/-! ## Where an external operation stores -/

/-- R170: past its `SYNC` an external operation stores nothing: its checkpoint finds an empty interval, and `SPEC`'s run ahead
commits nothing. -/
theorem AfterBody.afterCheckpoint_medium {i : Instr} {s v : State} (a : AfterBody s v) (he : isExternal i = true) :
    (afterCheckpoint i s v).medium = (synced s).medium := by
  rcases afterCheckpoint_cases he s v with e | ⟨n, e⟩ <;> rw [e]
  · exact a.same_medium
  · exact (runEngine_medium ..).trans a.same_medium

/-- Settles O45: only the wrapper's `SYNC` stores, and only to the interval it commits. -/
theorem externalOperationsStoreOnlyTheirCommit : Obligations.ExternalOperationsStoreOnlyTheirCommit := by
  intro i s t h hx hw he
  obtain ⟨v, a, hv⟩ := h.proceeds.exec_external hx hw
  rw [hv] at he; cases he
  have hm := a.afterCheckpoint_medium hx
  refine ⟨hm, fun tr x hn => ?_⟩
  rw [hm]
  exact syncEngine_outside h.proceeds.syncable tr x hn

end Sys2Proof.Machine
end

section
/-! SUPPORT. The encoding (spec/30_encoding.md R65 to R67, R70): each format of the operand byte is read back from what is
written, and only from it; so decoding and encoding undo each other, and the legal words are the encodings of the operations
that the outside may issue. -/

namespace Sys2Proof

/-! ## The two fields of a word -/

theorem opField_encode (i : Instr) : opField (encode i) = i.op := Laws.opField_append ..

theorem operandField_encode (i : Instr) : operandField (encode i) = i.operand := Laws.operandField_append ..

theorem opField_append_operandField (w : Word) : opField w ++ operandField w = w :=
  BitVec.extractLsb'_append_extractLsb' (w := 8) (len := 8)

theorem encode_of_fields {w : Word} {i : Instr} (ho : (opField w).toNat = i.op.toNat) (hv : operandField w = i.operand) :
    encode i = w := by
  rw [encode, ← BitVec.eq_of_toNat_eq ho, ← hv, opField_append_operandField]

/-! ## The formats of the operand byte -/

@[simp] theorem numberOfBit_bitOfNumber (d : Fin 2) : numberOfBit (bitOfNumber d) = d := by revert d; decide

@[simp] theorem bitOfNumber_numberOfBit (b : Bool) : bitOfNumber (numberOfBit b) = b := by revert b; decide

theorem ofBool_getLsbD {n : Nat} (v : BitVec n) (k : Nat) : BitVec.ofBool (v.getLsbD k) = v.extractLsb' k 1 := by
  ext i hi
  obtain rfl : i = 0 := by omega
  simp

/-- R66: an operand byte with all but `v[0]` zero. -/
theorem decodeBitOperand_eq_ok {v : Byte} {k : Bool → Instr} {i : Instr} :
    decodeBitOperand v k = .ok i ↔ ∃ b, v = bitOperand b ∧ i = k b := by
  constructor
  · intro h
    rw [decodeBitOperand] at h
    split at h
    case isTrue hz =>
      refine ⟨v.getLsbD 0, ?_, by cases h; rfl⟩
      rw [bitOperand, ofBool_getLsbD, ← hz]
      exact (BitVec.extractLsb'_append_extractLsb' (w := 7) (len := 1)).symm
    case isFalse => cases h
  · rintro ⟨b, rfl, rfl⟩
    cases b <;> rfl

/-- R66: an operand byte that is zero. -/
theorem decodeNoOperand_eq_ok {v : Byte} {i j : Instr} : decodeNoOperand v j = .ok i ↔ v = 0#8 ∧ i = j := by
  by_cases h : v = 0#8 <;> simp [decodeNoOperand, h, eq_comm]

/-- R66: the drive and the phase code of `STPPH`. -/
theorem decodeStpph_eq_ok {v : Byte} {i : Instr} :
    decodeStpph v = .ok i ↔ ∃ d code, v = (Instr.stpph d code).operand ∧ i = .stpph d code := by
  constructor
  · intro h
    rw [decodeStpph] at h
    split at h
    case isTrue hz =>
      refine ⟨_, _, ?_, by cases h; rfl⟩
      rw [Instr.operand, bitOfNumber_numberOfBit, ofBool_getLsbD, ← hz,
        BitVec.extractLsb'_append_extractLsb'_eq_extractLsb' (start₁ := 4) (len₁ := 1) (start₂ := 5) rfl]
      exact (BitVec.extractLsb'_append_extractLsb' (w := 4) (len := 4)).symm
    case isFalse => cases h
  · rintro ⟨d, code, rfl, rfl⟩
    revert d code
    decide

/-- R66, R70: the drive and the command of `MOTOR`, command 3 excepted. -/
theorem decodeMotor_eq_ok {v : Byte} {i : Instr} :
    decodeMotor v = .ok i ↔ ∃ d cmd, motorCommandLegal cmd = true ∧ v = (Instr.motor d cmd).operand ∧ i = .motor d cmd := by
  constructor
  · intro h
    rw [decodeMotor] at h
    split_ifs at h with hz hc
    obtain ⟨hupper, hmiddle⟩ := hz
    refine ⟨_, _, hc, ?_, by cases h; rfl⟩
    rw [Instr.operand, bitOfNumber_numberOfBit, ofBool_getLsbD, ← hupper, ← hmiddle,
      BitVec.extractLsb'_append_extractLsb'_eq_extractLsb' (start₁ := 4) (len₁ := 1) (start₂ := 5) rfl,
      BitVec.extractLsb'_append_extractLsb'_eq_extractLsb' (start₁ := 2) (len₁ := 2) (start₂ := 4) rfl]
    exact (BitVec.extractLsb'_append_extractLsb' (w := 6) (len := 2)).symm
  · rintro ⟨d, cmd, hc, rfl, rfl⟩
    revert d cmd
    decide

/-! ## Words -/

theorem decode_encode {i : Instr} (hw : i.wellFormed = true) : decode (encode i) = .ok i := by
  rw [decode, opField_encode, operandField_encode]
  cases i with
  | wrdata | spec => rfl
  | drvsel | sidesel => exact decodeBitOperand_eq_ok.mpr ⟨_, rfl, by simp⟩
  | wrgate | ergate | wrsync | stpen => exact decodeBitOperand_eq_ok.mpr ⟨_, rfl, rfl⟩
  | stpph => exact decodeStpph_eq_ok.mpr ⟨_, _, rfl, rfl⟩
  | motor => exact decodeMotor_eq_ok.mpr ⟨_, _, hw, rfl, rfl⟩
  | rddata | rdstat | timer | lookup | refresh | step | fire | run | start | stop | commit | checkpoint | rollback | sync
  | reset => exact decodeNoOperand_eq_ok.mpr ⟨rfl, rfl⟩

/-- R66, R70: the cases are the rows of `decode` in their order, the last of them the unknown identifiers. -/
theorem encode_of_decode {w : Word} {i : Instr} (h : decode w = .ok i) : i.wellFormed = true ∧ encode i = w := by
  rw [decode] at h
  generalize hop : (opField w).toNat = n at h
  split at h
  case h_1 | h_13 =>
    cases h
    exact ⟨rfl, encode_of_fields hop rfl⟩
  case h_2 | h_3 =>
    obtain ⟨b, hv, rfl⟩ := decodeBitOperand_eq_ok.mp h
    exact ⟨rfl, encode_of_fields hop (by simp [Instr.operand, hv])⟩
  case h_4 | h_5 | h_6 | h_7 =>
    obtain ⟨b, hv, rfl⟩ := decodeBitOperand_eq_ok.mp h
    exact ⟨rfl, encode_of_fields hop hv⟩
  case h_8 =>
    obtain ⟨d, code, hv, rfl⟩ := decodeStpph_eq_ok.mp h
    exact ⟨rfl, encode_of_fields hop hv⟩
  case h_9 =>
    obtain ⟨d, cmd, hc, hv, rfl⟩ := decodeMotor_eq_ok.mp h
    exact ⟨hc, encode_of_fields hop hv⟩
  case h_26 => cases h
  all_goals
    obtain ⟨hv, rfl⟩ := decodeNoOperand_eq_ok.mp h
    exact ⟨rfl, encode_of_fields hop hv⟩

/-- R66, R70: a word decodes to an instruction exactly when it is the encoding of that instruction, which is well formed. -/
theorem decode_eq_ok_iff {w : Word} {i : Instr} : decode w = .ok i ↔ i.wellFormed = true ∧ encode i = w :=
  ⟨encode_of_decode, fun ⟨hw, he⟩ => he ▸ decode_encode hw⟩

theorem legalOutside_iff_decode {w : Word} : legalOutside w = true ↔ ∃ i, decode w = .ok i ∧ i.opClass ≠ .internal := by
  cases h : decode w <;> simp [legalOutside, h]

/-- Settles O56: every operand format is read back from its own bits. -/
theorem decodeOfEncode : Obligations.DecodeOfEncode := fun _ => decode_encode

/-- Settles O57: every operand format is read only from the bytes that are written for it. -/
theorem encodeOfDecode : Obligations.EncodeOfDecode := fun _ _ => encode_of_decode

/-- Settles O29: a legal word decodes to an operation of another class than `I`, and the words that decode are the encodings. -/
theorem legalWordsAreTheExternalEncodings : Obligations.LegalWordsAreTheExternalEncodings := by
  refine fun w => legalOutside_iff_decode.trans (exists_congr fun i => ?_)
  rw [decode_eq_ok_iff, and_right_comm, and_assoc]

/-- Settles O55: closed words, evaluated. -/
theorem wordsDecodeToTheirOperations : Obligations.WordsDecodeToTheirOperations := by
  unfold Obligations.WordsDecodeToTheirOperations
  decide

end Sys2Proof
end

section
/-! SUPPORT. The codec input as a number (spec/40_codec.md R62), and the words that the outside may not issue
(spec/30_encoding.md R70). -/

namespace Sys2Proof.Machine

/-! ## The codec input -/

theorem toNat_append_eq {m n : Nat} (x : BitVec m) (y : BitVec n) : (x ++ y).toNat = 2 ^ n * x.toNat + y.toNat := by
  rw [BitVec.toNat_append, ← Nat.shiftLeft_add_eq_or_of_lt y.isLt, Nat.shiftLeft_eq, Nat.mul_comm]

/-- R62: format `CI-R`. -/
theorem codecInput_of_read {x : LiveState} (hw : x.writeGate = false) : (codecInput x).toNat = x.shiftRegister.toNat := by
  rw [codecInput, hw, if_neg Bool.false_ne_true]
  exact (toNat_append_eq 0#1 x.shiftRegister).trans (by simp)

/-- R62: format `CI-W`. -/
theorem codecInput_of_write {x : LiveState} (hw : x.writeGate = true) :
    (codecInput x).toNat = 1024 + 512 * x.writeSyncGate.toNat + 256 * x.eraseGate.toNat +
      16 * (secondHalf x).toNat + (writeNibble x).toNat := by
  rw [codecInput, if_pos hw]
  change BitVec.toNat (w := 1 + 1 + 1 + 3 + 1 + 4) _ = _
  simp only [toNat_append_eq, BitVec.toNat_ofBool, BitVec.toNat_ofNat]
  omega

/-- R62: the data nibble, upper half first. -/
theorem writeNibble_toNat (x : LiveState) :
    (writeNibble x).toNat = if secondHalf x then x.writeData.toNat % 16 else x.writeData.toNat / 16 := by
  have := x.writeData.isLt
  rw [writeNibble]
  split_ifs
  · rw [BitVec.extractLsb'_toNat, Nat.shiftRight_zero]
  · rw [BitVec.extractLsb'_toNat, Nat.shiftRight_eq_div_pow]
    omega

/-- Settles O3: the two formats field by field, with the half and its nibble chosen together. -/
theorem codecInputFormats : Obligations.CodecInputFormats := by
  intro x
  refine ⟨codecInput_of_read, fun hw => ?_⟩
  rw [codecInput_of_write hw, writeNibble_toNat, Nat.add_assoc]
  by_cases hb : 5 ≤ x.bitCounter.val <;> simp [secondHalf, hb]

/-! ## Words the outside may not issue -/

/-- R70: from outside, a word that is not legal is illegal whether it decodes (class `I`) or not. -/
theorem classify_illegal {q : Issue} (ha : q.agent ≠ .engine) (hl : legalOutside q.word = false) : classify q = .illegal := by
  cases hd : decode q.word with
  | ok i =>
    have hi : i.opClass = .internal := by simpa [legalOutside, hd] using hl
    simp [classify, hd, ha, hi]
  | error => simp [classify, hd, ha]

/-- R48, R70: a step takes a violation for the oldest entry when its word may not be issued. -/
theorem step_of_illegal {s : State} {q : Issue} {rest : List Issue} (hq : s.queue = q :: rest) (hc : classify q = .illegal) :
    step s = .next (raise (.illegalOp q.word) (loadIssue q rest s)) := by
  simp [step, hq, hc]

/-- Settles O28: the step takes the violation in the loaded state; `MOTOR` has no command for the value 3. -/
theorem illegalWordIsAViolation : Obligations.IllegalWordIsAViolation := by
  refine ⟨fun s q rest hq ha hf hl => ?_, fun d s hf => ?_⟩
  · rw [step_of_illegal hq (classify_illegal ha hl), raise_of_none _ (s := loadIssue q rest s) hf]
    rfl
  · rw [← raise_of_none _ hf]
    exact congrArg Host.Outcome.next (motorOp_of_no_command rfl s)

end Sys2Proof.Machine
end

section
/-! SUPPORT. The codec micro-operations where no violation stands (spec/40_codec.md R80, R83). -/

namespace Sys2Proof.Machine

/-- R216: without a violation a micro-operation runs. -/
theorem microOp_of_none {f : State → State} {s : State} (hf : s.fault = none) : microOp f s = .next (f s) :=
  congrArg _ (andThen_of_none f hf)

theorem exec_lookup_of_none {s : State} (hf : s.fault = none) : exec .lookup s = .next (lookupCodec Config.machine s) :=
  microOp_of_none hf

theorem exec_refresh_of_none {s : State} (hf : s.fault = none) : exec .refresh s = .next (refreshCodec Config.machine s) :=
  microOp_of_none hf

/-- R62: the codec input is read from the latches and the bit counter, which the codec pair is not among. -/
@[simp] theorem codecInput_refreshLive (c : Config) (x : LiveState) : codecInput (refreshLive c x) = codecInput x := rfl

@[simp] theorem refreshLive_refreshLive (c : Config) (x : LiveState) : refreshLive c (refreshLive c x) = refreshLive c x := by
  rw [refreshLive, codecInput_refreshLive]
  rfl

@[simp] theorem refreshCodec_refreshCodec (c : Config) (s : State) : refreshCodec c (refreshCodec c s) = refreshCodec c s := by
  rw [refreshCodec, refreshCodec_cur, refreshLive_refreshLive]
  rfl

/-- Settles O1: the micro-operation runs, and all it does is to put the entry on the result port. -/
theorem lookupReturnsTableEntry : Obligations.LookupReturnsTableEntry := fun _ hf => exec_lookup_of_none hf

/-- Settles O2: a refreshed pair has the input it was computed from, so a second refresh finds the same. -/
theorem refreshRecomputesTheCodecPair : Obligations.RefreshRecomputesTheCodecPair := by
  refine fun s hf => ⟨refreshCodec Config.machine s, exec_refresh_of_none hf, rfl, ?_⟩
  rw [exec_refresh_of_none ((refreshCodec_fault _ s).trans hf), refreshCodec_refreshCodec]

end Sys2Proof.Machine
end

section
/-! SUPPORT. One bit cell, field by field (spec/41_shift_framing.md R90 to R103): what the live copy holds after it, what it leaves
unchanged, and the framing counters over any number of cells. -/

namespace Sys2Proof.Machine

/-! ## Counters and flags -/

/-- R93: a mark is the sync pattern seen in read mode. -/
theorem isMark_iff {g : Bool} {sr : BitVec 10} : isMark g sr = true ↔ sr = 0x3FF#10 ∧ g = false := by
  simp [isMark, syncPattern]

theorem isMark_eq_false_iff {g : Bool} {sr : BitVec 10} : isMark g sr = false ↔ ¬ (sr = 0x3FF#10 ∧ g = false) := by
  rw [← isMark_iff, Bool.not_eq_true]

@[simp] theorem nextBitCount_of_no_mark (n : Fin 10) : (nextBitCount false n).val = (n.val + 1) % 10 := rfl

@[simp] theorem nextByteCount_of_no_mark (m : Fin 10) (n : Fin 16) :
    (nextByteCount false m n).val = if m.val = 9 then (n.val + 1) % 16 else n.val := by
  rw [nextByteCount, if_neg Bool.false_ne_true]
  split <;> rfl

/-- R97: `done` is the tenth bit of a byte, in a step without a mark. -/
theorem byteDone_iff {mark : Bool} {n : Fin 10} : byteDone mark n = true ↔ mark = false ∧ n.val = 9 := by
  simp [byteDone]

/-- R102, for one flag: its change flag `a`, its old value `x`, its new value `y`. -/
theorem changeFlag_iff (a x y : Bool) : (a || x != y) = true ↔ a = true ∨ x ≠ y := by
  rw [Bool.or_eq_true, bne_iff_ne]

/-! ## The live copy after one cell -/

section
variable (c : Config) (t : Nat) (b : Bool) (x : LiveState)

/-- R120: before the bit is shifted in, a cell touches at most the write buffer and its position. -/
theorem advanceLive_eq : ∃ l n,
    advanceLive c t b x = finishCell c t x (shiftCell c b { x with writeBuffer := l, writePosition := n }) := by
  unfold advanceLive queueBit
  split
  · split <;> exact ⟨_, _, rfl⟩
  · exact ⟨_, _, rfl⟩

/-- R91: in read mode a cell queues nothing. -/
theorem advanceLive_of_read (hg : x.writeGate = false) : advanceLive c t b x = finishCell c t x (shiftCell c b x) := by
  rw [advanceLive, hg, if_neg Bool.false_ne_true]

/-- R94. -/
theorem advanceLive_bitCounter : (advanceLive c t b x).bitCounter =
    nextBitCount (isMark x.writeGate (advanceLive c t b x).shiftRegister) x.bitCounter := by
  obtain ⟨l, n, h⟩ := advanceLive_eq c t b x
  rw [h]; rfl

/-- R95. -/
theorem advanceLive_syncBitCounter : (advanceLive c t b x).syncBitCounter =
    nextBitCount (isMark x.writeGate (advanceLive c t b x).shiftRegister) x.syncBitCounter := by
  obtain ⟨l, n, h⟩ := advanceLive_eq c t b x
  rw [h]; rfl

/-- R96. -/
theorem advanceLive_syncByteCounter : (advanceLive c t b x).syncByteCounter =
    nextByteCount (isMark x.writeGate (advanceLive c t b x).shiftRegister) x.syncBitCounter x.syncByteCounter := by
  obtain ⟨l, n, h⟩ := advanceLive_eq c t b x
  rw [h]; rfl

/-- R94 to R96: the counters after a cell without a mark. -/
theorem advanceLive_counters_of_no_mark (hm : ¬ ((advanceLive c t b x).shiftRegister = 0x3FF#10 ∧ x.writeGate = false)) :
    (advanceLive c t b x).bitCounter.val = (x.bitCounter.val + 1) % 10 ∧
    (advanceLive c t b x).syncBitCounter.val = (x.syncBitCounter.val + 1) % 10 ∧
    (advanceLive c t b x).syncByteCounter.val =
      if x.syncBitCounter.val = 9 then (x.syncByteCounter.val + 1) % 16 else x.syncByteCounter.val := by
  rw [advanceLive_bitCounter, advanceLive_syncBitCounter, advanceLive_syncByteCounter, isMark_eq_false_iff.mpr hm]
  exact ⟨nextBitCount_of_no_mark _, nextBitCount_of_no_mark _, nextByteCount_of_no_mark _ _⟩

/-- R94 to R96: the counters after a cell with a mark. -/
theorem advanceLive_counters_of_mark (hm : (advanceLive c t b x).shiftRegister = 0x3FF#10 ∧ x.writeGate = false) :
    (advanceLive c t b x).bitCounter.val = 0 ∧ (advanceLive c t b x).syncBitCounter.val = 0 ∧
    (advanceLive c t b x).syncByteCounter.val = 0 := by
  rw [advanceLive_bitCounter, advanceLive_syncBitCounter, advanceLive_syncByteCounter, isMark_iff.mpr hm]
  exact ⟨rfl, rfl, rfl⟩

/-- R90 (e), R18: the codec pair is refreshed after the shift. -/
theorem advanceLive_gcrInput : (advanceLive c t b x).gcrInput = codecInput (advanceLive c t b x) := rfl

theorem advanceLive_gcrOutput : (advanceLive c t b x).gcrOutput = c.gcrRom (advanceLive c t b x).gcrInput := rfl

/-- R102. -/
theorem advanceLive_changed : (advanceLive c t b x).changed = markChanges x.flags (advanceLive c t b x).flags x.changed := rfl

/-- R103. -/
theorem advanceLive_nextState : (advanceLive c t b x).nextState =
    if (advanceLive c t b x).changed.any then some .runningSyncpoint else x.nextState := by
  obtain ⟨l, n, h⟩ := advanceLive_eq c t b x
  rw [h]; rfl

/-- R97. -/
theorem advanceLive_byteReady : (advanceLive c t b x).flags.byteReady = true ↔
    ¬ ((advanceLive c t b x).shiftRegister = 0x3FF#10 ∧ x.writeGate = false) ∧ x.bitCounter.val = 9 := by
  rw [← isMark_eq_false_iff]
  exact byteDone_iff

/-- R98. -/
theorem advanceLive_latchedByteReady :
    (advanceLive c t b x).flags.latchedByteReady = (advanceLive c t b x).flags.byteReady := rfl

/-- R99. -/
theorem advanceLive_syncDetected : (advanceLive c t b x).flags.syncDetected = true ↔
    (advanceLive c t b x).shiftRegister = 0x3FF#10 ∧ x.writeGate = false := isMark_iff

/-- R100. -/
theorem advanceLive_synMarker :
    (advanceLive c t b x).flags.synMarker = true ↔ (advanceLive c t b x).syncByteCounter.val = 15 := decide_eq_true_iff

end

/-! ## Guarded micro-operations, and `STEP` among them -/

/-- A guarded micro-operation within its precondition. -/
theorem guardedOp_inside {pre : Bool} {why : Fault} {f : State → State} {s : State} (hf : s.fault = none) (hp : pre = true) :
    guardedOp pre why f s = .next (f s) := by
  simp [guardedOp, hf, hp]

/-- Log 6: outside its precondition a guarded micro-operation stops. -/
theorem guardedOp_outside {pre : Bool} {why : Fault} {f : State → State} {s : State} (hf : s.fault = none) (hp : ¬ pre = true) :
    guardedOp pre why f s = .fault why := by
  simp [guardedOp, hf, hp]

/-- R90: a cell that starts at `t`. -/
theorem stepCell_cur {c : Config} {s : State} {t : Nat} (ht : s.cur.time = some t) :
    (stepCell c s).cur = advanceLive c t (cellBit c t s) s.cur := by
  simp only [stepCell, ht]

/-- R91: in read mode a cell leaves the write buffer and its position. -/
theorem stepCell_of_read {c : Config} {s : State} (hg : s.cur.writeGate = false) :
    (stepCell c s).cur.writeBuffer = s.cur.writeBuffer ∧ (stepCell c s).cur.writePosition = s.cur.writePosition := by
  cases ht : s.cur.time with
  | none => simp [stepCell, ht]
  | some t =>
    rw [stepCell_cur ht, advanceLive_of_read _ _ _ _ hg]
    exact ⟨rfl, rfl⟩

/-- R91: in write mode a cell leaves the cached edge. -/
theorem stepCell_of_write {c : Config} {s : State} (hg : s.cur.writeGate = true) : (stepCell c s).nextEdge = s.nextEdge := by
  unfold stepCell
  split
  · rfl
  · exact if_pos hg

theorem stepReady_iff {s : State} :
    stepReady s = true ↔ s.cur.state = .running ∧ s.cur.nextState = none ∧ s.cur.time ≠ none := by
  simp [stepReady, and_assoc]

/-- R90: `STEP` at a boundary, within its precondition. -/
theorem exec_step_of_running {s : State} {t : Nat} (hf : s.fault = none) (hs : s.cur.state = .running)
    (hn : s.cur.nextState = none) (ht : s.cur.time = some t) : exec .step s = .next (stepCell Config.machine s) :=
  guardedOp_inside hf (stepReady_iff.mpr ⟨hs, hn, ht ▸ Option.some_ne_none t⟩)

/-- R29, R90: a `STEP` that answers a next state did nothing or processed one cell. -/
theorem exec_step_next {s u : State} (h : exec .step s = .next u) : u = s ∨ u = stepCell Config.machine s :=
  guardedOp_keeps (P := fun u => u = s ∨ u = stepCell Config.machine s) h (.inl rfl) fun _ _ => .inr rfl

/-- Settles O6: each counter by its own rule, the mark's clauses exclusive. -/
theorem stepCounts : Obligations.StepCounts := by
  intro s t hf hs hn ht
  refine ⟨_, exec_step_of_running hf hs hn ht, ?_⟩
  rw [stepCell_cur ht]
  exact ⟨advanceLive_counters_of_mark _ _ _ _, advanceLive_counters_of_no_mark _ _ _ _⟩

/-- Settles O7: each flag by its own rule, over the codec pair that the cell refreshed. -/
theorem stepSetsTheStatusFlags : Obligations.StepSetsTheStatusFlags := by
  intro s t hf hs hn ht
  refine ⟨_, exec_step_of_running hf hs hn ht, ?_⟩
  rw [stepCell_cur ht]
  exact ⟨advanceLive_syncDetected .., advanceLive_byteReady .., advanceLive_latchedByteReady .., advanceLive_synMarker .., rfl,
    advanceLive_gcrInput .., advanceLive_gcrOutput ..⟩

/-- Settles O8: one rule for the five change flags, and the deferral over all of them. -/
theorem stepDefersChangedFlags : Obligations.StepDefersChangedFlags := by
  intro s t hf hs hn ht
  refine ⟨_, exec_step_of_running hf hs hn ht, stepCell_events _ s, (stepCell_state s).trans hs, stepCell_time ht, ?_⟩
  rw [stepCell_cur ht, advanceLive_nextState, hn, advanceLive_changed]
  exact ⟨changeFlag_iff .., changeFlag_iff .., changeFlag_iff .., changeFlag_iff .., changeFlag_iff .., rfl⟩

/-- Settles O9: a cell writes the live copy and the cached edge, and in the live copy no latch. -/
theorem stepFrame : Obligations.StepFrame := by
  intro s u h
  rcases exec_step_next h with rfl | rfl
  · simp
  · obtain ⟨hdrive, hside, hgate, hdata, hsync, herase, hstart⟩ := stepCell_latches Config.machine s
    exact ⟨stepCell_chk .., stepCell_drives .., stepCell_stepperEnable .., stepCell_spindleCtl .., stepCell_lastNow ..,
      stepCell_fault .., stepCell_events .., fun _ _ => by rw [stepCell_medium], stepCell_queue .., stepCell_now ..,
      stepCell_limit .., stepCell_index .., stepCell_result .., hdrive.symm, hside.symm, hgate.symm, hdata.symm, hsync.symm,
      herase.symm, hstart.symm, stepCell_of_read, stepCell_of_write⟩

/-! ## Framing over any number of cells -/

/-- R216: without a violation `RUN` runs. -/
theorem exec_run_next {s u : State} (he : exec .run s = .next u) (hf : s.fault = none) :
    u = runEngine Config.machine s.limit s.lastNow s := by
  cases (microOp_of_none hf).symm.trans he
  rfl

/-- R139, R140: after `RUN` to the end of the pending cell the live copy is the cell's, its syncpoint delivered. -/
theorem runEngine_oneCell_cur {c : Config} {s : State} {a : Nat} (hs : s.cur.state = .running) (hn : s.cur.nextState = none)
    (ha : s.cur.time = some a) : ∃ ch, (runEngine c (a + c.period) (a + c.period) s).cur =
      { advanceLive c a (cellBit c a s) s.cur with state := .running, nextState := none, changed := ch } := by
  have hst : (stepCell c s).cur.state = .running := (stepCell_state s).trans hs
  have hnx : (stepCell c s).cur.nextState = _ := (congrArg _ (stepCell_cur ha)).trans (advanceLive_nextState ..)
  rw [hn] at hnx
  rw [runEngine_oneCell hs hn ha, ← stepCell_cur ha]
  split
  · exact ⟨_, rfl⟩
  · rename_i h
    have hnone : (stepCell c s).cur.nextState = none := by
      rw [hnx] at h ⊢
      split at h
      · exact absurd rfl h
      · exact if_neg ‹_›
    exact ⟨_, by rw [← hst, ← hnone]⟩

/-- R139: `RUN` issued when the pending cell ends. -/
theorem exec_run_oneCell {s u : State} {a : Nat} (hf : s.fault = none) (hs : s.cur.state = .running)
    (hn : s.cur.nextState = none) (ha : s.cur.time = some a)
    (he : exec .run { s with lastNow := a + Config.machine.period, limit := a + Config.machine.period } = .next u) :
    u.fault = none ∧ ∃ b ch, u.cur =
      { advanceLive Config.machine a b s.cur with state := .running, nextState := none, changed := ch } := by
  obtain rfl := exec_run_next he hf
  exact ⟨(runEngine_fault ..).trans hf, _, runEngine_oneCell_cur hs hn ha⟩

/-- R94 to R97, R100: the machine at a boundary, `k` cells without a mark after the boundary `t` at which the counters were 0. -/
structure FramedAt (t k : Nat) (s : State) : Prop where
  no_violation : s.fault = none
  running : s.cur.state = .running
  nothing_deferred : s.cur.nextState = none
  time : s.cur.time = some (t + k * Config.machine.period)
  bit_counter : s.cur.bitCounter.val = k % 10
  sync_bit_counter : s.cur.syncBitCounter.val = k % 10
  sync_byte_counter : s.cur.syncByteCounter.val = k / 10 % 16
  byte_ready : 0 < k → (s.cur.flags.byteReady = true ↔ k % 10 = 0)
  syn_marker : 0 < k → (s.cur.flags.synMarker = true ↔ k / 10 % 16 = 15)

/-- R139: one more cell, processed by `RUN` when it ends. -/
theorem FramedAt.run {t k : Nat} {s u : State} (h : FramedAt t k s)
    (he : exec .run { s with
      lastNow := t + (k + 1) * Config.machine.period, limit := t + (k + 1) * Config.machine.period } = .next u)
    (hm : ¬ (u.cur.shiftRegister = 0x3FF#10 ∧ u.cur.writeGate = false)) : FramedAt t (k + 1) u := by
  obtain ⟨hf, hs, hn, ht, hbit, hsyncBit, hbyte, -, -⟩ := h
  have hend : t + (k + 1) * Config.machine.period = t + k * Config.machine.period + Config.machine.period := by ring
  rw [hend] at he
  obtain ⟨hfault, b, ch, hu⟩ := exec_run_oneCell hf hs hn ht he
  obtain ⟨-, -, hgate, -⟩ := advanceLive_latches Config.machine (t + k * Config.machine.period) b s.cur
  rw [hu, ← hgate] at hm
  obtain ⟨hbit', hsyncBit', hbyte'⟩ := advanceLive_counters_of_no_mark _ _ _ _ hm
  have hcarry := hbyte'.trans (show _ = (k + 1) / 10 % 16 by rw [hsyncBit, hbyte]; split <;> omega)
  refine ⟨hfault, by rw [hu], by rw [hu], ?_, ?_, ?_, ?_, fun _ => ?_, fun _ => ?_⟩ <;> rw [hu]
  · rw [hend]; rfl
  · exact hbit'.trans (by rw [hbit]; omega)
  · exact hsyncBit'.trans (by rw [hsyncBit]; omega)
  · exact hcarry
  · refine (advanceLive_byteReady ..).trans ?_
    rw [hbit, and_iff_right hm]
    omega
  · rw [← hcarry]
    exact advanceLive_synMarker ..

/-- Settles O10: by induction on the number of cells. -/
theorem framingCountersAfterAMark : Obligations.FramingCountersAfterAMark := by
  intro k t f hf hs hn ht hbit hsyncBit hbyte hrun
  have hframed : FramedAt t k (f k) := by
    induction k with
    | zero => exact ⟨hf, hs, hn, by simpa using ht, by simp [hbit], by simp [hsyncBit], by simp [hbyte], by simp, by simp⟩
    | succ k ih =>
      obtain ⟨hnext, hmark⟩ := hrun k k.lt_succ_self
      exact (ih fun j hj => hrun j (hj.trans k.lt_succ_self)).run hnext hmark
  refine ⟨hframed.time, hframed.bit_counter, hframed.sync_bit_counter, hframed.sync_byte_counter, hframed.byte_ready,
    fun hk hlt => (hframed.syn_marker hk).trans ?_⟩
  omega

/-! ## Micro-operations outside their preconditions -/

theorem fireReady_iff {s : State} : fireReady s = true ↔ s.cur.state = .runningSyncpoint ∧ s.cur.time ≠ none := by
  simp [fireReady]

theorem startReady_iff {s : State} : startReady s = true ↔ s.cur.state = .idle := by
  simp [startReady]

theorem stopReady_iff {c : Config} {s : State} :
    stopReady c s = true ↔ s.cur.state = .running ∧ s.cur.nextState = none ∧ settled c s.lastNow s.cur = true := by
  simp [stopReady, and_assoc]

theorem timeAtOrBefore_iff {x : Time} {n : Nat} : timeAtOrBefore x n = true ↔ ∃ t, x = some t ∧ t ≤ n := by
  cases x <;> simp [timeAtOrBefore]

theorem checkpointReady_iff {s : State} :
    checkpointReady s = true ↔ s.cur.state = .idle ∨ ∃ t, s.cur.time = some t ∧ t ≤ s.lastNow := by
  simp [checkpointReady, timeAtOrBefore_iff]

/-- Settles O12: each of the five is guarded by its rule's precondition. -/
theorem microOperationsStopOutsideTheirPreconditions : Obligations.MicroOperationsStopOutsideTheirPreconditions := by
  refine fun s hf => ⟨fun h => ?_, fun h => ?_, fun h => ?_, fun h => ?_, fun h => ?_⟩
  · exact guardedOp_outside hf (mt stepReady_iff.mp h)
  · exact guardedOp_outside hf (mt fireReady_iff.mp h)
  · exact guardedOp_outside hf (mt startReady_iff.mp h)
  · refine guardedOp_outside hf fun hp => h ?_
    obtain ⟨hs, -, hsettled⟩ := stopReady_iff.mp hp
    exact ⟨hs, hsettled⟩
  · exact guardedOp_outside hf (mt checkpointReady_iff.mp h)

end Sys2Proof.Machine
end

section
/-! SUPPORT. One bit cell in read mode (spec/42_read_path.md R110, R111): the bit read through the cached edge, said about the
selected track, and that bit in the shift register. -/

namespace Sys2Proof.Machine

/-! ## The bit of the cell -/

/-- R110: the bit is `TB` exactly when the cached edge lies before the end of the cell. -/
theorem readBit_eq_transitionBit_iff {c : Config} {t : Nat} {s : State} :
    readBit c t s = c.transitionBit ↔ ∃ x, s.nextEdge = some x ∧ x < t + c.period := by
  unfold readBit
  cases s.nextEdge with
  | none => simp
  | some x => by_cases hx : x < t + c.period <;> simp [hx]

/-- R42: `FluxNext` lies before `u` exactly when a medium is inserted and the track holds a transition in `[t, u)`. -/
theorem fluxNext_lt {s : State} (hwf : Medium.wf s.medium) (tr : Track) (t u : Nat) :
    (∃ x, fluxNext s tr t = some x ∧ x < u) ↔
      (s.drv tr.drive).medium = true ∧ ∃ x, mediumHas s.medium tr x = true ∧ t ≤ x ∧ x < u := by
  cases hm : (s.drv tr.drive).medium with
  | false => simp [fluxNext_of_no_medium hm]
  | true => simp only [fluxNext_of_medium hm, mediumNext_lt hwf, true_and]

/-- R111: under the cache premise of R24 the bit is `TB` exactly when the selected track holds a transition in the cell. -/
theorem readBit_of_edge {c : Config} {t : Nat} {s : State} (hwf : Medium.wf s.medium)
    (he : s.nextEdge = fluxNext s s.track t) : readBit c t s = c.transitionBit ↔
      (s.drv s.cur.drive).medium = true ∧ ∃ x, mediumHas s.medium s.track x = true ∧ t ≤ x ∧ x < t + c.period := by
  rw [readBit_eq_transitionBit_iff, he]
  exact fluxNext_lt hwf s.track t (t + c.period)

/-! ## What the cell leaves -/

/-- R92: the register as a number, the new bit lowest and the old bit 9 lost. -/
theorem shiftIn_toNat (sr : BitVec 10) (b : Bool) : (shiftIn sr b).toNat = (2 * sr.toNat + b.toNat) % 1024 := by
  have hb := b.toNat_lt
  rw [shiftIn, toNat_append_eq, BitVec.extractLsb'_toNat, Nat.shiftRight_zero, BitVec.toNat_ofBool]
  omega

theorem advanceLive_shiftRegister (c : Config) (t : Nat) (b : Bool) (x : LiveState) :
    (advanceLive c t b x).shiftRegister = shiftIn x.shiftRegister b := by
  obtain ⟨l, n, h⟩ := advanceLive_eq c t b x
  rw [h]; rfl

/-- R91: in read mode the bit of the cell is the bit read. -/
theorem cellBit_of_read {c : Config} {t : Nat} {s : State} (hg : s.cur.writeGate = false) : cellBit c t s = readBit c t s := by
  rw [cellBit, hg, if_neg Bool.false_ne_true]

/-- R110: in read mode a cell leaves the cached edge of `ReadBit`. -/
theorem stepCell_nextEdge_of_read {c : Config} {s : State} {t : Nat} (ht : s.cur.time = some t)
    (hg : s.cur.writeGate = false) : (stepCell c s).nextEdge = edgeAfterRead c t s := by
  simp [stepCell, ht, hg]

/-- Settles O4: the bit is `ReadBit`'s, and the cached edge says of the track what R111 says. -/
theorem stepReadsItsCell : Obligations.StepReadsItsCell := by
  intro s t hf hs hn ht hg hwf he
  refine ⟨_, readBit Config.machine t s, exec_step_of_running hf hs hn ht, readBit_of_edge hwf he, ?_, stepCell_time ht, ?_⟩
  · rw [stepCell_cur ht, cellBit_of_read hg, advanceLive_shiftRegister, shiftIn_toNat]
  · rw [stepCell_nextEdge_of_read ht hg, edgeAfterRead_eq hwf he]

end Sys2Proof.Machine
end

section
/-! SUPPORT. The write path (spec/43_write_path.md R120 to R124): one bit cell in write mode, the ten cells of a byte, and
`COMMIT`, alone and in the `SYNC` of an external operation. -/

namespace Sys2Proof.Machine

/-! ## One cell in write mode -/

/-- R120: in write mode the bit of the cell is the code bit to send. -/
theorem cellBit_of_write {c : Config} {t : Nat} {s : State} (hg : s.cur.writeGate = true) : cellBit c t s = codeBit s.cur :=
  if_pos hg

/-- R120: the bit is queued before it is shifted in. -/
theorem advanceLive_of_write {c : Config} {t : Nat} {b : Bool} {x : LiveState} (hg : x.writeGate = true) :
    advanceLive c t b x = finishCell c t x (shiftCell c b (queueBit c t x)) := by
  rw [advanceLive, if_pos hg]

/-- R120: the start of the cell is queued exactly when the code bit is `TB`. -/
theorem advanceLive_queue_of_write {c : Config} {t : Nat} {b : Bool} {x : LiveState} (hg : x.writeGate = true) :
    (advanceLive c t b x).writeBuffer =
      (if codeBit x = c.transitionBit then x.writeBuffer ++ [t] else x.writeBuffer) ∧
    (advanceLive c t b x).writePosition =
      if codeBit x = c.transitionBit then x.writePosition + 1 else x.writePosition := by
  rw [advanceLive_of_write hg, queueBit]
  split <;> exact ⟨rfl, rfl⟩

/-- Settles O5: the bit is the code bit, queued and shifted in by the cell. -/
theorem stepWritesItsCell : Obligations.StepWritesItsCell := by
  intro s t hf hs hn ht hg
  obtain ⟨hbuffer, hposition⟩ := advanceLive_queue_of_write (c := Config.machine) (t := t) (b := codeBit s.cur) hg
  refine ⟨_, codeBit s.cur, exec_step_of_running hf hs hn ht, rfl, ?_, ?_, ?_, stepCell_time ht, stepCell_of_write hg⟩ <;>
    rw [stepCell_cur ht, cellBit_of_write hg]
  · exact hbuffer
  · exact hposition
  · rw [advanceLive_shiftRegister, shiftIn_toNat]

/-! ## The ten code bits of a byte -/

/-- R62: the fields of a write input, as one number. -/
theorem writeInput_toNat (ws eg : Bool) (half nibble : BitVec 4) :
    (1#1 ++ BitVec.ofBool ws ++ BitVec.ofBool eg ++ half ++ nibble : CodecIndex).toNat =
      1024 + 512 * ws.toNat + 256 * eg.toNat + 16 * half.toNat + nibble.toNat := by
  simp only [toNat_append_eq, BitVec.toNat_ofBool, BitVec.toNat_ofNat]
  omega

/-- R62, R121: in write mode the codec input is that of the half of the byte that the bit counter stands in. -/
theorem codecInput_of_half {x : LiveState} (hg : x.writeGate = true) : codecInput x =
    if x.bitCounter.val < 5 then
      1#1 ++ BitVec.ofBool x.writeSyncGate ++ BitVec.ofBool x.eraseGate ++ 0#4 ++ x.writeData.extractLsb' 4 4
    else 1#1 ++ BitVec.ofBool x.writeSyncGate ++ BitVec.ofBool x.eraseGate ++ 1#4 ++ x.writeData.extractLsb' 0 4 := by
  apply BitVec.eq_of_toNat_eq
  rw [codecInput_of_write hg, writeNibble]
  by_cases hlt : x.bitCounter.val < 5
  · have hhalf : secondHalf x = false := decide_eq_false (Nat.not_le.mpr hlt)
    rw [if_pos hlt, writeInput_toNat, hhalf]
    rfl
  · have hhalf : secondHalf x = true := decide_eq_true (Nat.not_lt.mp hlt)
    rw [if_neg hlt, writeInput_toNat, hhalf]
    rfl

theorem byteCode_congr {c : Config} {x y : LiveState} (h : sameLatches x y) : byteCode c x = byteCode c y := by
  obtain ⟨-, -, -, hdata, hsync, herase⟩ := h
  rw [byteCode, hdata, hsync, herase, byteCode]

/-- R121: where the codec pair is the lookup of the latches, cell `bit_counter` of a byte sends code bit `9 - bit_counter`. -/
theorem codeBit_eq_byteCode {c : Config} {x : LiveState} (hg : x.writeGate = true)
    (ho : x.gcrOutput = c.gcrRom (codecInput x)) : codeBit x = (byteCode c x).getLsbD (9 - x.bitCounter.val) := by
  have hcount := x.bitCounter.isLt
  have hbit : 4 - x.bitCounter.val % 5 < 5 := by omega
  rw [codeBit, ho, codecInput_of_half hg, byteCode, BitVec.getLsbD_append]
  by_cases hhalf : x.bitCounter.val < 5
  · have hplace : 9 - x.bitCounter.val - 5 = 4 - x.bitCounter.val % 5 := by omega
    rw [if_pos hhalf, if_neg (by omega), hplace, BitVec.getLsbD_extractLsb', decide_eq_true hbit, Bool.true_and, Nat.zero_add]
  · have hplace : 9 - x.bitCounter.val = 4 - x.bitCounter.val % 5 := by omega
    rw [if_neg hhalf, if_pos (by omega), hplace, BitVec.getLsbD_extractLsb', decide_eq_true hbit, Bool.true_and, Nat.zero_add]

/-- R92: the new bit stands at 0. -/
theorem shiftIn_getLsbD_zero (sr : BitVec 10) (b : Bool) : (shiftIn sr b).getLsbD 0 = b := by
  rw [shiftIn, BitVec.getLsbD_append]
  simp

/-- R92: the others have moved up one place. -/
theorem shiftIn_getLsbD_succ (sr : BitVec 10) (b : Bool) {j : Nat} (hj : j < 9) :
    (shiftIn sr b).getLsbD (j + 1) = sr.getLsbD j := by
  rw [shiftIn, BitVec.getLsbD_append]
  simp [hj]

/-! ## The cells of a byte, one after the other -/

/-- R120, R121: the starts of those of the first `k` cells from `t` whose code bit is `TB`. -/
def transitionStarts (c : Config) (x : LiveState) (t k : Nat) : List Nat :=
  ((List.range k).filter (fun i => (byteCode c x).getLsbD (9 - i) == c.transitionBit)).map (fun i => t + i * c.period)

theorem transitionStarts_succ (c : Config) (x : LiveState) (t k : Nat) : transitionStarts c x t (k + 1) =
    transitionStarts c x t k ++
      if (byteCode c x).getLsbD (9 - k) = c.transitionBit then [t + k * c.period] else [] := by
  unfold transitionStarts
  rw [List.range_succ, List.filter_append, List.map_append]
  by_cases hbit : (byteCode c x).getLsbD (9 - k) = c.transitionBit <;> simp [hbit]

/-- R121: the live copy at a boundary, `k` cells after the boundary `t` at which it was `x` and a byte began. -/
structure CellsSent (c : Config) (x : LiveState) (t k : Nat) (y : LiveState) : Prop where
  running : y.state = .running
  nothing_deferred : y.nextState = none
  time : y.time = some (t + k * c.period)
  write_mode : y.writeGate = true
  latches : sameLatches x y
  bit_counter : y.bitCounter.val = k % 10
  codec_output : y.gcrOutput = c.gcrRom (codecInput y)
  register : ∀ j < k, y.shiftRegister.getLsbD j = (byteCode c x).getLsbD (j + (10 - k))
  buffer : y.writeBuffer = x.writeBuffer ++ transitionStarts c x t k

theorem CellsSent.code_bit {c : Config} {x y : LiveState} {t k : Nat} (h : CellsSent c x t k y) (hk : k < 10) :
    codeBit y = (byteCode c x).getLsbD (9 - k) := by
  rw [codeBit_eq_byteCode h.write_mode h.codec_output, byteCode_congr h.latches, h.bit_counter, Nat.mod_eq_of_lt hk]

/-- R120, R121, R140: one more cell, and the delivery of the syncpoint it may defer, which writes nothing that the codec pair
depends on. -/
theorem CellsSent.cell {c : Config} {x y : LiveState} {t k : Nat} (h : CellsSent c x t k y) (hk : k < 10) (ch : StatusFlags) :
    CellsSent c x t (k + 1)
      { advanceLive c (t + k * c.period) (codeBit y) y with state := .running, nextState := none, changed := ch } := by
  have hlatches := advanceLive_latches c (t + k * c.period) (codeBit y) y
  obtain ⟨hbuffer, -⟩ := advanceLive_queue_of_write (c := c) (t := t + k * c.period) (b := codeBit y) h.write_mode
  obtain ⟨hcount, -, -⟩ := advanceLive_counters_of_no_mark c (t + k * c.period) (codeBit y) y (by simp [h.write_mode])
  have hgate : (advanceLive c (t + k * c.period) (codeBit y) y).writeGate = true := by
    obtain ⟨-, -, hgate, -⟩ := hlatches
    exact hgate.symm.trans h.write_mode
  refine ⟨rfl, rfl, ?_, hgate, sameLatches_trans h.latches hlatches.latches, ?_, rfl, ?_, ?_⟩
  · rw [Nat.succ_mul, ← Nat.add_assoc]
    rfl
  · rw [h.bit_counter] at hcount
    exact hcount.trans (by omega)
  · intro j hj
    refine (congrArg (BitVec.getLsbD · j) (advanceLive_shiftRegister ..)).trans ?_
    cases j with
    | zero => exact (shiftIn_getLsbD_zero ..).trans ((h.code_bit hk).trans (congrArg _ (by omega)))
    | succ j =>
      exact (shiftIn_getLsbD_succ _ _ (by omega)).trans ((h.register j (by omega)).trans (congrArg _ (by omega)))
  · refine hbuffer.trans ?_
    rw [h.code_bit hk, h.buffer, transitionStarts_succ]
    split
    · exact List.append_assoc ..
    · rw [List.append_nil]

/-! ## `RUN` over the cells of a byte -/

/-- R139: the loop from what a pass leaves is the loop from where the pass began. -/
theorem runEngine_of_pass {c : Config} {limit now : Nat} {s s' : State} (hp : settlePass now s = some s')
    (hs : s'.cur.state = .running) (hn : s'.cur.nextState = none) :
    runEngine c limit now s = runEngine c limit now s' := by
  rw [runEngine_eq c limit now s, runEngine_eq c limit now s', hp, settlePass_quiet hs hn]

/-- R139: `RUN` up to real time goes through the end of a pending cell that has ended. -/
theorem runEngine_through_cell {c : Config} {now a : Nat} {s : State} (hs : s.cur.state = .running)
    (hn : s.cur.nextState = none) (ha : s.cur.time = some a) (hle : a + c.period ≤ now) :
    runEngine c now now s = runEngine c now now (runEngine c (a + c.period) (a + c.period) s) := by
  have hended : cellEnded c now s.cur = true := cellEnded_iff.mpr ⟨a, ha, hle⟩
  have hcell : runEngine c now now s = runEngine c now now (stepCell c s) := by
    rw [runEngine_eq, settlePass_quiet hs hn]
    exact if_pos hended
  rw [hcell, runEngine_oneCell hs hn ha]
  split
  · rename_i hdeferred
    refine runEngine_of_pass (settlePass_due ?_ hdeferred ?_) rfl rfl
    · rw [stepCell_state, hs]
      decide
    · exact timeAtOrBefore_iff.mpr ⟨_, stepCell_time ha, hle⟩
  · rfl

/-- R139: `RUN` up to real time in the middle of a cell does nothing. -/
theorem runEngine_within_cell {c : Config} {limit now a : Nat} {s : State} (hs : s.cur.state = .running)
    (hn : s.cur.nextState = none) (ha : s.cur.time = some a) (hlt : limit < a + c.period) : runEngine c limit now s = s := by
  rw [runEngine_eq, settlePass_quiet hs hn]
  refine if_neg fun hended => ?_
  obtain ⟨u, hu, hle⟩ := cellEnded_iff.mp hended
  cases ha.symm.trans hu
  omega

/-- R121, R139: by induction on the cells, `RUN` comes to each boundary of a byte that has passed. -/
theorem runEngine_sends {c : Config} {s : State} {t now : Nat} (h : CellsSent c s.cur t 0 s.cur) :
    ∀ k ≤ 10, t + k * c.period ≤ now → ∃ r, CellsSent c s.cur t k r.cur ∧ runEngine c now now s = runEngine c now now r := by
  intro k
  induction k with
  | zero => exact fun _ _ => ⟨s, h, rfl⟩
  | succ k ih =>
    intro hk hle
    rw [Nat.succ_mul, ← Nat.add_assoc] at hle
    obtain ⟨r, hr, hrun⟩ := ih (by omega) (by omega)
    obtain ⟨ch, hcur⟩ := runEngine_oneCell_cur (c := c) hr.running hr.nothing_deferred hr.time
    refine ⟨_, ?_, hrun.trans (runEngine_through_cell hr.running hr.nothing_deferred hr.time hle)⟩
    rw [hcur, cellBit_of_write hr.write_mode]
    exact hr.cell hk ch

/-- Settles O11: ten cells of a byte that begins at `t`, and then the loop ends within the eleventh. -/
theorem tenCellsSendOneByte : Obligations.TenCellsSendOneByte := by
  intro s t hf hs hn ht hg hcount hcode hlimit hle hlt
  have hbegin : CellsSent Config.machine s.cur t 0 s.cur :=
    { running := hs, nothing_deferred := hn, time := by simpa using ht, write_mode := hg, latches := sameLatches_refl _
      bit_counter := hcount, codec_output := hcode, register := by simp, buffer := (List.append_nil _).symm }
  obtain ⟨r, hr, hrun⟩ := runEngine_sends hbegin 10 (le_refl _) hle
  have hend : runEngine Config.machine s.lastNow s.lastNow r = r :=
    runEngine_within_cell hr.running hr.nothing_deferred hr.time (by omega)
  have hexec : exec .run s = .next r := by
    refine (microOp_of_none hf).trans (congrArg _ ?_)
    rw [hlimit, hrun, hend]
  exact ⟨r, hexec, hr.time, hr.bit_counter, BitVec.eq_of_getLsbD_eq hr.register, hr.buffer⟩

/-! ## `COMMIT` -/

/-- R124, R43: a commit over a non-empty interval to a drive with a medium. -/
theorem commitWrites_of_medium {s : State} {w t : Nat} (hf : s.fault = none) (hw : s.cur.writeStartTime = some w)
    (ht : s.cur.time = some t) (hlt : w < t) (hm : (s.drv s.cur.drive).medium = true) :
    commitWrites s = { s with
      cur := { s.cur with writeStartTime := some t, writeBuffer := [], writePosition := 0 }
      events := s.events ++ [.commit s.track w t s.cur.writeBuffer]
      medium := mediumReplace s.medium s.track w t s.cur.writeBuffer } := by
  rcases commitWrites_cases s with ⟨-, h⟩ | ⟨w', t', hw', ht', -, ⟨-, h, -⟩ | ⟨h, -⟩ | ⟨-, h⟩⟩
  · exact absurd (h w t hw ht) (Nat.not_le.mpr hlt)
  · cases hm.symm.trans h
  · cases hm.symm.trans h
  · cases hw.symm.trans hw'
    cases ht.symm.trans ht'
    exact h.trans (andThen_of_none _ hf)

/-- R43, R215: a commit over a non-empty interval to a drive without a medium. -/
theorem commitWrites_of_no_medium {s : State} {w t : Nat} (hf : s.fault = none) (hw : s.cur.writeStartTime = some w)
    (ht : s.cur.time = some t) (hlt : w < t) (hm : (s.drv s.cur.drive).medium = false) :
    commitWrites s = { s with fault := some (.commitNoMedium s.cur.drive) } := by
  rcases commitWrites_cases s with ⟨-, h⟩ | ⟨w', t', -, -, -, ⟨-, -, h⟩ | ⟨-, h, -⟩ | ⟨h, -⟩⟩
  · exact absurd (h w t hw ht) (Nat.not_le.mpr hlt)
  · exact h
  · exact absurd hf h
  · cases hm.symm.trans h

/-- R43: inside the interval the old transitions are erased, and the listed ones stand. -/
theorem mediumHas_replace_inside {m : Medium} {tr : Track} {start stop t : Nat} {ts : List Nat} (h1 : start ≤ t)
    (h2 : t < stop) : mediumHas (mediumReplace m tr start stop ts) tr t = true ↔ t ∈ ts := by
  simp [mediumHas_replace, h1, h2]

/-- R43: outside the interval a commit of transitions within it leaves every instant. -/
theorem mediumHas_replace_outside {m : Medium} {tr tr' : Track} {start stop t : Nat} {ts : List Nat}
    (hts : ∀ x ∈ ts, start ≤ x ∧ x < stop) (h : ¬ (tr' = tr ∧ start ≤ t ∧ t < stop)) :
    mediumHas (mediumReplace m tr start stop ts) tr' t = mediumHas m tr' t := by
  rw [Bool.eq_iff_iff, mediumHas_replace, and_iff_left h]
  exact or_iff_right fun ⟨htr, ht⟩ => h ⟨htr, hts t ht⟩

theorem exec_commit_of_none {s : State} (hf : s.fault = none) : exec .commit s = .next (commitWrites s) :=
  microOp_of_none hf

/-- R124: the interval of a commit, where it is open. -/
theorem inCommitInterval_iff {s : State} {w t : Nat} (hw : s.cur.writeStartTime = some w) (ht : s.cur.time = some t)
    (tr : Track) (x : Nat) : inCommitInterval s tr x ↔ tr = s.track ∧ w ≤ x ∧ x < t := by
  simp [inCommitInterval, hw, ht]

/-- Settles O19: the commit is one replacement on the medium, inside the interval and outside it. -/
theorem commitReplacesTheInterval : Obligations.CommitReplacesTheInterval := by
  intro s w t hf hw ht hlt hbuffer hm
  refine ⟨_, exec_commit_of_none hf, ?_, ?_, ?_⟩ <;> rw [commitWrites_of_medium hf hw ht hlt hm]
  · exact fun x h1 h2 => mediumHas_replace_inside h1 h2
  · exact fun tr x h => mediumHas_replace_outside hbuffer (mt (inCommitInterval_iff hw ht tr x).mpr h)

/-! ## `COMMIT` in the `SYNC` of an external operation -/

theorem beforeCommit_fault (now : Nat) (s : State) : (beforeCommit now s).fault = s.fault := by
  rw [beforeCommit, runEngine_fault]
  rcases discardSpeculation_cases now s with ⟨-, e⟩ | ⟨-, e⟩ <;> rw [e]
  exact rollbackEngine_fault s

/-- R138: in `Idle` there is no cell to commit up to. -/
theorem beforeCommit_idle {now : Nat} {s : State} (hi : s.cur.state = .idle) (ht : s.cur.time = none) :
    beforeCommit now s = s := by
  have hd : discardSpeculation now s = s := by
    rw [discardSpeculation, ht]
    exact if_neg Bool.false_ne_true
  rw [beforeCommit, hd, runEngine_idle hi]

/-- R158: where there is an interval to commit up to, `SYNC` is its commit. -/
theorem syncEngine_of_time {now t : Nat} {s : State} (h : LiveInv Config.machine s.cur)
    (ht : (beforeCommit now s).cur.time = some t) : syncEngine Config.machine now s = commitWrites (beforeCommit now s) := by
  have hrunning : s.cur.state ≠ .idle := fun hi => by
    have hnever := h.time_never_iff_idle.mpr hi
    rw [beforeCommit_idle hi hnever, hnever] at ht
    cases ht
  exact if_neg hrunning

/-- R170, R216: an external operation whose `SYNC` takes a violation is abandoned there. -/
theorem externalOp_of_sync_violation {body tail : State → State} {s : State} (hf : s.fault = none) (hle : s.lastNow ≤ s.now)
    (hs : (synced s).fault ≠ none) : externalOp Config.machine body tail s = synced s := by
  rcases externalOp_cases body tail s with ⟨h, -⟩ | ⟨-, h, -⟩ | ⟨-, -, -, h⟩ | ⟨-, -, h, -⟩
  · exact absurd hf h
  · exact absurd hle (Nat.not_le.mpr h)
  · exact h
  · exact absurd h hs

/-- Settles O20: nothing to commit, a commit to no medium, and that commit within `SYNC`. -/
theorem commitWithoutAnIntervalOrAMedium : Obligations.CommitWithoutAnIntervalOrAMedium := by
  refine fun s => ⟨fun hnothing => ?_, fun w t hf hw ht hlt hm => ?_, ?_⟩
  · exact congrArg Host.Outcome.next (andThen_keeps (P := (· = s)) rfl fun _ => commitWrites_nothing hnothing)
  · rw [exec_commit_of_none hf, commitWrites_of_no_medium hf hw ht hlt hm]
  · intro i w t hx hwf hinv hf hle r hw ht hlt hm
    have hsync : synced s = { r with fault := some (.commitNoMedium r.cur.drive) } :=
      (syncEngine_of_time (s := { s with lastNow := s.now }) (hinv.controller hf).live ht).trans
        (commitWrites_of_no_medium ((beforeCommit_fault ..).trans hf) hw ht hlt hm)
    rw [exec_eq_externalOp hx hwf, externalOp_of_sync_violation hf hle (by rw [hsync]; exact Option.some_ne_none _), hsync]

end Sys2Proof.Machine
end

section
/-! SUPPORT. The engine-control micro-operations (spec/44_engine_control.md R135, R136, R139, R140, R142): the passes of `RUN` that
end and those that go on, what `RUN` and `FIRE` write, and `START`, `STOP` and the wake-up time. -/

namespace Sys2Proof.Machine

/-! ## `FIRE` -/

/-- R140: delivery at a boundary. -/
theorem fireSyncpoint_of_time {s : State} {t : Nat} (ht : s.cur.time = some t) :
    fireSyncpoint s = { s with
      events := s.events ++ fireEvents t s.cur
      cur := { s.cur with changed := .clear, state := .running } } := by
  simp only [fireSyncpoint, ht]

/-- R140: `FIRE` within its precondition. -/
theorem exec_fire_of_syncpoint {s : State} {t : Nat} (hf : s.fault = none) (hs : s.cur.state = .runningSyncpoint)
    (ht : s.cur.time = some t) : exec .fire s = .next (fireSyncpoint s) :=
  guardedOp_inside hf (fireReady_iff.mpr ⟨hs, ht ▸ Option.some_ne_none t⟩)

/-- Settles O13: `FIRE` is one delivery. -/
theorem fireDeliversThePendingEvents : Obligations.FireDeliversThePendingEvents := by
  intro s t hf hs ht
  rw [exec_fire_of_syncpoint hf hs ht, fireSyncpoint_of_time ht]
  rfl

/-! ## The passes of `RUN` -/

/-- R216: without a violation `RUN` is its loop. -/
theorem exec_run_of_none {s : State} (hf : s.fault = none) :
    exec .run s = .next (runEngine Config.machine s.limit s.lastNow s) :=
  microOp_of_none hf

/-- R139: a pending syncpoint with nothing deferred is delivered. -/
theorem settlePass_syncpoint {now : Nat} {s : State} (hs : s.cur.state = .runningSyncpoint) (hn : s.cur.nextState = none) :
    settlePass now s = some (fireSyncpoint s) := by
  simp [settlePass, hs, hn]

/-- R139: a due return to `Running` is taken. -/
theorem settlePass_return {now : Nat} {s : State} (hs : s.cur.state ≠ .idle) (hn : s.cur.nextState = some .running)
    (ht : timeAtOrBefore s.cur.time now = true) : settlePass now s = some (promote .running s) := by
  simp [settlePass, hs, hn, ht]

/-- R139: a pass that returns ends the loop where it began. -/
theorem runEngine_of_return {c : Config} {limit now : Nat} {s : State} (hp : settlePass now s = none) :
    runEngine c limit now s = s := by
  rw [runEngine_eq, hp]

/-- R139: a pending cell that has ended is processed, and the loop goes on. -/
theorem runEngine_of_cell {c : Config} {limit now t : Nat} {s : State} (hs : s.cur.state = .running)
    (hn : s.cur.nextState = none) (ht : s.cur.time = some t) (hle : t + c.period ≤ limit) :
    runEngine c limit now s = runEngine c limit now (stepCell c s) := by
  rw [runEngine_eq, settlePass_quiet hs hn]
  exact if_pos (cellEnded_iff.mpr ⟨t, ht, hle⟩)

/-- R139: `RUN` goes on from `u`, which has the same limit, `last_now` and violation. -/
theorem exec_run_congr {s u : State} (hf : s.fault = none) (hu : sameBesideCell s u)
    (h : runEngine Config.machine s.limit s.lastNow s = runEngine Config.machine s.limit s.lastNow u) :
    exec .run s = exec .run u := by
  rw [exec_run_of_none hf, exec_run_of_none (hu.same_fault.trans hf), h, hu.same_limit, hu.same_lastNow]

/-- R139: `RUN` goes on from what the first half of a pass leaves, with the engine running and nothing deferred. -/
theorem exec_run_of_pass {s u : State} (hf : s.fault = none) (hp : settlePass s.lastNow s = some u)
    (hs : u.cur.state = .running) (hn : u.cur.nextState = none) : exec .run s = exec .run u :=
  exec_run_congr hf (settlePass_frame hp) (runEngine_of_pass hp hs hn)

/-- R139: `RUN` that returns in its first pass. -/
theorem exec_run_of_return {s : State} (hf : s.fault = none) (hp : settlePass s.lastNow s = none) :
    exec .run s = .next s := by
  rw [exec_run_of_none hf, runEngine_of_return hp]

/-- Settles O14: one pass of the loop in each of its cases. -/
theorem runIsItsLoop : Obligations.RunIsItsLoop := by
  intro s hf
  refine ⟨?idle, ?notDue, ?syncpointDue, ?returnDue, ?atSyncpoint, ?withinCell, ?cellEnded⟩
  case idle => exact fun hs => exec_run_of_return hf (settlePass_idle hs)
  case notDue =>
    intro t _ hn ht hlt
    refine exec_run_of_return hf (settlePass_not_due hn (Bool.eq_false_iff.mpr fun hdue => ?_))
    exact absurd (timeAtOrBefore_some hdue ht) (Nat.not_le.mpr hlt)
  case syncpointDue =>
    intro t hs hn ht hle
    have hp := settlePass_due hs hn (timeAtOrBefore_iff.mpr ⟨t, ht, hle⟩)
    exact ⟨_, exec_fire_of_syncpoint (s := promote .runningSyncpoint s) hf rfl ht, exec_run_of_pass hf hp rfl rfl⟩
  case returnDue =>
    intro t hs hn ht hle
    exact exec_run_of_pass hf (settlePass_return hs hn (timeAtOrBefore_iff.mpr ⟨t, ht, hle⟩)) rfl rfl
  case atSyncpoint =>
    intro t hs hn ht
    exact ⟨_, exec_fire_of_syncpoint hf hs ht, exec_run_of_pass hf (settlePass_syncpoint hs hn) rfl hn⟩
  case withinCell =>
    intro t hs hn ht hlt
    rw [exec_run_of_none hf, runEngine_within_cell hs hn ht hlt]
  case cellEnded =>
    intro t hs hn ht hle
    exact ⟨_, exec_step_of_running hf hs hn ht, exec_run_congr hf (stepCell_frame _ s) (runEngine_of_cell hs hn ht hle)⟩

/-! ## After `RUN` -/

theorem cellEnded_eq_false_iff {c : Config} {limit t : Nat} {x : LiveState} (ht : x.time = some t) :
    cellEnded c limit x = false ↔ limit < t + c.period := by
  simp [cellEnded, ht]

/-- Settles O15: the loop keeps the invariant and ends settled. -/
theorem runSettlesTheEngine : Obligations.RunSettlesTheEngine := by
  intro s hf hinv hlimit hle
  refine ⟨_, exec_run_of_none hf, runEngine_liveInv hinv, ?_⟩
  rw [hlimit]
  rcases settled_iff.mp (runEngine_settled hinv hle) with hidle | ⟨hs, hn, hc, hdue, hend⟩
  · exact .inl hidle
  · obtain ⟨t, ht, htle⟩ := timeAtOrBefore_iff.mp hdue
    exact .inr ⟨hs, hn, hc, t, ht, htle, (cellEnded_eq_false_iff ht).mp hend⟩

theorem fireSyncpoint_frame (s : State) : sameBesideCell s (fireSyncpoint s) := rfl

/-- R139, R140: what `RUN` and `FIRE` write: the live copy but for its latches and the interval's start, the cached edge, the
events. -/
structure RunWritesOnly (s u : State) : Prop where
  beside : sameBesideCell s u
  latches : sameLatchesAndStart s.cur u.cur

theorem RunWritesOnly.refl (s : State) : RunWritesOnly s s := ⟨rfl, rfl, rfl, rfl, rfl, rfl, rfl, rfl⟩

theorem exec_run_writesOnly {s u : State} (h : exec .run s = .next u) : RunWritesOnly s u :=
  microOp_keeps h (.refl s) fun _ => ⟨runEngine_frame .., runEngine_latches ..⟩

theorem exec_fire_writesOnly {s u : State} (h : exec .fire s = .next u) : RunWritesOnly s u :=
  guardedOp_keeps h (.refl s) fun _ _ => ⟨fireSyncpoint_frame s, rfl, rfl, rfl, rfl, rfl, rfl, rfl⟩

/-- Settles O16: the frame of the loop, and of one delivery. -/
theorem runAndFireFrame : Obligations.RunAndFireFrame := by
  intro s u h
  obtain ⟨hbeside, hlatches⟩ := h.elim exec_run_writesOnly exec_fire_writesOnly
  obtain ⟨-, -, -, -, -, -, hstart⟩ := id hlatches
  exact ⟨hbeside.same_chk, hbeside.same_drives, hbeside.same_stepperEnable, hbeside.same_spindleCtl, hbeside.same_lastNow,
    hbeside.same_fault, fun _ _ => by rw [hbeside.same_medium], hbeside.same_queue, hbeside.same_now, hbeside.same_limit,
    hbeside.same_index, hbeside.same_result, sameLatches_symm hlatches.latches, hstart.symm⟩

/-! ## `START`, `STOP` and the wake-up time -/

/-- R135: `START` within its precondition. -/
theorem exec_start_of_idle {s : State} (hf : s.fault = none) (hs : s.cur.state = .idle) :
    exec .start s = .next (startEngine Config.machine s.lastNow s) :=
  guardedOp_inside hf (startReady_iff.mpr hs)

/-- Settles O17: what `START` sets, and the codec pair of the result. -/
theorem startBeginsTheFirstCell : Obligations.StartBeginsTheFirstCell := fun _ hf hs =>
  ⟨_, _, exec_start_of_idle hf hs, rfl, rfl, rfl, rfl⟩

/-- R136: `STOP` within its precondition. -/
theorem exec_stop_of_settled {s : State} (hf : s.fault = none) (hinv : LiveInv Config.machine s.cur)
    (hs : s.cur.state = .running) (hsettled : settled Config.machine s.lastNow s.cur = true) :
    exec .stop s = .next (stopEngine s) :=
  guardedOp_inside hf (stopReady_iff.mpr ⟨hs, settled_defers_nothing hinv hsettled, hsettled⟩)

/-- R124: the write interval is empty or not open, or it can be committed. -/
theorem LiveInv.interval_cases {c : Config} {x : LiveState} (h : LiveInv c x) (hs : x.state ≠ .idle) :
    (x.writeStartTime = none ∨ x.writeStartTime = x.time) ∨
    ∃ w t, x.writeStartTime = some w ∧ x.time = some t ∧ w < t := by
  obtain ⟨t, ht⟩ := h.time_some hs
  cases hw : x.writeStartTime with
  | none => exact .inl (.inl rfl)
  | some w =>
    rcases (h.interval_ordered w t hw ht).eq_or_lt with heq | hlt
    · exact .inl (.inr (by rw [ht, heq]))
    · exact .inr ⟨w, t, rfl, ht, hlt⟩

/-- R136, R124: `STOP` with something to commit and a medium to commit it to. -/
theorem stopEngine_of_medium {s : State} {w t : Nat} (hf : s.fault = none) (hw : s.cur.writeStartTime = some w)
    (ht : s.cur.time = some t) (hlt : w < t) (hm : (s.drv s.cur.drive).medium = true) :
    stopEngine s = { s with
      cur := { s.cur with
        writeStartTime := none, writeBuffer := [], writePosition := 0, state := .idle, time := none, nextState := none }
      events := s.events ++ [.commit s.track w t s.cur.writeBuffer]
      medium := mediumReplace s.medium s.track w t s.cur.writeBuffer } := by
  rw [stopEngine, commitWrites_of_medium hf hw ht hlt hm]
  exact andThen_of_none _ hf

/-- R136: a halt with nothing queued. -/
theorem haltEngine_of_empty {s : State} (hb : s.cur.writeBuffer = []) (hp : s.cur.writePosition = 0) :
    haltEngine s = { s with
      cur := { s.cur with
        writeStartTime := none, writeBuffer := [], writePosition := 0, state := .idle, time := none, nextState := none } } := by
  rw [← hb, ← hp]
  rfl

/-- Settles O18: an interval that is empty or not open has nothing queued, and any other is committed. -/
theorem stopFlushesAndHalts : Obligations.StopFlushesAndHalts := by
  intro s hf hinv hs hsettled hcommit
  refine ⟨_, exec_stop_of_settled hf hinv hs hsettled, ?_⟩
  rcases hinv.interval_cases (by rw [hs]; decide) with hempty | ⟨w, t, hw, ht, hlt⟩
  · rw [stopEngine_of_empty hf hempty, haltEngine_of_empty (hinv.buffer_empty hempty) (hinv.position_zero hempty)]
    refine ⟨rfl, fun w t hw ht hlt => ?_, fun _ => ⟨rfl, rfl⟩⟩
    rw [hw, ht] at hempty
    simp [hlt.ne] at hempty
  · rw [stopEngine_of_medium hf hw ht hlt (hcommit w t hw ht hlt)]
    refine ⟨rfl, fun w' t' hw' ht' _ => ?_, fun hempty => ?_⟩
    · cases hw.symm.trans hw'
      cases ht.symm.trans ht'
      exact ⟨rfl, rfl⟩
    · rw [hw, ht] at hempty
      simp [hlt.ne] at hempty

/-- Settles O49: one case of `wake_at` in each clause. -/
theorem wakeUpTime : Obligations.WakeUpTime := by
  intro s
  refine ⟨fun hs => ?_, fun hs hn => ?_, fun t hs hn ht => ?_⟩
  · rw [State.wakeAt, if_pos hs]
  · rw [State.wakeAt, if_neg hs, if_neg hn]
  · rw [State.wakeAt, if_neg hs, if_pos hn, ht]
    rfl

end Sys2Proof.Machine
end

section
/-! SUPPORT. The engine between external operations (spec/44_engine_control.md R137, R138, R141): the whole operation in terms of its
body, what it leaves of the sequencing state, and the engine that follows the motors. -/

namespace Sys2Proof.Machine

/-! ## The sequencing state after an external operation -/

/-- R139: the first half of a pass leaves nothing deferred. -/
theorem settlePass_defers_nothing {now : Nat} {s s' : State} (h : settlePass now s = some s') : s'.cur.nextState = none := by
  rcases (settlePass_cases h).2 with ⟨hn, -, rfl⟩ | ⟨hn, -, rfl⟩ | ⟨-, -, rfl⟩ | ⟨_, -, -, -, rfl⟩
  · exact hn
  · exact hn
  · rfl
  · rfl

/-- R139: what `RUN` leaves deferred is not due. -/
theorem runEngine_deferred_not_due {c : Config} {limit now : Nat} {s : State} (h : LiveInv c s.cur)
    (hn : (runEngine c limit now s).cur.nextState ≠ none) :
    timeAtOrBefore (runEngine c limit now s).cur.time now = false := by
  rcases runEngine_ends c limit now s with hp | ⟨r, hp, -⟩
  · rcases settlePass_none hp with hidle | ⟨-, hdue⟩
    · exact absurd ((runEngine_liveInv h).idle_defers_nothing hidle) hn
    · exact hdue
  · exact absurd (settlePass_defers_nothing hp) hn

/-- R141, R185: after `RUN` the engine is `Idle`, runs with nothing deferred, or runs ahead to a syncpoint that is not due. -/
theorem runEngine_sequencing {c : Config} {limit now : Nat} {s : State} (h : LiveInv c s.cur) :
    (runEngine c limit now s).cur.state = .idle ∨
    ((runEngine c limit now s).cur.state = .running ∧ (runEngine c limit now s).cur.nextState = none) ∨
    ((runEngine c limit now s).cur.state = .running ∧ (runEngine c limit now s).cur.nextState = some .runningSyncpoint ∧
      ∃ u, (runEngine c limit now s).cur.time = some u ∧ now < u) := by
  have hinv := runEngine_liveInv (limit := limit) (now := now) h
  by_cases hidle : (runEngine c limit now s).cur.state = .idle
  · exact .inl hidle
  have hrunning := hinv.running_of_not_idle hidle
  rcases hinv.deferred_value with hn | hn
  · exact .inr (.inl ⟨hrunning, hn⟩)
  · obtain ⟨u, hu⟩ := hinv.time_some hidle
    have hdue := runEngine_deferred_not_due h (by rw [hn]; exact Option.some_ne_none _)
    refine .inr (.inr ⟨hrunning, hn, u, hu, Nat.lt_of_not_le fun hle => ?_⟩)
    exact Bool.false_ne_true (hdue.symm.trans (timeAtOrBefore_iff.mpr ⟨u, hu, hle⟩))

/-- R170: but for `SPEC` an external operation ends with its checkpoint. -/
theorem afterCheckpoint_of_not_spec {i : Instr} (hx : isExternal i = true) (hi : ∀ n, i ≠ .spec n) (s v : State) :
    afterCheckpoint i s v = checkpointed v (refreshLive Config.machine v.cur) := by
  cases i with
  | spec n => exact absurd rfl (hi n)
  | wrdata | drvsel | sidesel | wrgate | ergate | wrsync | stpen | stpph | motor | rddata | rdstat | timer => rfl
  | lookup | refresh | step | fire | run | start | stop | commit | checkpoint | rollback | sync | reset =>
    simp [isExternal, Instr.opClass] at hx

/-- R141, R156: what the checkpoint of an external operation holds. -/
theorem AfterBody.checkpoint_settled {s v : State} (a : AfterBody s v) :
    (refreshLive Config.machine v.cur).state ≠ .runningSyncpoint ∧
    settled Config.machine s.now (refreshLive Config.machine v.cur) = true ∧
    (refreshLive Config.machine v.cur).writeBuffer = [] :=
  ⟨a.live.not_at_syncpoint, a.is_settled, a.live.buffer_empty a.interval_empty⟩

/-- Settles O40: the checkpoint is the settled live copy, and only the run ahead of `SPEC` leaves anything deferred. -/
theorem engineBetweenOperations : Obligations.EngineBetweenOperations := by
  intro i s t h hx hw he
  obtain ⟨v, a, hv⟩ := h.proceeds.exec_external hx hw
  obtain ⟨hsync, hsettled, hbuffer⟩ := a.checkpoint_settled
  rw [hv] at he
  cases he
  by_cases hspec : ∃ n, i = .spec n
  · obtain ⟨n, rfl⟩ := hspec
    have hfault : (afterCheckpoint (.spec n) s v).fault = none := (runEngine_fault ..).trans a.no_violation
    have hlast : (afterCheckpoint (.spec n) s v).lastNow = s.now := (runEngine_lastNow ..).trans a.same_lastNow
    have hchk : (afterCheckpoint (.spec n) s v).chk = refreshLive Config.machine v.cur := runEngine_chk ..
    rw [hchk]
    refine ⟨hfault, hlast, hsync, hsettled, fun hn => absurd rfl (hn n), ?_⟩
    rw [← a.same_now]
    rcases runEngine_sequencing (s := checkpointed v (refreshLive Config.machine v.cur)) a.live with hs | hs | hs
    · exact .inl hs
    · exact .inr (.inl hs)
    · exact .inr (.inr ⟨⟨n, rfl⟩, hs⟩)
  · rw [afterCheckpoint_of_not_spec hx (not_exists.mp hspec)]
    refine ⟨a.no_violation, a.same_lastNow, hsync, hsettled, fun _ => ⟨rfl, hbuffer⟩, ?_⟩
    rcases settled_iff.mp hsettled with hidle | ⟨hs, hn, -⟩
    · exact .inl hidle
    · exact .inr (.inl ⟨hs, hn⟩)

/-! ## The body of an external operation -/

/-- R170: the state between the body of an external operation and its checkpoint: no violation, settled, nothing to commit. -/
structure BodySettles (s v : State) : Prop where
  no_violation : v.fault = none
  is_settled : settled Config.machine s.now v.cur = true
  time_never_iff_idle : v.cur.time = none ↔ v.cur.state = .idle
  interval_empty : v.cur.writeStartTime = none ∨ v.cur.writeStartTime = v.cur.time

theorem AfterBody.bodySettles {s v : State} (a : AfterBody s v) : BodySettles s v :=
  ⟨a.no_violation, a.is_settled, a.live.time_never_iff_idle, a.interval_empty⟩

/-- R176: the interval that `WRGATE` leaves is empty or not open, where the one it finds is. -/
theorem gateInterval_empty {x : LiveState} (h : x.writeStartTime = none ∨ x.writeStartTime = x.time) (g : Bool) :
    gateInterval g x = none ∨ gateInterval g x = x.time := by
  unfold gateInterval
  split
  · exact .inl rfl
  · split
    · exact .inr rfl
    · exact h

/-- R173 to R183: of the bodies `MOTOR`'s writes the sequencing state, `WRGATE`'s the interval, the others neither. -/
theorem Proceeds.externalBody_settles {s : State} (h : Proceeds s) (i : Instr) : BodySettles s (externalBody i (synced s)) := by
  have hsync := h.after_nothing.bodySettles
  cases i with
  | motor d cmd =>
    cases hk : spindleCommand cmd with
    | some k => rw [externalBody_motor hk]; exact (motorBody_after h d k).bodySettles
    | none => rw [externalBody_motor_of_no_command hk]; exact hsync
  | wrgate g =>
    obtain ⟨hf, hs, ht, hw⟩ := hsync
    exact ⟨hf, hs, ht, gateInterval_empty hw g⟩
  | wrdata | drvsel | sidesel | ergate | wrsync | stpen | stpph | rddata | rdstat | timer | spec | lookup | refresh | step | fire
  | run | start | stop | commit | checkpoint | rollback | sync | reset =>
    obtain ⟨hf, hs, ht, hw⟩ := hsync
    exact ⟨hf, hs, ht, hw⟩

/-- R170: an external operation past its `SYNC` is its body, the refreshed checkpoint, and its tail. -/
theorem Proceeds.exec_eq {s : State} (h : Proceeds s) {i : Instr} (hx : isExternal i = true) (hw : i.wellFormed = true) :
    exec i s = .next (externalTail i (checkpointed (externalBody i (synced s))
      (refreshLive Config.machine (externalBody i (synced s)).cur))) := by
  obtain ⟨hf, hs, ht, hempty⟩ := h.externalBody_settles i
  rw [exec_eq_externalOp hx hw, h.externalOp rfl hf hs ht hempty]

/-! ## The engine follows the motors -/

/-- R137: the live copy runs exactly when a motor is on. -/
def liveFollowsMotors (s : State) : Prop := s.cur.state = .idle ↔ anyMotor s = false

theorem anyMotor_congr {s t : State} (h : ∀ d, (t.drv d).motorEnabled = (s.drv d).motorEnabled) : anyMotor t = anyMotor s := by
  rw [anyMotor, h, h, anyMotor]

theorem anyMotor_of_drives {s t : State} (h : t.drives = s.drives) : anyMotor t = anyMotor s :=
  anyMotor_congr fun d => by rw [drv_congr h]

/-- R139: the loop changes neither the motors nor whether the engine runs. -/
theorem runEngine_followsMotors {c : Config} {limit now : Nat} {s : State} (h : LiveInv c s.cur)
    (hm : liveFollowsMotors s) : liveFollowsMotors (runEngine c limit now s) := by
  rw [liveFollowsMotors, runEngine_idle_iff h, anyMotor_of_drives (runEngine_drives ..)]
  exact hm

/-- R157: a rollback goes to a checkpoint that follows the motors too. -/
theorem discardSpeculation_followsMotors {now : Nat} {s : State} (h : engineFollowsMotors s) :
    liveFollowsMotors (discardSpeculation now s) := by
  obtain ⟨hcur, hchk⟩ := h
  rcases discardSpeculation_cases now s with ⟨-, e⟩ | ⟨-, e⟩ <;> rw [e]
  · exact hcur
  · rw [liveFollowsMotors, rollbackEngine_cur, anyMotor_of_drives (rollbackEngine_drives s)]
    split
    · exact hcur
    · exact hchk

/-- R158: `SYNC` neither starts nor stops the engine. -/
theorem syncEngine_followsMotors {c : Config} {now : Nat} {s : State} (h : Syncable c now s) (hm : engineFollowsMotors s) :
    liveFollowsMotors (syncEngine c now s) := by
  unfold syncEngine
  split
  · exact hm.1
  · obtain ⟨hlive, -⟩ := discardSpeculation_spec h
    have hrun := runEngine_followsMotors (limit := now) (now := now) hlive (discardSpeculation_followsMotors hm)
    rw [liveFollowsMotors, commitWrites_state, anyMotor_of_drives (commitWrites_drives _)]
    exact hrun

/-- R137: the engine is started or stopped as the motors say. -/
theorem followMotors_followsMotors {c : Config} {now : Nat} {s : State} (hf : s.fault = none)
    (hw : s.cur.writeStartTime = none ∨ s.cur.writeStartTime = s.cur.time) :
    liveFollowsMotors (followMotors c now s) := by
  have hmotor : anyMotor (followMotors c now s) = anyMotor s := anyMotor_of_drives (followMotors_registers c now s).drives
  rw [liveFollowsMotors, hmotor]
  unfold followMotors
  split
  · rename_i hstart
    have hon : anyMotor s = true := (Bool.and_eq_true_iff.mp hstart).1
    simp [hon, startEngine, refreshLive]
  · rename_i hstart
    split
    · rename_i hstop
      have hoff : anyMotor s = false := by simpa using (Bool.and_eq_true_iff.mp hstop).1
      simp [stopEngine_of_empty hf hw, hoff, haltEngine]
    · rename_i hstop
      cases hm : anyMotor s with
      | true => simpa [hm] using hstart
      | false => simpa [hm] using hstop

/-- R181: only `MOTOR` writes a motor, and it starts or stops the engine with it. -/
theorem Proceeds.externalBody_followsMotors {s : State} (h : Proceeds s) (hm : liveFollowsMotors (synced s)) (i : Instr) :
    liveFollowsMotors (externalBody i (synced s)) := by
  have hquiet : (∀ d k, i ≠ .motor d k) → (externalBody i (synced s)).cur.state = (synced s).cur.state →
      liveFollowsMotors (externalBody i (synced s)) := by
    intro hi hs
    rw [liveFollowsMotors, hs, anyMotor_congr fun d => ((externalBody_ownWritesOnly i (synced s)).drives d).motor (hi d)]
    exact hm
  cases i with
  | motor d cmd =>
    cases hk : spindleCommand cmd with
    | some k =>
      have hsync := h.synced_spec
      rw [externalBody_motor hk]
      exact followMotors_followsMotors hsync.no_violation hsync.interval_empty
    | none => rw [externalBody_motor_of_no_command hk]; exact hm
  | wrdata | drvsel | sidesel | wrgate | ergate | wrsync | stpen | stpph | rddata | rdstat | timer | spec | lookup | refresh | step
  | fire | run | start | stop | commit | checkpoint | rollback | sync | reset => exact hquiet (by simp) rfl

/-- R185: the run ahead of `SPEC` keeps the engine as the motors say. -/
theorem externalTail_followsMotors {i : Instr} {s : State} (h : (∃ n, i = .spec n) → LiveInv Config.machine s.cur)
    (hm : engineFollowsMotors s) : engineFollowsMotors (externalTail i s) := by
  unfold externalTail
  split
  · rename_i n
    refine ⟨runEngine_followsMotors (h ⟨n, rfl⟩) hm.1, ?_⟩
    rw [specTail, runEngine_chk, anyMotor_of_drives (runEngine_drives ..)]
    exact hm.2
  · exact hm

/-- Settles O42: `SYNC` keeps the engine as the motors say, the body moves both together, and the checkpoint copies. -/
theorem engineRunsWhileAMotorIsOn : Obligations.EngineRunsWhileAMotorIsOn := by
  intro i s t h hm hx hw he
  have p := h.proceeds
  rw [p.exec_eq hx hw] at he
  cases he
  have hbody := p.externalBody_followsMotors (syncEngine_followsMotors p.syncable hm) i
  refine externalTail_followsMotors ?_ ⟨hbody, hbody⟩
  rintro ⟨n, rfl⟩
  exact p.after_nothing.live

/-! ## The engine in `Idle` -/

/-- R138: `SYNC` in `Idle`. -/
theorem syncEngine_of_idle {c : Config} {now : Nat} {s : State} (hs : s.cur.state = .idle) : syncEngine c now s = s :=
  if_pos hs

/-- R138, R156: `CHECKPOINT` in `Idle` has nothing to process and nothing to commit. -/
theorem checkpointEngine_of_idle {c : Config} {now : Nat} {s : State} (h : LiveInv c s.cur) (hf : s.fault = none)
    (hs : s.cur.state = .idle) : checkpointEngine c now s = copyToCheckpoint s :=
  checkpointEngine_of_settled (settled_iff.mpr (.inl hs)) hf (.inl (h.interval_open_iff_writing.mpr (.inr hs)))

/-- R138, R184: `TIMER` in `Idle`. -/
theorem exec_timer_of_idle {s : State} (h : Inv Config.machine s) (hf : s.fault = none) (hs : s.cur.state = .idle)
    (hle : s.lastNow ≤ s.now) : exec .timer s = .next (checkpointed { s with lastNow := s.now } s.cur) := by
  have hsync : synced s = { s with lastNow := s.now } := syncEngine_of_idle hs
  have p : Proceeds s := ⟨h, hf, hle, by rw [hsync]; exact hf⟩
  have heq : exec .timer s = .next (checkpointed (synced s) (refreshLive Config.machine (synced s).cur)) := p.exec_eq rfl rfl
  rw [heq, hsync, (h.controller hf).live.refresh_self]

/-- Settles O48: each of the five returns or copies in `Idle`. -/
theorem idleEngineIsLeftAlone : Obligations.IdleEngineIsLeftAlone := by
  intro s hinv hf hs
  have hlive := (hinv.controller hf).live
  have hcheckpoint : exec .checkpoint s = .next (checkpointEngine Config.machine s.lastNow s) :=
    guardedOp_inside hf (checkpointReady_iff.mpr (.inl hs))
  refine ⟨exec_run_of_return hf (settlePass_idle hs), ?_, ⟨_, hcheckpoint, ?_⟩, fun hle =>
    ⟨_, exec_timer_of_idle hinv hf hs hle, rfl⟩, _, microOp_of_none hf, rollbackEngine_cur_idle hs⟩
  · exact (microOp_of_none hf).trans (congrArg _ (syncEngine_of_idle hs))
  · rw [checkpointEngine_of_idle hlive hf hs, copyToCheckpoint_cur]

end Sys2Proof.Machine
end

section
/-! SUPPORT. `CHECKPOINT`, `ROLLBACK` and `SYNC` issued on their own (spec/45_checkpoint_rollback.md R156 to R158): each as its
own rule says it, what it leaves, and what it leaves unchanged. -/

namespace Sys2Proof.Machine

/-! ## `ROLLBACK` -/

/-- R24: the recomputed edge is the one that belongs to the live copy, and `never` in `Idle`. -/
theorem precomputeEdge_eq (s : State) :
    precomputeEdge s = { s with nextEdge := if s.cur.state = .idle then none else edgeFor s s.cur } := rfl

/-- R157: outside `Idle` the live copy becomes the checkpoint. -/
theorem rollbackEngine_of_running {s : State} (hs : s.cur.state ≠ .idle) :
    rollbackEngine s = precomputeEdge { s with cur := s.chk } := by
  rw [rollbackEngine, if_neg hs]

/-- R138: in `Idle` only the edge is recomputed. -/
theorem rollbackEngine_of_idle {s : State} (hs : s.cur.state = .idle) : rollbackEngine s = precomputeEdge s := by
  rw [rollbackEngine, if_pos hs]

theorem exec_rollback_of_none {s : State} (hf : s.fault = none) : exec .rollback s = .next (rollbackEngine s) :=
  microOp_of_none hf

/-- Settles O22: the copy back and the edge outside `Idle`, the edge alone in `Idle`. -/
theorem rollbackRestoresTheCheckpoint : Obligations.RollbackRestoresTheCheckpoint := by
  refine fun s hf => ⟨fun hs => ?_, fun hs => ?_⟩
  · rw [exec_rollback_of_none hf, rollbackEngine_of_running hs, precomputeEdge_eq]
    rfl
  · rw [exec_rollback_of_none hf, rollbackEngine_of_idle hs, precomputeEdge_eq, if_pos hs]

/-! ## `SYNC` -/

theorem exec_sync_of_none {s : State} (hf : s.fault = none) :
    exec .sync s = .next (syncEngine Config.machine s.lastNow s) :=
  microOp_of_none hf

/-- R158: a live copy ahead of real time is discarded. -/
theorem discardSpeculation_of_ahead {now t : Nat} {s : State} (ht : s.cur.time = some t) (hlt : now < t) :
    discardSpeculation now s = rollbackEngine s := by
  rw [discardSpeculation, ht]
  exact if_pos (decide_eq_true hlt)

/-- R158: any other live copy is kept. -/
theorem discardSpeculation_of_not_ahead {now : Nat} {s : State} (h : ∀ t, s.cur.time = some t → t ≤ now) :
    discardSpeculation now s = s := by
  cases ht : s.cur.time with
  | none => rw [discardSpeculation, ht]; exact if_neg Bool.false_ne_true
  | some t => rw [discardSpeculation, ht]; exact if_neg (by simpa [timeAfter] using h t ht)

/-- R158: outside `Idle` `SYNC` discards, runs and commits. -/
theorem syncEngine_of_running {c : Config} {now : Nat} {s : State} (hs : s.cur.state ≠ .idle) :
    syncEngine c now s = commitWrites (runEngine c now now (discardSpeculation now s)) :=
  if_neg hs

/-- R158: `SYNC` with the live copy ahead of real time is `SYNC` from the restored checkpoint. -/
theorem syncEngine_of_ahead {c : Config} {now t : Nat} {s : State} (hs : s.cur.state ≠ .idle) (ht : s.cur.time = some t)
    (hlt : now < t) (hle : ∀ n, s.chk.time = some n → n ≤ now) (hchk : LiveInv c s.chk) :
    syncEngine c now s = syncEngine c now (rollbackEngine s) := by
  have hcur : (rollbackEngine s).cur = s.chk := rollbackEngine_cur_running hs
  rw [syncEngine_of_running hs, discardSpeculation_of_ahead ht hlt]
  by_cases hidle : s.chk.state = .idle
  · have hnothing : (rollbackEngine s).cur.writeStartTime = none := by
      rw [hcur]
      exact hchk.interval_open_iff_writing.mpr (.inr hidle)
    rw [runEngine_idle (hcur ▸ hidle), commitWrites_nothing (.inl hnothing), syncEngine_of_idle (hcur ▸ hidle)]
  · rw [syncEngine_of_running (hcur ▸ hidle), discardSpeculation_of_not_ahead (hcur ▸ hle)]

/-- Settles O24: a live copy ahead of real time is rolled back first, any other is run and committed. -/
theorem syncRollsBackOnlySpeculation : Obligations.SyncRollsBackOnlySpeculation := by
  refine fun s t hf hs ht => ⟨fun hlt hle hchk => ⟨_, exec_rollback_of_none hf, ?_⟩,
    fun hle hlimit => ⟨_, exec_run_of_none hf, ?_⟩⟩
  · rw [exec_sync_of_none hf, syncEngine_of_ahead hs ht hlt hle hchk]
    exact (exec_sync_of_none (s := rollbackEngine s) hf).symm
  · have hkeep : discardSpeculation s.lastNow s = s :=
      discardSpeculation_of_not_ahead fun u hu => by cases ht.symm.trans hu; exact hle
    rw [exec_sync_of_none hf, syncEngine_of_running hs, hkeep, hlimit, exec_commit_of_none ((runEngine_fault ..).trans hf)]

/-- R23, R170: the controller between operations, as `SYNC` at `last_now` needs it. -/
theorem Inv.syncable {s : State} (h : Inv Config.machine s) (hf : s.fault = none) : Syncable Config.machine s.lastNow s :=
  (h.controller hf).syncable le_rfl

/-- Settles O23: `SYNC` ends settled, and its commit leaves nothing queued. -/
theorem syncLandsAtRealTime : Obligations.SyncLandsAtRealTime := by
  intro s hinv hf hcommit
  obtain ⟨hlive, hsettled, -, hclosed⟩ := syncEngine_spec (hinv.syncable hf) hf
  have hno : (syncEngine Config.machine s.lastNow s).fault = none := syncEngine_no_violation hf hcommit
  refine ⟨_, exec_sync_of_none hf, hno, ?_, hlive.buffer_empty (hclosed hno)⟩
  refine (settled_iff.mp hsettled).imp_right fun ⟨hs, hn, hchanged, hdue, hcell⟩ => ?_
  obtain ⟨t, ht, hle⟩ := timeAtOrBefore_iff.mp hdue
  exact ⟨hs, hn, hchanged, t, ht, hle, (cellEnded_eq_false_iff ht).mp hcell⟩

/-- Settles O25: the frame of the engine's `SYNC`, its latches, and the interval it commits. -/
theorem syncFrame : Obligations.SyncFrame := by
  intro s u hinv he
  have hr := exec_internal_registers hinv rfl he
  have hframe : sameBesideSync s u := microOp_keeps he rfl fun _ => syncEngine_frame ..
  refine ⟨hframe.same_chk, hframe.same_drives, hframe.same_stepperEnable, hframe.same_spindleCtl, hframe.same_lastNow,
    hframe.same_queue, hframe.same_now, hframe.same_limit, hframe.same_index, hframe.same_result, sameLatches_symm hr.latches,
    fun tr x hx => ?_⟩
  exact microOp_keeps (P := fun t => mediumHas t.medium tr x = mediumHas s.medium tr x) he rfl fun hf =>
    syncEngine_outside (hinv.syncable hf) tr x hx

/-! ## `CHECKPOINT` -/

/-- R43, R124: a commit stores only to its interval. -/
theorem commitWrites_outside {c : Config} {r : State} (h : LiveInv c r.cur) {tr : Track} {x : Nat}
    (hx : ¬ inCommitInterval r tr x) : mediumHas (commitWrites r).medium tr x = mediumHas r.medium tr x := by
  rcases commitWrites_cases r with ⟨e, -⟩ | ⟨w, t, hw, ht, -, ⟨-, -, e⟩ | ⟨-, -, e⟩ | ⟨-, e⟩⟩ <;> rw [e]
  have hbuffer : ∀ u ∈ r.cur.writeBuffer, w ≤ u ∧ u < t := by
    intro u hu
    obtain ⟨w', t', hw', ht', h1, h2⟩ := h.buffer_in_interval u hu
    cases hw.symm.trans hw'
    cases ht.symm.trans ht'
    exact ⟨h1, h2⟩
  have houtside := mediumHas_replace_outside (m := r.medium) hbuffer (mt (inCommitInterval_iff hw ht tr x).mpr hx)
  exact andThen_keeps (P := fun v => mediumHas v.medium tr x = mediumHas r.medium tr x) houtside fun _ => houtside

/-- R156: `CHECKPOINT` of a live copy that is not ahead of real time. -/
theorem exec_checkpoint_of_not_ahead {s : State} (hf : s.fault = none) (h : LiveInv Config.machine s.cur)
    (hle : ∀ t, s.cur.time = some t → t ≤ s.lastNow) :
    exec .checkpoint s = .next (checkpointEngine Config.machine s.lastNow s) := by
  refine guardedOp_inside hf (checkpointReady_iff.mpr ?_)
  by_cases hs : s.cur.state = .idle
  · exact .inl hs
  · obtain ⟨t, ht⟩ := h.time_some hs
    exact .inr ⟨t, ht, hle t ht⟩

/-- R156: a second `CHECKPOINT` finds nothing to run, to commit or to copy. -/
theorem exec_checkpoint_of_checkpointed {s : State} {x : LiveState} (hf : s.fault = none) (h : LiveInv Config.machine x)
    (hs : settled Config.machine s.lastNow x = true) (hw : x.writeStartTime = none ∨ x.writeStartTime = x.time) :
    exec .checkpoint (checkpointed s x) = .next (checkpointed s x) := by
  have hexec := exec_checkpoint_of_not_ahead (s := checkpointed s x) hf h (settled_time_le h.time_never_iff_idle hs)
  have hcopy : checkpointEngine Config.machine s.lastNow (checkpointed s x) = copyToCheckpoint (checkpointed s x) :=
    checkpointEngine_of_settled hs hf hw
  exact hexec.trans (congrArg _ (hcopy.trans (copyToCheckpoint_eq h.time_never_iff_idle)))

/-- R156, R43: `CHECKPOINT` takes no violation when its commit can be made. -/
theorem checkpointEngine_no_violation {c : Config} {now : Nat} {s : State} (hf : s.fault = none)
    (hc : canCommit (runEngine c now now s)) : (checkpointEngine c now s).fault = none := by
  have hcommit : (commitWrites (runEngine c now now s)).fault = none :=
    (commitWrites_fault hc).trans ((runEngine_fault ..).trans hf)
  exact andThen_keeps (P := fun v => v.fault = none) hcommit fun _ => hcommit

/-- R156: the two operations that `CHECKPOINT` begins with, issued one after the other. -/
theorem exec_run_exec_commit {s : State} (hf : s.fault = none) : ∃ r, exec .run { s with limit := s.lastNow } = .next r ∧
    exec .commit r = .next
      { commitWrites (runEngine Config.machine s.lastNow s.lastNow s) with limit := s.lastNow } := by
  have hrun : (runEngine Config.machine s.lastNow s.lastNow s).fault = none := (runEngine_fault ..).trans hf
  exact ⟨_, (exec_run_of_none (s := { s with limit := s.lastNow }) hf).trans (congrArg _ (runEngine_setLimit ..)),
    (exec_commit_of_none (s := { runEngine Config.machine s.lastNow s.lastNow s with limit := s.lastNow }) hrun).trans
      (congrArg _ (commitWrites_setLimit ..))⟩

/-- Settles O21: the checkpoint of `CHECKPOINT`, taken apart into its `RUN`, its `COMMIT` and its copy. -/
theorem checkpointCopiesTheSettledState : Obligations.CheckpointCopiesTheSettledState := by
  intro s hf hlive hle hcommit
  obtain ⟨v, hv, heq, hfault, hinv, hsettled, hlatches, hclosed⟩ :=
    checkpointEngine_spec hlive hle hf (checkpointEngine_no_violation hf hcommit)
  obtain ⟨r, hrun, hrunCommit⟩ := exec_run_exec_commit hf
  rw [← hv] at hrunCommit
  have hcheckpoint := heq ▸ exec_checkpoint_of_not_ahead hf hlive hle
  have hframe : sameBesideSync s v := by
    rw [hv]
    exact sameBesideSync_trans (runEngine_frame ..).toSync (commitWrites_sameBesideSync _)
  have hmedium : ∀ tr x, ¬ inCommitInterval (runEngine Config.machine s.lastNow s.lastNow s) tr x →
      mediumHas v.medium tr x = mediumHas s.medium tr x := by
    intro tr x hx
    rw [hv, commitWrites_outside (runEngine_liveInv hlive) hx, runEngine_medium]
  have hagain := exec_checkpoint_of_checkpointed hfault hinv (hframe.same_lastNow ▸ hsettled) hclosed
  refine ⟨_, r, _, hcheckpoint, hrun, hrunCommit, ?_, hfault, rfl, hsettled, rfl, hinv.buffer_empty hclosed,
    sameLatches_symm hlatches, hframe.same_drives, hmedium, hframe.same_stepperEnable, hframe.same_spindleCtl,
    hframe.same_lastNow, hframe.same_queue, hframe.same_now, hframe.same_limit, hframe.same_index, hframe.same_result, hagain⟩
  rw [← hframe.same_limit]
  rfl

end Sys2Proof.Machine
end

section
/-! SUPPORT. Speculation (spec/45_checkpoint_rollback.md R159, R160): running ahead of a checkpoint and then a `SYNC` come to that
`SYNC` alone. -/

namespace Sys2Proof.Machine

/-! ## `SYNC` after running ahead -/

/-- R157, R156: a rollback from any state that differs from a checkpoint by cells alone restores the state at that checkpoint. -/
theorem rollbackEngine_of_checkpointed {s r : State} {x : LiveState} (h : sameBesideCell (checkpointed s x) r)
    (he : r.events = s.events) (hr : r.cur.state ≠ .idle) (hx : x.time = none ↔ x.state = .idle) :
    rollbackEngine r = checkpointed s x := by
  have hchk : r.chk = x := h.same_chk
  have hcopy : { r with cur := r.chk } = { checkpointed s x with nextEdge := r.nextEdge } := by
    rw [← h]
    simp only [hchk, checkpointed, he]
  rw [rollbackEngine_of_running hr, hcopy]
  exact copyToCheckpoint_eq (s := checkpointed s x) hx

/-- R158, R160: `SYNC` after running ahead of a settled checkpoint is `SYNC` from that checkpoint: the cells ahead of `later` are
discarded, and those that have ended by `later` are the ones it would process. -/
theorem syncEngine_of_runAhead {c : Config} {limit now later : Nat} {s : State} {x : LiveState} (h : LiveInv c x)
    (hsettled : settled c now x = true) (hle : now ≤ later) :
    syncEngine c later (runEngine c limit now (checkpointed s x)) = syncEngine c later (checkpointed s x) := by
  rcases settled_iff.mp hsettled with hidle | ⟨hs, hn, -, hdue, hcell⟩
  · rw [runEngine_idle (s := checkpointed s x) hidle]
  obtain ⟨t, ht, htle⟩ := timeAtOrBefore_iff.mp hdue
  have hnot : (checkpointed s x).cur.state ≠ .idle := h.not_idle_of_time ht
  obtain ⟨k, hrun, -, htime, hcells, hstate, -⟩ := runEngine_ahead (limit := limit) (now := now) _ (checkpointed s x) rfl h
    hs hn t ht ((cellEnded_eq_false_iff ht).mp hcell)
  have hnot' : (stepped c k (checkpointed s x)).cur.state ≠ .idle := by rw [hstate]; decide
  have hkeep : discardSpeculation later (checkpointed s x) = checkpointed s x :=
    discardSpeculation_of_not_ahead fun u hu => (settled_time_le h.time_never_iff_idle hsettled u hu).trans hle
  rw [hrun, syncEngine_of_running hnot', syncEngine_of_running hnot, hkeep]
  by_cases hended : t + k * c.period ≤ later
  · have hkeep' : discardSpeculation later (stepped c k (checkpointed s x)) = stepped c k (checkpointed s x) :=
      discardSpeculation_of_not_ahead fun u hu => by cases htime.symm.trans hu; exact hended
    rw [hkeep', runEngine_through k (checkpointed s x) t hcells hended]
  · obtain ⟨hframe, hevents, -⟩ := stepped_frame (c := c) k (checkpointed s x)
    rw [discardSpeculation_of_ahead htime (Nat.lt_of_not_le hended),
      rollbackEngine_of_checkpointed hframe hevents hnot' h.time_never_iff_idle]

/-! ## The next operation after running ahead -/

/-- R139: the loop reads neither the `now` port nor `last_now`. -/
theorem runEngine_setTimes {c : Config} {limit now : Nat} (n m : Nat) (s : State) :
    runEngine c limit now { s with now := n, lastNow := m } = { runEngine c limit now s with now := n, lastNow := m } :=
  runEngine_commutes (fun s => { s with now := n, lastNow := m }) (fun _ => rfl) (fun _ _ => rfl) (fun _ => rfl)
    (fun s => by unfold stepCell; cases s.cur.time <;> rfl) s

/-- R160: what the wrapper of a later operation finds after running ahead is what it finds without. -/
theorem synced_of_runAhead {limit now later : Nat} {s : State} {x : LiveState} (h : LiveInv Config.machine x)
    (hsettled : settled Config.machine now x = true) (hle : now ≤ later) :
    synced { runEngine Config.machine limit now (checkpointed s x) with now := later } =
      synced { checkpointed s x with now := later } := by
  have hrun : { runEngine Config.machine limit now (checkpointed s x) with now := later, lastNow := later } =
      runEngine Config.machine limit now (checkpointed { s with now := later, lastNow := later } x) :=
    (runEngine_setTimes later later (checkpointed s x)).symm
  have hsync := syncEngine_of_runAhead (limit := limit) (s := { s with now := later, lastNow := later }) h hsettled hle
  rw [← hrun] at hsync
  exact hsync

/-- R170: an external operation at a time not earlier than `last_now` depends on the state through its `SYNC` and the time. -/
theorem externalOp_congr {c : Config} {body tail : State → State} {s t : State} (hs : s.fault = none) (ht : t.fault = none)
    (hsle : s.lastNow ≤ s.now) (htle : t.lastNow ≤ t.now) (hnow : s.now = t.now)
    (hsync : syncEngine c s.now { s with lastNow := s.now } = syncEngine c t.now { t with lastNow := t.now }) :
    externalOp c body tail s = externalOp c body tail t := by
  rw [externalOp_eq hs hsle, externalOp_eq ht htle, hsync, hnow]

/-- R240, R241: `RESET` at any time overwrites everything that cells and deliveries write. -/
theorem exec_reset_of_sameBesideCell {s t : State} (h : sameBesideCell s t) (later : Nat) :
    exec .reset { t with now := later } = exec .reset { s with now := later } := by
  rw [← h]
  rfl

/-- Settles O39: `RESET` overwrites what running ahead wrote, and any other operation begins with a `SYNC` that undoes it. -/
theorem speculationIsUnobservable : Obligations.SpeculationIsUnobservable := by
  intro n i s a b later hready hspec htimer hle hi hw
  have k := hready.proceeds.after_nothing
  have hb : exec .timer s = .next (checkpointed (synced s) (refreshLive Config.machine (synced s).cur)) :=
    hready.proceeds.exec_eq rfl rfl
  have ha : exec (.spec n) s = .next
      (specTail Config.machine n (checkpointed (synced s) (refreshLive Config.machine (synced s).cur))) :=
    hready.proceeds.exec_eq rfl rfl
  cases htimer.symm.trans hb
  cases hspec.symm.trans ha
  rcases hi with hx | rfl
  · rw [exec_eq_externalOp hx hw, exec_eq_externalOp hx hw]
    have hlast : (synced s).lastNow ≤ later := k.same_lastNow.le.trans hle
    have hnow : (synced s).now = s.now := k.same_now
    exact congrArg _ (externalOp_congr ((runEngine_fault ..).trans k.no_violation) k.no_violation
      ((runEngine_lastNow ..).le.trans hlast) hlast rfl
      (synced_of_runAhead k.live (hnow.symm ▸ k.is_settled) (hnow.le.trans hle)))
  · exact exec_reset_of_sameBesideCell (runEngine_frame ..) later

end Sys2Proof.Machine
end

section
/-! SUPPORT. The violation `MutateWithoutSync` (spec/45_checkpoint_rollback.md R162, spec/60_exceptions.md R215): no shared operation
takes it, and so no step does. -/

namespace Sys2Proof.Machine

/-! ## The shared operations -/

/-- R162: no `MutateWithoutSync` is recorded. -/
def NoMutation (s : State) : Prop := s.fault ≠ some .mutateWithoutSync

theorem NoMutation.of_same_fault {s t : State} (h : NoMutation s) (hf : t.fault = s.fault) : NoMutation t :=
  fun ht => h (hf.symm.trans ht)

theorem raise_noMutation {v : Violation} {s : State} (h : NoMutation s) (hv : v ≠ .mutateWithoutSync) :
    NoMutation (raise v s) := by
  by_cases hf : s.fault = none
  · rw [NoMutation, raise_fault_of_none v hf]
    exact fun he => hv (Option.some.inj he)
  · rw [raise_of_fault v hf]
    exact h

/-- R43: the one violation that the shared operations take is `CommitNoMedium`. -/
theorem commitWrites_noMutation {s : State} (h : NoMutation s) : NoMutation (commitWrites s) := by
  rcases commitWrites_cases s with ⟨e, -⟩ | ⟨w, t, -, -, -, ⟨-, -, e⟩ | ⟨-, -, e⟩ | ⟨-, e⟩⟩ <;> rw [e]
  · exact h
  · exact nofun
  · exact h
  · exact andThen_keeps (P := NoMutation) h fun _ => h

theorem runEngine_noMutation {c : Config} {limit now : Nat} {s : State} (h : NoMutation s) :
    NoMutation (runEngine c limit now s) :=
  h.of_same_fault (runEngine_fault ..)

theorem syncEngine_noMutation {now : Nat} {s : State} (h : NoMutation s) :
    NoMutation (syncEngine Config.machine now s) := by
  by_cases hs : s.cur.state = .idle
  · rw [syncEngine_of_idle hs]
    exact h
  · rw [syncEngine_of_running hs]
    exact commitWrites_noMutation (h.of_same_fault (beforeCommit_fault now s))

theorem checkpointEngine_noMutation {c : Config} {now : Nat} {s : State} (h : NoMutation s) :
    NoMutation (checkpointEngine c now s) := by
  have hcommit := commitWrites_noMutation (runEngine_noMutation (c := c) (limit := now) (now := now) h)
  exact andThen_keeps hcommit fun _ => hcommit

theorem stopEngine_noMutation {s : State} (h : NoMutation s) : NoMutation (stopEngine s) :=
  andThen_keeps (commitWrites_noMutation h) fun _ => commitWrites_noMutation h

theorem followMotors_noMutation {c : Config} {now : Nat} {s : State} (h : NoMutation s) :
    NoMutation (followMotors c now s) := by
  unfold followMotors
  split
  · exact h
  · split
    · exact stopEngine_noMutation h
    · exact h

/-- R173 to R183: of the bodies only `MOTOR`'s can take a violation, through `STOP` (R136). -/
theorem externalBody_noMutation {i : Instr} {s : State} (h : NoMutation s) : NoMutation (externalBody i s) := by
  cases i with
  | motor d cmd =>
    cases hk : spindleCommand cmd with
    | some k => rw [externalBody_motor hk]; exact followMotors_noMutation (s := spindleBody d k s) h
    | none => rw [externalBody_motor_of_no_command hk]; exact h
  | wrdata | drvsel | sidesel | wrgate | ergate | wrsync | stpen | stpph | rddata | rdstat | timer | spec | lookup | refresh
  | step | fire | run | start | stop | commit | checkpoint | rollback | sync | reset => exact h

theorem externalTail_noMutation {i : Instr} {s : State} (h : NoMutation s) : NoMutation (externalTail i s) := by
  unfold externalTail
  split
  · exact runEngine_noMutation h
  · exact h

/-- R170: besides what its parts take, the wrapper takes `TimeRegression`. -/
theorem externalOp_noMutation {i : Instr} {s : State} (h : NoMutation s) :
    NoMutation (externalOp Config.machine (externalBody i) (externalTail i) s) := by
  have hsync : NoMutation (synced s) := syncEngine_noMutation (s := { s with lastNow := s.now }) h
  rcases externalOp_cases (externalBody i) (externalTail i) s with
    ⟨-, e⟩ | ⟨-, -, e⟩ | ⟨-, -, -, e⟩ | ⟨-, -, -, e⟩ <;> rw [e]
  · exact h
  · exact raise_noMutation h nofun
  · exact hsync
  · have hbody : NoMutation (externalBody i (synced s)) := externalBody_noMutation hsync
    have hrefresh : NoMutation ((externalBody i (synced s)).andThen (refreshCodec Config.machine)) :=
      andThen_keeps hbody fun _ => hbody
    have hcheckpoint := andThen_keeps hrefresh fun _ => checkpointEngine_noMutation (c := Config.machine) (now := s.now) hrefresh
    exact andThen_keeps hcheckpoint fun _ => externalTail_noMutation hcheckpoint

/-! ## Every operation -/

theorem exec_internal_noMutation {i : Instr} {s t : State} (hc : i.opClass = .internal) (h : NoMutation s)
    (he : exec i s = .next t) : NoMutation t := by
  cases i with
  | lookup | refresh | rollback => exact microOp_keeps he h fun _ => h
  | run => exact microOp_keeps he h fun _ => runEngine_noMutation h
  | commit => exact microOp_keeps he h fun _ => commitWrites_noMutation h
  | sync => exact microOp_keeps he h fun _ => syncEngine_noMutation h
  | step => exact guardedOp_keeps he h fun _ _ => h.of_same_fault (stepCell_fault ..)
  | fire | start => exact guardedOp_keeps he h fun _ _ => h
  | stop => exact guardedOp_keeps he h fun _ _ => stopEngine_noMutation h
  | checkpoint => exact guardedOp_keeps he h fun _ _ => checkpointEngine_noMutation h
  | wrdata | drvsel | sidesel | wrgate | ergate | wrsync | stpen | stpph | motor | rddata | rdstat | timer | spec | reset =>
    cases hc

/-- R70: only `MOTOR` has operands outside its format, those with command value 3. -/
theorem eq_motor_of_not_wellFormed {i : Instr} (hw : i.wellFormed = false) : ∃ d, i = .motor d 3#2 := by
  cases i with
  | motor d cmd => exact ⟨d, by simpa [Instr.wellFormed, motorCommandLegal] using hw⟩
  | _ => cases hw

/-- R70, R170: an external operation that is not well formed is `MOTOR` with no command, which takes `IllegalOp`. -/
theorem exec_external_noMutation {i : Instr} {s t : State} (hx : isExternal i = true) (h : NoMutation s)
    (he : exec i s = .next t) : NoMutation t := by
  cases hw : i.wellFormed with
  | true =>
    cases he.symm.trans (exec_eq_externalOp hx hw s)
    exact externalOp_noMutation h
  | false =>
    obtain ⟨d, rfl⟩ := eq_motor_of_not_wellFormed hw
    have hexec : exec (.motor d 3#2) s = .next (raise (.illegalOp (encode (.motor d 3#2))) s) :=
      congrArg Host.Outcome.next (motorOp_of_no_command rfl s)
    cases he.symm.trans hexec
    exact raise_noMutation h nofun

theorem exec_noMutation {i : Instr} {s t : State} (h : NoMutation s) (he : exec i s = .next t) : NoMutation t := by
  cases hc : i.opClass with
  | host | scheduler => exact exec_external_noMutation (by simp [isExternal, hc]) h he
  | internal => exact exec_internal_noMutation hc h he
  | resetSignal =>
    rw [eq_reset_of_class hc] at he
    cases he
    exact nofun

/-- Settles O30: the violations that are taken are `CommitNoMedium`, `IllegalOp` and `TimeRegression`. -/
theorem noStepRecordsMutateWithoutSync : Obligations.NoStepRecordsMutateWithoutSync := by
  intro s t h hstep
  unfold step at hstep
  split at hstep
  · cases hstep
    exact h
  · rename_i q rest _
    have hload : NoMutation (loadIssue q rest s) := h
    split at hstep
    · exact exec_noMutation hload hstep
    · cases hstep
      exact raise_noMutation hload nofun
    · cases hstep

end Sys2Proof.Machine
end

section
/-! SUPPORT. The host and scheduler operations one by one (spec/46_frontend_ops.md R173 to R185): each is its body in the wrapper, so
what is left to say of it is the live copy and the drive that the body writes, and for `SPEC` how far the loop runs ahead. -/

namespace Sys2Proof.Machine

/-! ## Latches -/

/-- Settles O31: each of the three bodies is the write of its latch. -/
theorem dataAndGateLatches : Obligations.DataAndGateLatches := fun _ h =>
  ⟨fun _ => h.proceeds.exec_eq rfl rfl, fun _ => h.proceeds.exec_eq rfl rfl, fun _ => h.proceeds.exec_eq rfl rfl⟩

/-- R176: the interval's start as a chain of the four cases. -/
theorem gateInterval_eq (g : Bool) (x : LiveState) : gateInterval g x =
    if x.writeGate = g then x.writeStartTime
    else if g = false then none
    else if x.state = .idle then x.writeStartTime else x.time := by
  unfold gateInterval
  cases x.writeGate <;> cases g <;> simp

/-- Settles O32: the interval that the body leaves, with the gate that `SYNC` keeps. -/
theorem writeGateOpensAndClosesTheInterval : Obligations.WriteGateOpensAndClosesTheInterval := by
  intro g s h
  obtain ⟨-, -, hgate, -⟩ := h.proceeds.synced_spec.latches
  rw [h.proceeds.exec_eq rfl rfl, hgate, ← gateInterval_eq]
  rfl

/-! ## Drives -/

/-- R25: a state whose drives are those after `SYNC` with one written: that one, and the others as before the operation. -/
theorem SyncedSpec.drv_write {s u v : State} (k : SyncedSpec s u) {d : DriveId} {x : Drive}
    (hv : v.drives = u.drives.set d x) : v.drv d = x ∧ ∀ e, e ≠ d → v.drv e = s.drv e := by
  have hdrv : ∀ e, v.drv e = (u.setDrv d x).drv e := fun e => drv_congr hv e
  refine ⟨?_, fun e he => ?_⟩
  · rw [hdrv, drv_setDrv_self]
  · rw [hdrv, drv_setDrv_other u he, k.drv_eq]

/-- Settles O33: the latch and the drive's side, both with what `SYNC` keeps of the latches and the drives. -/
theorem driveAndSideSelect : Obligations.DriveAndSideSelect := by
  intro s h
  have k := h.proceeds.synced_spec
  obtain ⟨hdrive, hside, -⟩ := k.latches
  refine ⟨fun d => ?_, fun side => ?_⟩
  · obtain ⟨hself, hother⟩ := k.drv_write (v := drvselBody d (synced s)) rfl
    exact ⟨_, h.proceeds.exec_eq rfl rfl, rfl, by rw [hside, ← k.drv_eq]; exact hself, hother⟩
  · obtain ⟨hself, hother⟩ := k.drv_write (v := sideselBody side (synced s)) rfl
    rw [hdrive]
    exact ⟨_, h.proceeds.exec_eq rfl rfl, rfl, by rw [← k.drv_eq]; exact hself, hother⟩

/-- R170: the checkpoint of a body that leaves the live copy as `SYNC` left it. -/
theorem Proceeds.exec_of_same_cur {s : State} (h : Proceeds s) {i : Instr} (hx : isExternal i = true)
    (hw : i.wellFormed = true) (hcur : (externalBody i (synced s)).cur = (synced s).cur) :
    exec i s = .next (externalTail i (checkpointed (externalBody i (synced s)) (synced s).cur)) := by
  rw [h.exec_eq hx hw, hcur, h.synced_spec.live.refresh_self]

/-- Settles O34: neither body writes the live copy; `STPPH` writes one drive. -/
theorem stepperOperations : Obligations.StepperOperations := by
  intro s h
  have k := h.proceeds.synced_spec
  refine ⟨fun g => h.proceeds.exec_of_same_cur rfl rfl rfl, fun d code => ?_⟩
  obtain ⟨hself, hother⟩ := k.drv_write (v := stpphBody Config.machine d code (synced s)) rfl
  refine ⟨_, h.proceeds.exec_of_same_cur rfl rfl rfl, rfl, ?_, hother⟩
  rw [← k.drv_eq, ← k.same_stepperEnable]
  exact hself

/-! ## `MOTOR` -/

/-- R203: the motor after a command, as a chain of the three cases. -/
theorem motorDecode_eq (on : Bool) (k : SpindleCommand) :
    motorDecode on k = if k = .start then true else if k = .stop then false else on := by
  cases k <;> rfl

/-- R137, R181: with nothing to commit, following the motors writes the live copy only. -/
theorem followMotors_eq_setCur {c : Config} {now : Nat} {s : State} (hf : s.fault = none)
    (hw : s.cur.writeStartTime = none ∨ s.cur.writeStartTime = s.cur.time) :
    followMotors c now s = s.setCur (followMotors c now s).cur := by
  unfold followMotors
  split
  · rfl
  · split
    · rw [stopEngine_of_empty hf hw]; rfl
    · rfl

/-- R135, R137: a motor is on and the engine idle. -/
theorem followMotors_of_start {c : Config} {now : Nat} {s : State} (hon : anyMotor s = true) (hs : s.cur.state = .idle) :
    followMotors c now s = startEngine c now s := by
  simp [followMotors, hon, hs]

/-- R136, R137: no motor is on and the engine runs. -/
theorem followMotors_of_stop {c : Config} {now : Nat} {s : State} (hoff : anyMotor s = false) (hs : s.cur.state ≠ .idle) :
    followMotors c now s = stopEngine s := by
  simp [followMotors, hoff, hs]

/-- R137: the engine is already as the motors say. -/
theorem followMotors_of_neither {c : Config} {now : Nat} {s : State} (h1 : ¬ (anyMotor s = true ∧ s.cur.state = .idle))
    (h2 : ¬ (anyMotor s = false ∧ s.cur.state ≠ .idle)) : followMotors c now s = s := by
  unfold followMotors
  rw [if_neg (by simpa using h1), if_neg (by simpa using h2)]

/-- R66: the three commands of `MOTOR`. -/
theorem spindleCommand_eq_some {cmd : BitVec 2} {k : SpindleCommand}
    (h : cmd = 0 ∧ k = .stop ∨ cmd = 1 ∧ k = .start ∨ cmd = 2 ∧ k = .select) : spindleCommand cmd = some k := by
  rcases h with ⟨rfl, rfl⟩ | ⟨rfl, rfl⟩ | ⟨rfl, rfl⟩ <;> rfl

theorem motor_wellFormed_of_command {d : DriveId} {cmd : BitVec 2} {k : SpindleCommand}
    (h : spindleCommand cmd = some k) : (Instr.motor d cmd).wellFormed = true := by
  by_contra hw
  obtain ⟨e, he⟩ := eq_motor_of_not_wellFormed (Bool.eq_false_iff.mpr hw)
  cases he
  cases h

/-- R181: the wrapper around `MOTOR`'s body, which writes the drive, the command and the live copy. -/
theorem Proceeds.exec_motor {s : State} (h : Proceeds s) (d : DriveId) {cmd : BitVec 2} {k : SpindleCommand}
    (hk : spindleCommand cmd = some k) :
    exec (.motor d cmd) s = .next (checkpointed (spindleBody d k (synced s))
      (refreshLive Config.machine (followMotors Config.machine s.now (spindleBody d k (synced s))).cur)) := by
  have hsync := h.synced_spec
  have hbody : motorBody Config.machine d k (synced s) = (spindleBody d k (synced s)).setCur
      (followMotors Config.machine s.now (spindleBody d k (synced s))).cur := by
    rw [← followMotors_eq_setCur (s := spindleBody d k (synced s)) hsync.no_violation hsync.interval_empty, motorBody,
      hsync.same_now]
  rw [h.exec_eq rfl (motor_wellFormed_of_command hk), externalBody_motor hk, hbody]
  rfl

/-- Settles O35: the body writes one drive and one command, and the live copy in the three cases of `followMotors`. -/
theorem motorStartsAndStopsTheEngine : Obligations.MotorStartsAndStopsTheEngine := by
  intro d cmd k s h hcmd
  have hsync := h.proceeds.synced_spec
  have hexec := h.proceeds.exec_motor d (spindleCommand_eq_some hcmd)
  have hctl : (spindleBody d k (synced s)).spindleCtl = s.spindleCtl.set d k := by rw [← hsync.same_spindleCtl]; rfl
  obtain ⟨hself, hother⟩ := hsync.drv_write (v := spindleBody d k (synced s)) rfl
  have hlive := hsync.live.refresh_self
  refine ⟨_, _, hexec, rfl, ?drive, hother, ?command, ?others, ?start, ?stop, ?neither⟩
  case drive =>
    rw [← motorDecode_eq, ← hsync.drv_eq]
    exact hself
  case command => exact (congrArg (·.get d) hctl).trans (PerDrive.get_set_self ..)
  case others => exact fun e he => (congrArg (·.get e) hctl).trans (PerDrive.get_set_other _ he _)
  case start =>
    intro hon hs
    obtain ⟨-, -, hgate, -⟩ := hsync.latches
    have hclosed := hsync.live.interval_open_iff_writing.mpr (.inr hs)
    rw [followMotors_of_start (s := spindleBody d k (synced s)) hon hs, hgate, ← hclosed]
    exact refreshLive_refreshLive ..
  case stop =>
    intro hoff hs
    rw [followMotors_of_stop (s := spindleBody d k (synced s)) hoff hs,
      stopEngine_of_empty (s := spindleBody d k (synced s)) hsync.no_violation hsync.interval_empty]
    conv_rhs => rw [← hlive]
    rfl
  case neither =>
    intro h1 h2
    rw [followMotors_of_neither (s := spindleBody d k (synced s)) h1 h2]
    exact hlive

/-! ## Reads -/

/-- R68: the status byte as a number, each flag at its bit. -/
theorem statusByte_toNat (x : LiveState) (d : Drive) : (statusByte x d).toNat =
    64 * (decide (d.cylinder = 0)).toNat + 32 * d.writeProtect.toNat + 16 * x.flags.gcrError.toNat +
      8 * x.flags.synMarker.toNat + 4 * x.flags.syncDetected.toNat + 2 * x.flags.latchedByteReady.toNat +
      x.flags.byteReady.toNat := by
  have htrack : d.trackZero = decide (d.cylinder = 0) := rfl
  simp only [statusByte, htrack, toNat_append_eq, BitVec.toNat_ofBool, BitVec.toNat_ofNat]
  omega

/-- Settles O36: both bodies write the result port only. -/
theorem readsReturnDataAndStatus : Obligations.ReadsReturnDataAndStatus := by
  intro s h
  have k := h.proceeds.synced_spec
  obtain ⟨hdrive, -⟩ := k.latches
  refine ⟨h.proceeds.exec_of_same_cur rfl rfl rfl, _, h.proceeds.exec_of_same_cur rfl rfl rfl, ?_⟩
  rw [statusByte_toNat, k.drv_eq, ← hdrive]

/-! ## `TIMER` and `SPEC` -/

/-- Settles O37: the body and the tail are empty. -/
theorem timerSynchronises : Obligations.TimerSynchronises := fun _ h => h.proceeds.exec_of_same_cur rfl rfl rfl

/-- R185: `SPEC n` is the loop from what `TIMER` leaves. -/
theorem Proceeds.exec_spec {s : State} (h : Proceeds s) (n : Byte) : exec (.spec n) s =
    .next (runEngine Config.machine (s.now + n.toNat * Config.machine.period) s.now
      (checkpointed (synced s) (synced s).cur)) := by
  rw [h.exec_of_same_cur rfl rfl rfl, ← h.synced_spec.same_now]
  rfl

/-- R139: `RUN` with the limit given on its port. -/
theorem exec_run_with_limit {s : State} (hf : s.fault = none) (l : Nat) :
    exec .run { s with limit := l } = .next { runEngine Config.machine l s.lastNow s with limit := l } :=
  (exec_run_of_none (s := { s with limit := l }) hf).trans (congrArg _ (runEngine_setLimit l s))

/-- Cells that write neither the events nor anything beside them leave all but the live copy and the cached edge. -/
theorem sameBesideCell.eq_of_same_events {s t : State} (h : sameBesideCell s t) (he : t.events = s.events) :
    t = { s with cur := t.cur, nextEdge := t.nextEdge } := by
  conv_rhs => rw [← h, ← he]

/-- R185: of the cells from a boundary at or before `now` within the pending cell, exactly `n` end by `now + n * P`. -/
theorem cellsEnding_periods {c : Config} {now a : Nat} (n : Nat) {x : LiveState} (ha : x.time = some a) (hle : a ≤ now)
    (hlt : now < a + c.period) : cellsEnding c (now + n * c.period) x = n := by
  simp only [cellsEnding, ha]
  refine Nat.div_eq_of_lt_le (by omega) ?_
  rw [Nat.succ_mul]
  omega

/-- R139, R185: the loop from a settled running state up to `n` cells after `now` is `k <= n` cells, and all `n` of them unless
one defers a syncpoint. -/
theorem runEngine_periods {c : Config} {now a : Nat} (n : Nat) {s : State} (h : LiveInv c s.cur)
    (hs : settled c now s.cur = true) (ha : s.cur.time = some a) :
    ∃ k, k ≤ n ∧ runEngine c (now + n * c.period) now s = stepped c k s ∧
      (stepped c k s).cur.time = some (a + k * c.period) ∧ ((stepped c k s).cur.nextState = none → k = n) := by
  rcases settled_iff.mp hs with hidle | ⟨hrunning, hn, -, hdue, hend⟩
  · exact absurd hidle (h.not_idle_of_time ha)
  · have hlt := (cellEnded_eq_false_iff ha).mp hend
    have hcells := cellsEnding_periods n ha (timeAtOrBefore_some hdue ha) hlt
    obtain ⟨k, hrun, hk, htime, -, -, hall⟩ := runEngine_ahead n s hcells h hrunning hn a ha hlt
    exact ⟨k, hk, hrun, htime, hall⟩

/-- R185: running ahead of a settled state emits nothing. -/
theorem runEngine_periods_frame {c : Config} {now : Nat} (n : Nat) {s : State} (h : LiveInv c s.cur)
    (hs : settled c now s.cur = true) : runEngine c (now + n * c.period) now s =
      { s with
        cur := (runEngine c (now + n * c.period) now s).cur
        nextEdge := (runEngine c (now + n * c.period) now s).nextEdge } := by
  cases ha : s.cur.time with
  | none => rw [runEngine_idle (h.time_never_iff_idle.mp ha)]
  | some a =>
    obtain ⟨k, -, hrun, -⟩ := runEngine_periods n h hs ha
    obtain ⟨hbeside, hevents, -⟩ := stepped_frame (c := c) k s
    rw [hrun]
    exact hbeside.eq_of_same_events hevents

/-- Settles O38: the run ahead is the loop from what `TIMER` leaves, which is settled and not before the pending boundary. -/
theorem specRunsAheadByAtMostNCells : Obligations.SpecRunsAheadByAtMostNCells := by
  intro n s h
  have k := h.proceeds.synced_spec
  have hlive : LiveInv Config.machine (checkpointed (synced s) (synced s).cur).cur := k.live
  have hsettled : settled Config.machine s.now (checkpointed (synced s) (synced s).cur).cur = true := k.is_settled
  refine ⟨_, _, timerSynchronises s h, h.proceeds.exec_spec n, ?run, ?noCells, runEngine_periods_frame _ hlive hsettled,
    sameLatches_symm (runEngine_latches ..).latches, runEngine_liveInv hlive, fun hidle => runEngine_idle hidle,
    fun a ha => ?cells⟩
  case run =>
    refine (exec_run_with_limit (s := checkpointed (synced s) (synced s).cur) k.no_violation _).trans ?_
    rw [show (checkpointed (synced s) (synced s).cur).lastNow = s.now from k.same_lastNow]
  case noCells =>
    rintro rfl
    have hlimit : s.now + (0 : Byte).toNat * Config.machine.period = s.now := by simp
    rw [hlimit, runEngine_of_settled hsettled]
  case cells =>
    obtain ⟨j, hj, hrun, htime, hall⟩ := runEngine_periods n.toNat hlive hsettled ha
    rw [hrun]
    exact ⟨j, hj, htime, hall⟩

end Sys2Proof.Machine
end

section
/-! SUPPORT. The drive mechanics (spec/47_drive_mechanics.md): the phase decoder (R200), the head against its stops (R201), and
the write-protect inputs, which no operation but `RDSTAT` reads (R205). -/

namespace Sys2Proof.Machine

/-! ## The phase decoder -/

/-- R5: codes that coincide give the default, whose codes are distinct. -/
theorem phaseSeq_codes_nodup (c : Config) : c.phaseSeq.codes.Nodup := by
  unfold Config.phaseSeq
  split
  · assumption
  · decide

/-- R200: a code that is none of the four has no position. -/
theorem phaseIndex_of_not_mem {c : Config} {code : BitVec 4} (h : code ∉ c.phaseSeq.codes) : phaseIndex c code = none := by
  simp only [PhaseSeq.codes, List.mem_cons, List.not_mem_nil, or_false, not_or] at h
  obtain ⟨h0, h1, h2, h3⟩ := h
  simp [phaseIndex, h0, h1, h2, h3]

/-- R200: distinct codes stand at their own positions. -/
theorem phaseIndex_get (c : Config) (i : Fin 4) : phaseIndex c (c.phaseSeq.codes.get i) = some i.val := by
  have hnodup := phaseSeq_codes_nodup c
  simp only [PhaseSeq.codes, List.nodup_cons, List.mem_cons, List.not_mem_nil, or_false, not_or] at hnodup
  obtain ⟨⟨h01, h02, h03⟩, ⟨h12, h13⟩, h23, -⟩ := hnodup
  fin_cases i <;> simp [phaseIndex, PhaseSeq.codes, Ne.symm h01, Ne.symm h02, Ne.symm h03, Ne.symm h12, Ne.symm h13, Ne.symm h23]

/-- R200: between two positions. -/
theorem stepDecode_of_phaseIndex {c : Config} {old new : BitVec 4} {i j : Nat} (hi : phaseIndex c old = some i)
    (hj : phaseIndex c new = some j) :
    stepDecode c old new true = if j = (i + 1) % 4 then 1 else if j = (i + 3) % 4 then -1 else 0 := by
  simp [stepDecode, hi, hj]

/-- R200: a code without a position decodes to no movement, whether it is the old one or the new one. -/
theorem stepDecode_of_no_phaseIndex {c : Config} {old new : BitVec 4}
    (h : phaseIndex c old = none ∨ phaseIndex c new = none) : stepDecode c old new true = 0 := by
  rcases h with h | h
  · simp [stepDecode, h]
  · cases hold : phaseIndex c old <;> simp [stepDecode, h, hold]

/-- Settles O50: distinct codes are found at their positions, any other code at none. -/
theorem stepDecodeTable : Obligations.StepDecodeTable := fun c =>
  ⟨phaseSeq_codes_nodup c, fun _ _ => rfl,
    fun _ _ h => stepDecode_of_no_phaseIndex (h.imp phaseIndex_of_not_mem phaseIndex_of_not_mem),
    fun i j => stepDecode_of_phaseIndex (phaseIndex_get c i) (phaseIndex_get c j)⟩

/-! ## The head -/

theorem moveCylinder_zero {c : Config} {n : Nat} (h : n ≤ c.maxCylinder) : moveCylinder c n 0 = n := by
  unfold moveCylinder
  omega

theorem moveCylinder_forward {c : Config} {n : Nat} (h : n ≤ c.maxCylinder) :
    moveCylinder c n 1 = if n = c.maxCylinder then n else n + 1 := by
  unfold moveCylinder
  split <;> omega

theorem moveCylinder_backward {c : Config} {n : Nat} (h : n ≤ c.maxCylinder) :
    moveCylinder c n (-1) = if n = 0 then 0 else n - 1 := by
  unfold moveCylinder
  split <;> omega

theorem trackZero_iff (d : Drive) : d.trackZero = true ↔ d.cylinder = 0 := beq_iff_eq

/-- Settles O51: the sum held to `0..MAX_CYL`, for each of the three directions. -/
theorem cylinderMovesWithinItsRange : Obligations.CylinderMovesWithinItsRange := fun _ _ h =>
  ⟨moveCylinder_zero h, moveCylinder_forward h, moveCylinder_backward h, trackZero_iff⟩

/-! ## The write-protect inputs

An operation that does not read them commutes with `withWriteProtect p`. The shared operations do so one by one, from the reads
of the drives up to the wrapper of R170. -/

section
variable {p : PerDrive Bool}

/-! ### The drives -/

@[simp] theorem withWriteProtect_cur (s : State) : (withWriteProtect p s).cur = s.cur := rfl
@[simp] theorem withWriteProtect_fault (s : State) : (withWriteProtect p s).fault = s.fault := rfl

theorem drv_withWriteProtect (s : State) (d : DriveId) :
    (withWriteProtect p s).drv d = { s.drv d with writeProtect := p.get d } := by
  fin_cases d <;> rfl

theorem setDrv_withWriteProtect (s : State) (d : DriveId) (x : Drive) :
    (withWriteProtect p s).setDrv d { x with writeProtect := p.get d } = withWriteProtect p (s.setDrv d x) := by
  fin_cases d <;> rfl

/-- R110: the selected track depends on the drive's cylinder only. -/
theorem track_withWriteProtect (s : State) : (withWriteProtect p s).track = s.track := by
  unfold State.track
  rw [drv_withWriteProtect]
  rfl

/-- R42: of a drive's inputs, `medium` is the one that gates the flux source. -/
theorem fluxNext_withWriteProtect (s : State) (tr : Track) (t : Nat) :
    fluxNext (withWriteProtect p s) tr t = fluxNext s tr t := by
  unfold fluxNext
  rw [drv_withWriteProtect]
  rfl

/-! ### Violations and the medium -/

theorem raise_withWriteProtect (v : Violation) : Function.Commute (raise v) (withWriteProtect p) := by
  intro s
  cases hf : s.fault with
  | none => simp [raise, withWriteProtect, hf]
  | some w => rw [raise_of_some v hf, raise_of_some (s := withWriteProtect p s) v hf]

theorem andThen_withWriteProtect {f : State → State} (h : Function.Commute f (withWriteProtect p)) :
    Function.Commute (·.andThen f) (withWriteProtect p) := by
  intro s
  show (withWriteProtect p s).andThen f = withWriteProtect p (s.andThen f)
  cases hf : s.fault with
  | none => rw [andThen_of_none f hf, andThen_of_none (s := withWriteProtect p s) f hf, h s]
  | some v => rw [andThen_of_some f hf, andThen_of_some (s := withWriteProtect p s) f hf]

/-- R43: of a drive's inputs, `medium` is the one that gates the flux sink. -/
theorem fluxCommit_withWriteProtect (tr : Track) (start stop : Nat) (ts : List Nat) :
    Function.Commute (fluxCommit tr start stop ts) (withWriteProtect p) := by
  intro s
  unfold fluxCommit
  rw [drv_withWriteProtect]
  cases (s.drv tr.drive).medium with
  | true => rfl
  | false => exact raise_withWriteProtect _ s

theorem commitWrites_withWriteProtect : Function.Commute commitWrites (withWriteProtect p) := by
  intro s
  unfold commitWrites
  rw [track_withWriteProtect, withWriteProtect_cur]
  split
  · split
    · have hclose (t : Nat) : Function.Commute (closeInterval t) (withWriteProtect p) := fun _ => rfl
      exact ((andThen_withWriteProtect (hclose _)).comp_left (fluxCommit_withWriteProtect _ _ _ _)) s
    · rfl
  · rfl

theorem precomputeEdge_withWriteProtect : Function.Commute precomputeEdge (withWriteProtect p) := by
  intro s
  unfold precomputeEdge
  rw [track_withWriteProtect]
  simp only [fluxNext_withWriteProtect]
  rfl

/-! ### The stepping loop -/

theorem edgeAfterRead_withWriteProtect (c : Config) (t : Nat) (s : State) :
    edgeAfterRead c t (withWriteProtect p s) = edgeAfterRead c t s := by
  unfold edgeAfterRead
  rw [track_withWriteProtect, fluxNext_withWriteProtect]
  rfl

theorem stepCell_withWriteProtect (c : Config) : Function.Commute (stepCell c) (withWriteProtect p) := by
  intro s
  unfold stepCell
  rw [withWriteProtect_cur]
  split
  · rfl
  · rw [edgeAfterRead_withWriteProtect]
    rfl

theorem runEngine_withWriteProtect (c : Config) (limit now : Nat) :
    Function.Commute (runEngine c limit now) (withWriteProtect p) :=
  runEngine_commutes _ (fun _ => rfl) (fun _ _ => rfl) (fun _ => rfl) (stepCell_withWriteProtect c)

/-! ### Checkpoint, rollback, sync, start, stop -/

theorem checkpointEngine_withWriteProtect (c : Config) (now : Nat) :
    Function.Commute (checkpointEngine c now) (withWriteProtect p) :=
  have hcopy : Function.Commute copyToCheckpoint (withWriteProtect p) := fun s =>
    precomputeEdge_withWriteProtect { s with chk := s.cur }
  (andThen_withWriteProtect hcopy).comp_left
    (commitWrites_withWriteProtect.comp_left (runEngine_withWriteProtect c now now))

theorem rollbackEngine_withWriteProtect : Function.Commute rollbackEngine (withWriteProtect p) := fun s =>
  precomputeEdge_withWriteProtect { s with cur := if s.cur.state = .idle then s.cur else s.chk }

theorem discardSpeculation_withWriteProtect (now : Nat) :
    Function.Commute (discardSpeculation now) (withWriteProtect p) := by
  intro s
  unfold discardSpeculation
  rw [apply_ite (withWriteProtect p), ← rollbackEngine_withWriteProtect]
  rfl

theorem syncEngine_withWriteProtect (c : Config) (now : Nat) : Function.Commute (syncEngine c now) (withWriteProtect p) := by
  intro s
  have hbusy := commitWrites_withWriteProtect.comp_left
    ((runEngine_withWriteProtect (p := p) c now now).comp_left (discardSpeculation_withWriteProtect now))
  unfold syncEngine
  rw [apply_ite (withWriteProtect p)]
  exact congrArg (ite _ _) (hbusy s)

theorem stopEngine_withWriteProtect : Function.Commute stopEngine (withWriteProtect p) :=
  have hhalt : Function.Commute haltEngine (withWriteProtect p) := fun _ => rfl
  (andThen_withWriteProtect hhalt).comp_left commitWrites_withWriteProtect

/-! ### The wrapper, its bodies and its tails -/

/-- R217: the wrapper at a time before `last_now`. -/
theorem externalOp_of_regression {c : Config} {body tail : State → State} {s : State} (hf : s.fault = none)
    (hlt : ¬ s.lastNow ≤ s.now) : externalOp c body tail s = raise (.timeRegression s.now) s := by
  simp [externalOp, hf, Nat.lt_of_not_le hlt]

theorem externalOp_withWriteProtect (c : Config) {body tail : State → State}
    (hbody : Function.Commute body (withWriteProtect p)) (htail : Function.Commute tail (withWriteProtect p)) :
    Function.Commute (externalOp c body tail) (withWriteProtect p) := by
  intro s
  cases hf : s.fault with
  | some v => simp [externalOp, hf]
  | none =>
    by_cases hle : s.lastNow ≤ s.now
    · have hrefresh : Function.Commute (refreshCodec c) (withWriteProtect p) := fun _ => rfl
      have hchain := (andThen_withWriteProtect htail).comp_left
        ((andThen_withWriteProtect (checkpointEngine_withWriteProtect c s.now)).comp_left
          ((andThen_withWriteProtect hrefresh).comp_left
            ((andThen_withWriteProtect hbody).comp_left (syncEngine_withWriteProtect c s.now))))
      rw [externalOp_eq hf hle, externalOp_eq (s := withWriteProtect p s) hf hle]
      exact hchain { s with lastNow := s.now }
    · rw [externalOp_of_regression hf hle, externalOp_of_regression (s := withWriteProtect p s) hf hle]
      exact raise_withWriteProtect _ s

theorem followMotors_withWriteProtect (c : Config) (now : Nat) :
    Function.Commute (followMotors c now) (withWriteProtect p) := by
  intro s
  unfold followMotors
  rw [apply_ite (withWriteProtect p), apply_ite (withWriteProtect p), ← stopEngine_withWriteProtect]
  rfl

theorem motorBody_withWriteProtect (c : Config) (d : DriveId) (k : SpindleCommand) :
    Function.Commute (motorBody c d k) (withWriteProtect p) := by
  intro s
  have hspindle : spindleBody d k (withWriteProtect p s) = withWriteProtect p (spindleBody d k s) := by
    unfold spindleBody
    rw [drv_withWriteProtect, setDrv_withWriteProtect (p := p) s d { s.drv d with motorEnabled := _ }]
    rfl
  unfold motorBody
  rw [hspindle]
  exact followMotors_withWriteProtect c s.now _

/-- R173 to R182: of the bodies `RDSTAT`'s alone reads the inputs. -/
theorem externalBody_withWriteProtect {i : Instr} (hi : i ≠ .rdstat) :
    Function.Commute (externalBody i) (withWriteProtect p) := by
  intro s
  cases i with
  | rdstat => exact absurd rfl hi
  | drvsel d =>
    show drvselBody d _ = withWriteProtect p (drvselBody d s)
    unfold drvselBody
    rw [drv_withWriteProtect]
    exact setDrv_withWriteProtect (s.setCur { s.cur with drive := d }) d { s.drv d with side := s.cur.side }
  | sidesel side =>
    show sideselBody side _ = withWriteProtect p (sideselBody side s)
    unfold sideselBody
    rw [drv_withWriteProtect]
    exact setDrv_withWriteProtect (s.setCur { s.cur with side := side }) s.cur.drive { s.drv s.cur.drive with side := side }
  | stpph d code =>
    show stpphBody _ d code _ = withWriteProtect p (stpphBody _ d code s)
    unfold stpphBody
    rw [drv_withWriteProtect]
    exact setDrv_withWriteProtect s d
      { s.drv d with
        cylinder := moveCylinder Config.machine (s.drv d).cylinder
          (stepDecode Config.machine (s.drv d).phase code s.stepperEnable)
        phase := code }
  | motor d cmd =>
    cases hk : spindleCommand cmd with
    | some k => rw [externalBody_motor hk]; exact motorBody_withWriteProtect _ d k s
    | none => rw [externalBody_motor_of_no_command hk]; rfl
  | wrdata | wrgate | ergate | wrsync | stpen | rddata | timer | spec | lookup | refresh | step | fire | run | start | stop
  | commit | checkpoint | rollback | sync | reset => rfl

theorem externalTail_withWriteProtect (i : Instr) : Function.Commute (externalTail i) (withWriteProtect p) := by
  intro s
  unfold externalTail
  split
  · exact runEngine_withWriteProtect ..
  · rfl

/-! ### Every operation -/

theorem microOp_withWriteProtect {f : State → State} (h : Function.Commute f (withWriteProtect p)) (s : State) :
    microOp f (withWriteProtect p s) = mapNext (withWriteProtect p) (microOp f s) :=
  congrArg Host.Outcome.next (andThen_withWriteProtect h s)

theorem guardedOp_withWriteProtect (pre : Bool) (why : Fault) {f : State → State}
    (h : Function.Commute f (withWriteProtect p)) (s : State) :
    guardedOp pre why f (withWriteProtect p s) = mapNext (withWriteProtect p) (guardedOp pre why f s) := by
  unfold guardedOp
  rw [withWriteProtect_fault]
  split
  · rfl
  · split
    · exact congrArg Host.Outcome.next (h s)
    · rfl

theorem exec_withWriteProtect {i : Instr} (hi : i ≠ .rdstat) (s : State) :
    exec i (withWriteProtect p s) = mapNext (withWriteProtect p) (exec i s) := by
  cases hw : i.wellFormed with
  | false =>
    obtain ⟨v, hv⟩ := exec_of_not_wellFormed hw
    rw [hv, hv, raise_withWriteProtect v]
    rfl
  | true =>
    have hexternal (hx : isExternal i = true) : exec i (withWriteProtect p s) = mapNext (withWriteProtect p) (exec i s) := by
      rw [exec_eq_externalOp hx hw, exec_eq_externalOp hx hw,
        externalOp_withWriteProtect _ (externalBody_withWriteProtect hi) (externalTail_withWriteProtect i)]
      rfl
    cases i with
    | wrdata | drvsel | sidesel | wrgate | ergate | wrsync | stpen | stpph | motor | rddata | timer | spec => exact hexternal rfl
    | rdstat => exact absurd rfl hi
    | lookup => exact microOp_withWriteProtect (f := lookupCodec _) (fun _ => rfl) s
    | refresh => exact microOp_withWriteProtect (f := refreshCodec _) (fun _ => rfl) s
    | step => exact guardedOp_withWriteProtect _ _ (stepCell_withWriteProtect _) s
    | fire => exact guardedOp_withWriteProtect _ _ (f := fireSyncpoint) (fun _ => rfl) s
    | start => exact guardedOp_withWriteProtect _ _ (f := startEngine _ s.lastNow) (fun _ => rfl) s
    | run => exact microOp_withWriteProtect (runEngine_withWriteProtect _ s.limit s.lastNow) s
    | stop => exact guardedOp_withWriteProtect _ _ stopEngine_withWriteProtect s
    | commit => exact microOp_withWriteProtect commitWrites_withWriteProtect s
    | checkpoint => exact guardedOp_withWriteProtect _ _ (checkpointEngine_withWriteProtect _ s.lastNow) s
    | rollback => exact microOp_withWriteProtect rollbackEngine_withWriteProtect s
    | sync => exact microOp_withWriteProtect (syncEngine_withWriteProtect _ s.lastNow) s
    | reset => rfl

end

/-- Settles O47: no operation but `RDSTAT` reads the inputs, and none writes them. -/
theorem writeProtectGatesNothing : Obligations.WriteProtectGatesNothing := fun _ _ s hi => exec_withWriteProtect hi s

end Sys2Proof.Machine
end

section
/-! SUPPORT. The times that output events carry (spec/60_exceptions.md R219), the time contract of external operations
(spec/60_exceptions.md R217), and the values after `RESET` and at construction (spec/70_reset_and_hazards.md R240, R241). -/

namespace Sys2Proof.Machine

/-! ## The times that events carry -/

/-- R7, R219: from `s` to `t` events were only appended, and none of them carries a time later than `limit`. -/
def EmitsBy (limit : Nat) (s t : State) : Prop :=
  ∃ l, t.events = s.events ++ l ∧ ∀ e ∈ l, eventTime e ≤ limit

theorem EmitsBy.of_same {limit : Nat} {s t : State} (he : t.events = s.events) : EmitsBy limit s t :=
  ⟨[], by simp [he], by simp⟩

theorem EmitsBy.refl (limit : Nat) (s : State) : EmitsBy limit s s := .of_same rfl

theorem EmitsBy.trans {limit : Nat} {s t u : State} (h : EmitsBy limit s t) (k : EmitsBy limit t u) : EmitsBy limit s u := by
  obtain ⟨l, hl, hle⟩ := h
  obtain ⟨l', hl', hle'⟩ := k
  exact ⟨l ++ l', by rw [hl', hl, List.append_assoc], List.forall_mem_append.mpr ⟨hle, hle'⟩⟩

/-- R140: the events of a syncpoint all carry its time. -/
theorem eventTime_of_mem_fireEvents {t : Nat} {x : LiveState} {e : Event} (h : e ∈ fireEvents t x) : eventTime e = t := by
  simp only [fireEvents, List.mem_append, List.mem_ite_nil_right, List.mem_singleton] at h
  obtain (((⟨-, rfl⟩ | ⟨-, rfl⟩) | ⟨-, rfl⟩) | ⟨-, rfl⟩) | ⟨-, rfl⟩ := h
  all_goals rfl

theorem fireSyncpoint_emitsBy {limit : Nat} {s : State} (hle : ∀ t, s.cur.time = some t → t ≤ limit) :
    EmitsBy limit s (fireSyncpoint s) := by
  cases ht : s.cur.time with
  | none => exact .of_same (by simp [fireSyncpoint, ht])
  | some t =>
    refine ⟨fireEvents t s.cur, by rw [fireSyncpoint_of_time ht], fun e he => ?_⟩
    rw [eventTime_of_mem_fireEvents he]
    exact hle t ht

theorem settlePass_emitsBy {limit now : Nat} {s s' : State} (h : settlePass now s = some s')
    (hle : ∀ t, s.cur.time = some t → t ≤ limit) : EmitsBy limit s s' := by
  rcases (settlePass_cases h).2 with ⟨-, -, rfl⟩ | ⟨-, -, rfl⟩ | ⟨-, -, rfl⟩ | ⟨_, -, -, -, rfl⟩
  · exact .refl limit _
  · exact fireSyncpoint_emitsBy hle
  · exact fireSyncpoint_emitsBy (s := promote .runningSyncpoint s) hle
  · exact .of_same rfl

/-- R139, R140: `RUN` delivers each syncpoint at a boundary, and no boundary it reaches passes its limit. -/
theorem runEngine_emitsBy {c : Config} {limit now : Nat} {s : State} (hle : ∀ t, s.cur.time = some t → t ≤ limit) :
    EmitsBy limit s (runEngine c limit now s) := by
  have hboth : EmitsBy limit s (runEngine c limit now s) ∧
      ∀ t, (runEngine c limit now s).cur.time = some t → t ≤ limit := by
    refine runEngine_induct (P := fun r => EmitsBy limit s r ∧ ∀ t, r.cur.time = some t → t ≤ limit) ?pass ?cell
      ⟨.refl limit s, hle⟩
    case pass =>
      rintro r r' ⟨hr, hrle⟩ hp
      exact ⟨hr.trans (settlePass_emitsBy hp hrle), by rwa [settlePass_time hp]⟩
    case cell =>
      rintro r r' ⟨hr, hrle⟩ hp hend
      refine ⟨(hr.trans (settlePass_emitsBy hp hrle)).trans (.of_same (stepCell_events c r')), ?_⟩
      obtain ⟨t, ht, htle⟩ := cellEnded_iff.mp hend
      rw [stepCell_time ht]
      rintro _ ⟨⟩
      exact htle
  exact hboth.1

/-- R124, R219: a `COMMIT` event carries the pending boundary, at which the interval ends. -/
theorem commitWrites_emitsBy {limit : Nat} {s : State} (hle : ∀ t, s.cur.time = some t → t ≤ limit) :
    EmitsBy limit s (commitWrites s) := by
  rcases commitWrites_cases s with ⟨e, -⟩ | ⟨w, t, -, ht, -, ⟨-, -, e⟩ | ⟨-, -, e⟩ | ⟨-, e⟩⟩ <;> rw [e]
  · exact .refl limit s
  · exact .of_same rfl
  · exact .refl limit s
  · have hcommit : EmitsBy limit s (emit (.commit s.track w t s.cur.writeBuffer)
        { s with medium := mediumReplace s.medium s.track w t s.cur.writeBuffer }) :=
      ⟨[_], rfl, List.forall_mem_singleton.mpr (hle t ht)⟩
    exact andThen_keeps hcommit fun _ => hcommit.trans (.of_same rfl)

/-- R158: `SYNC(now)` discards what is ahead of `now`, so that it delivers and commits nothing later. -/
theorem syncEngine_emitsBy {c : Config} {now : Nat} {s : State} (h : Syncable c now s) :
    EmitsBy now s (syncEngine c now s) := by
  unfold syncEngine
  split
  · exact .refl now s
  · obtain ⟨-, hle, -⟩ := discardSpeculation_spec h
    have hdiscard : EmitsBy now s (discardSpeculation now s) := by
      rcases discardSpeculation_cases now s with ⟨-, e⟩ | ⟨-, e⟩ <;> rw [e]
      · exact .refl now s
      · exact .of_same (rollbackEngine_events s)
    exact (hdiscard.trans (runEngine_emitsBy hle)).trans (commitWrites_emitsBy (runEngine_not_ahead hle))

/-- R185: `SPEC`'s run ahead of a settled state delivers nothing. -/
theorem specTail_events (n : Byte) {s : State} (h : LiveInv Config.machine s.cur)
    (hs : settled Config.machine s.now s.cur = true) : (specTail Config.machine n s).events = s.events := by
  rw [specTail, runEngine_periods_frame n.toNat h hs]

/-- R170: past its `SYNC` an external operation emits nothing: its checkpoint and its run ahead find the engine settled. -/
theorem AfterBody.afterCheckpoint_events {i : Instr} {s v : State} (a : AfterBody s v) (hx : isExternal i = true) :
    (afterCheckpoint i s v).events = (synced s).events := by
  rcases afterCheckpoint_cases hx s v with e | ⟨n, e⟩ <;> rw [e]
  · exact a.same_events
  · have hsettled : settled Config.machine v.now v.cur = true := by rw [a.same_now]; exact a.is_settled
    exact (specTail_events n (s := checkpointed v (refreshLive Config.machine v.cur)) a.live hsettled).trans a.same_events

/-- Settles O41: only the wrapper's `SYNC` emits, and nothing later than the `now` it lands at. -/
theorem eventsAreNeverInTheFuture : Obligations.EventsAreNeverInTheFuture := by
  intro i s t h hx hw he
  obtain ⟨v, a, hv⟩ := h.proceeds.exec_external hx hw
  rw [hv] at he; cases he
  exact (syncEngine_emitsBy h.proceeds.syncable).trans (.of_same (a.afterCheckpoint_events hx))

/-! ## The time contract -/

/-- Settles O26: the wrapper compares `now` with `last_now` before anything else. -/
theorem timeRegressionIsAViolation : Obligations.TimeRegressionIsAViolation := by
  intro i s hx hw hf hlt
  rw [exec_eq_externalOp hx hw, externalOp_of_regression hf (Nat.not_le.mpr hlt), raise_of_none _ hf]

/-! ## Reset values -/

theorem resetOp_drv (c : Config) (s : State) : ∀ d, (resetOp c s).drv d = resetDrive (s.drv d) :=
  Fin.forall_fin_two.mpr ⟨rfl, rfl⟩

theorem resetOp_spindleCtl (c : Config) (s : State) : ∀ d, (resetOp c s).spindleCtl.get d = .stop :=
  Fin.forall_fin_two.mpr ⟨rfl, rfl⟩

/-- Settles O53: `RESET` writes each register's reset value whatever the state; of the drives it writes side, motor and phase. -/
theorem resetGivesTheResetValues : Obligations.ResetGivesTheResetValues := by
  intro s
  have hdrives d := And.intro (resetOp_drv Config.machine s d) (resetOp_spindleCtl Config.machine s d)
  exact ⟨_, rfl, rfl, rfl, rfl, rfl, rfl, rfl, rfl, rfl, rfl, rfl, rfl, rfl, rfl, rfl, rfl, rfl, rfl, rfl, rfl, rfl,
    rfl, rfl, hdrives, rfl, rfl, rfl, rfl, rfl, rfl, rfl, rfl, rfl, rfl⟩

theorem construct_drv (c : Config) : ∀ d, (State.construct c).drv d = .construct c d :=
  Fin.forall_fin_two.mpr ⟨rfl, rfl⟩

theorem construct_spindleCtl (c : Config) : ∀ d, (State.construct c).spindleCtl.get d = .stop :=
  Fin.forall_fin_two.mpr ⟨rfl, rfl⟩

/-- Settles O54: the machine is constructed with these values, and the live copy's codec pair is the lookup of its latches. -/
theorem stateAfterReset : Obligations.StateAfterReset := by
  have hlive : LiveInv Config.machine State.reset.cur := LiveState.reset_liveInv Config.machine
  have hdrive : ∀ d, State.reset.drv d = .construct Config.machine d := construct_drv Config.machine
  exact ⟨rfl, rfl, rfl, rfl, rfl, rfl, rfl, rfl, rfl, rfl, rfl, rfl, rfl, rfl, rfl, rfl, rfl, rfl,
    hlive.codec_input, hlive.codec_output, rfl, rfl, rfl, rfl, rfl, rfl, rfl, fun d => by
      rw [hdrive]
      exact ⟨rfl, rfl, rfl, rfl, construct_spindleCtl Config.machine d⟩⟩

end Sys2Proof.Machine
end
